-- ==== Sys2Proof/Word.lean ====
section
/-! DEFINITION. The block's bit-vector types, the types of its program positions, and the constants of
R7 that stand in a type. Nothing here computes: the number primitives of R10 are in Machine/Ops.lean. -/

namespace Sys2Proof

/-- A PRAM word, and the container of `rawFull`, of a history entry and of `host` (R7: WORD_BITS, RAW_BITS). -/
abbrev Word := BitVec 32

/-- A cell of IRAM, GRAM or ERAM, and a 24-bit signed operand A (R7: CELL_BITS; R48, R115). -/
abbrev Cell := BitVec 24

/-- An 8-bit quantity: `mem`, `coef`, `interp`, `carry`, a coefficient-bank entry, a program byte. -/
abbrev Byte := BitVec 8

/-- PROG_WORDS (R7): the words of a core's program. -/
abbrev progWords : Nat := 768

/-- PIPE_DEPTH (R7): the depth of an accumulator's history ring. -/
abbrev pipeDepth : Nat := 3

/-- A word index of a core's program: 0..767 (R22). -/
abbrev Pc := Fin progWords

/-- The two cores (R2, R7: NCORES). -/
inductive CoreId where
  | core0
  | core1
  deriving DecidableEq, Repr

/-- The core that is not `c`. -/
def CoreId.other : CoreId → CoreId
  | .core0 => .core1
  | .core1 => .core0

end Sys2Proof
end

