-- ==== Sys2Proof/Syntax.lean ====
section
/-! DEFINITION. The instructions: one constructor per row of spec/opcode_table.json.
Every constructor keeps every bit of its word that the row's encoding leaves free, also those the
instruction ignores, so that no bit is dropped between a word and its instruction. -/

namespace Sys2Proof

/-- The categories an `op` value selects (R75), as `prevOp` records them (R28, R125).
`Unsupported` is not among them: a word of that category never completes a cycle. -/
inductive Category where
  | nop | lda | ldb | mulc | aca | acb | acga | acgb
  | stia | stib | stga | stgb | ctrl | erda | erdb
  deriving DecidableEq, Repr

/-- The reason codes of the fault `Unsupported` (R161), in their order of priority. -/
inductive Reason where
  | reservedBits | opcode | subcode | mem
  deriving DecidableEq, Repr

/-- An instruction. `e` is eramCtrl, `ss` shiftSel, `mem` and `coef` the fields of those names (R64).
A word whose `mem` its category does not admit (R79) is still an instruction of that category: its
meaning raises `Unsupported`. -/
inductive Instr where
  | nop (e : BitVec 5) (ss : BitVec 2) (mem coef : Byte)
  | lda (e : BitVec 5) (ss : BitVec 2) (mem coef : Byte)
  | ldb (e : BitVec 5) (ss : BitVec 2) (mem coef : Byte)
  | mulc (e : BitVec 5) (ss : BitVec 2) (mem coef : Byte)
  | aca (e : BitVec 5) (ss : BitVec 2) (mem coef : Byte)
  | acb (e : BitVec 5) (ss : BitVec 2) (mem coef : Byte)
  | acga (e : BitVec 5) (ss : BitVec 2) (mem coef : Byte)
  | acgb (e : BitVec 5) (ss : BitVec 2) (mem coef : Byte)
  | stia (e : BitVec 5) (ss : BitVec 2) (mem coef : Byte)
  | stib (e : BitVec 5) (ss : BitVec 2) (mem coef : Byte)
  | stga (e : BitVec 5) (ss : BitVec 2) (mem coef : Byte)
  | stgb (e : BitVec 5) (ss : BitVec 2) (mem coef : Byte)
  | erda (e : BitVec 5) (ss : BitVec 2) (mem coef : Byte)
  | erdb (e : BitVec 5) (ss : BitVec 2) (mem coef : Byte)
  | ctrlNop (e : BitVec 5) (ss : BitVec 2) (coef : Byte)
  | ctrlInv (e : BitVec 5) (ss : BitVec 2) (coef : Byte)
  | ctrlIntp (e : BitVec 5) (ss : BitVec 2) (coef : Byte)
  | ctrlIntpn (e : BitVec 5) (ss : BitVec 2) (coef : Byte)
  | ctrlCarry (e : BitVec 5) (ss : BitVec 2) (coef : Byte)
  | ctrlSeti (e : BitVec 5) (ss : BitVec 2) (coef : Byte)
  | ctrlCond (e : BitVec 5) (ss : BitVec 2) (coef : Byte)
  | ctrlRect (e : BitVec 5) (ss : BitVec 2) (coef : Byte)
  | ctrlJmp (e : BitVec 5) (ss : BitVec 2) (coef : Byte)
  | ctrlJmpc (e : BitVec 5) (ss : BitVec 2) (coef : Byte)
  | ctrlHost (e : BitVec 5) (ss : BitVec 2) (coef : Byte)
  | ctrlWl (e : BitVec 5) (ss : BitVec 2) (coef : Byte)
  | ctrlVo (e : BitVec 5) (ss : BitVec 2) (coef : Byte)
  | ctrlCw (e : BitVec 5) (ss : BitVec 2) (coef : Byte)
  | ctrlCr (e : BitVec 5) (ss : BitVec 2) (coef : Byte)
  | ctrlMix (e : BitVec 5) (ss : BitVec 2) (coef : Byte)
  /-- The table's row `unsupported_op`: a word whose operation selector `opf` has no category. -/
  | unsupportedOp (e : BitVec 5) (opf : BitVec 5) (ss : BitVec 2) (mem coef : Byte)
  deriving DecidableEq, Repr

end Sys2Proof
end

