-- ==== Sys2Proof/Config.lean ====
section
/-! DEFINITION. What an implementation fixes: the OPEN parameters of R8.
The model takes them as one record `Params`, an argument of every operation that depends on one.
The machine itself is run at `Config.params`, a constant WITHOUT a body, so a theorem about it holds
for every value the parameters can have (93_implementation_defined.md section 2).
FIELD_LAYOUT and OP_MAP are a second record, `Encoding`, an argument of the decoder, of the encoder and
of a step; their reference values are in Decode.lean. -/

namespace Sys2Proof.Config

/-- The OPEN parameters of R8. Each field's type admits exactly the values R8's constraint admits.
UNVERIFIED: no source gives their values (logs 3 to 7); safe: nothing can be proved of one value. -/
structure Params where
  /-- LIT1, LIT3, LIT4: the literal operands of `mem` codes 1, 3 and 4 (R69, D8; log 7). -/
  lit1 : Cell
  lit3 : Cell
  lit4 : Cell
  /-- ERAM_WORDS = 2^(15 + eramExtra): every power of two from 0x8000 (D20; log 3). -/
  eramExtra : Nat
  /-- CRUNCH_T[0..4], each at most 19 (R105, D21; log 4). -/
  crunchT : Fin 5 → Fin 20
  /-- SKIP_N = 1 + skipExtra: every natural from 1 (R24, D24; log 5). -/
  skipExtra : Nat
  /-- SETCOND, a total predicate on the 24-bit operand A (R150, D25; log 6). -/
  setCond : Cell → Bool
  deriving Inhabited

/-- The parameters of the machine the model describes: uninterpreted. -/
opaque params : Params

/-- ERAM_WORDS (R8). -/
def Params.eramWords (p : Params) : Nat := 2 ^ (15 + p.eramExtra)

/-- SKIP_N (R8). -/
def Params.skipN (p : Params) : Nat := 1 + p.skipExtra

/-- FIELD_LAYOUT (R8, R64): the lowest bit of each field of a word. -/
structure FieldLayout where
  coefLo : Nat
  memLo : Nat
  shiftSelLo : Nat
  opfLo : Nat
  rsvdLo : Nat
  eramCtrlLo : Nat
  deriving DecidableEq, Repr

/-- The lowest bit and the width of every field (R64). -/
def FieldLayout.fields (l : FieldLayout) : List (Nat × Nat) :=
  [(l.coefLo, 8), (l.memLo, 8), (l.shiftSelLo, 2), (l.opfLo, 5), (l.rsvdLo, 4), (l.eramCtrlLo, 5)]

/-- R8's constraint: the fields lie in the word and are disjoint. -/
abbrev FieldLayout.Valid (l : FieldLayout) : Prop :=
  (∀ f ∈ l.fields, f.1 + f.2 ≤ 32) ∧
    l.fields.Pairwise (fun f g => f.1 + f.2 ≤ g.1 ∨ g.1 + g.2 ≤ f.1)

/-- OP_MAP (R8, R75): total on the 32 values of `opf`; `none` is the category Unsupported. -/
abbrev OpMap := BitVec 5 → Option Category

/-- The two OPEN parameters that say how a word is read (R8). -/
structure Encoding where
  layout : FieldLayout
  opMap : OpMap

end Sys2Proof.Config
end

