-- ==== Sys2Proof/Machine/State.lean ====
section
/-! DEFINITION. The state of the block as plain data (10_state.md), its reasons to stop (it has none),
and the launch state (R173). -/

namespace Sys2Proof.Machine

/-- A space of `w`-bit cells (R46): the cells that are not 0, as (address, cell) pairs, addresses
strictly rising. An unlisted cell reads 0 (log 8, DESIGN CHOICE: R8's reference value of the launch
images). The spec's spaces are cell-addressed, never byte-addressed (R46, R53), so a pair holds a whole
cell (log 17). -/
abbrev Mem (w : Nat) := List (Nat × BitVec w)

/-- The canonical form of a space: addresses strictly rising, no listed cell 0. -/
def Mem.wf {w : Nat} : Mem w → Bool
  | [] => true
  | (a, v) :: rest => (v != 0) && rest.all (fun cell => decide (a < cell.1)) && Mem.wf rest

/-- Every listed address is below `size`. -/
def Mem.below {w : Nat} (m : Mem w) (size : Nat) : Bool :=
  m.all (fun cell => decide (cell.1 < size))

/-- One accumulator (R18 to R20). -/
structure Acc where
  rawFull : Word
  hist : Vector Word pipeDepth
  head : Fin pipeDepth
  deriving DecidableEq, Repr

/-- Which accumulator of a core. -/
inductive AccId where
  | a
  | b
  deriving DecidableEq, Repr

/-- `Nxt_c`, the accumulating ERAM transaction (R30). Its 10-bit `pcStart` is only ever written with a
pc, so it is held as one (log 15). -/
structure NextTx where
  active : Bool
  write : Bool
  var : Bool
  pcStart : Pc
  acc : BitVec 16
  w : Fin 6
  deriving DecidableEq, Repr

/-- `Cur_c`, the committing ERAM transaction (R31; log 15 for the type of `pcCommit`). -/
structure CurTx where
  active : Bool
  write : Bool
  var : Bool
  pcCommit : Pc
  off : BitVec 16
  deriving DecidableEq, Repr

/-- What is private to one core (R16, D14). -/
structure CoreState where
  /-- R34. -/
  pram : Mem 32
  /-- R35. -/
  iram : Mem 24
  /-- R22. -/
  pc : Pc
  /-- R25. -/
  iramPos : Byte
  /-- R18. -/
  a : Acc
  b : Acc
  /-- R24: a register of SKIP_N bits, as the number it holds (log 5). -/
  skipfield : Nat
  /-- R26. -/
  interp : Byte
  /-- R27. -/
  carry : Byte
  /-- R28. -/
  prevOp : Category
  /-- R29. -/
  host : Word
  /-- R30, R31. -/
  nxt : NextTx
  cur : CurTx
  /-- R32. -/
  rdLatch : Cell
  wrLatch : Cell
  varOfs : BitVec 16
  /-- R33. -/
  eramOverlap : Bool
  deriving DecidableEq, Repr

/-- One record of the model-only list `faults` (R16, R160). -/
structure FaultRecord where
  core : CoreId
  pc : Pc
  word : Word
  reason : Reason
  deriving DecidableEq, Repr

/-- The host's five calls (R168). The argument types admit exactly the ranges the spec gives (log 27). -/
inductive HostCall where
  | stepCycle (c : CoreId)
  | stepSample
  | writeProgramByte (c : CoreId) (i : Pc) (lane : Fin 4) (b : Byte)
  | writeCoefficientOnly (c : CoreId) (i : Pc) (v : Byte)
  | readHostRegister (c : CoreId)
  deriving DecidableEq, Repr

/-- What a host call returns (R168, column "returns"; R160). -/
inductive Reply where
  | nothing
  | ok
  | fault (r : FaultRecord)
  | hostRegister (v : Word)
  deriving DecidableEq, Repr

/-- The next call of the reference schedule of R176: one of the 768 pairs of cycles, or the sample. -/
inductive Turn where
  | cycle (k : Pc) (c : CoreId)
  | sample
  deriving DecidableEq, Repr

/-- The state of the block (R16), and four fields of the model's own: `active`, `calls`, `turn`, `reply`. -/
structure State where
  core0 : CoreState
  core1 : CoreState
  /-- R36. -/
  gram : Mem 24
  /-- R37. -/
  coefBank : Mem 8
  /-- R38. -/
  eram : Mem 24
  /-- R39: held as a number below ERAM_WORDS (log 16). -/
  eramPos : Nat
  /-- R16, R160: model state in the spec itself. -/
  faults : List FaultRecord
  /-- The model's: the core whose cycle is run, the `c` of R111 (log 10). -/
  active : CoreId
  /-- The model's: the host calls still to be issued, the next one first (R59; log 10). -/
  calls : List HostCall
  /-- The model's: the reference host's next call, issued while `calls` is empty (R176; log 11). -/
  turn : Turn
  /-- The model's: what the last host call returned (R168; log 10). -/
  reply : Reply
  deriving DecidableEq, Repr

/-- No step of the block stops: its one fault is taken as a next state with a record (R160, R162,
R190; log 12). So there is no fault that ends a run. -/
inductive Fault
  deriving DecidableEq, Repr

/-- Why a step has no meaning. -/
inductive Refusal where
  /-- Raised by an arm of `exec` whose instruction has no meaning yet; safe. No arm is left with it. -/
  | notModelled (mnemonic : String)
  deriving DecidableEq, Repr

/-- The launch images of R8 and R173: PRAM_INIT, IRAM_INIT, GRAM_INIT, ERAM_INIT. -/
structure LaunchImages where
  pram0 : Mem 32
  pram1 : Mem 32
  iram0 : Mem 24
  iram1 : Mem 24
  gram : Mem 24
  eram : Mem 24
  deriving DecidableEq, Repr

/-- An accumulator at reset (R19, R20, R41). -/
def Acc.reset : Acc := { rawFull := 0, hist := #v[0, 0, 0], head := 0 }

/-- `Nxt_c` and `Cur_c` at reset (R30, R31, R41). -/
def NextTx.reset : NextTx :=
  { active := false, write := false, var := false, pcStart := 0, acc := 0, w := 0 }
def CurTx.reset : CurTx :=
  { active := false, write := false, var := false, pcCommit := 0, off := 0 }

/-- One core at launch with the given program and IRAM images (R41, R173). -/
def CoreState.launch (pram : Mem 32) (iram : Mem 24) : CoreState :=
  { pram := pram, iram := iram, pc := 0, iramPos := 0, a := Acc.reset, b := Acc.reset
    skipfield := 0, interp := 0, carry := 0, prevOp := .nop, host := 0
    nxt := NextTx.reset, cur := CurTx.reset, rdLatch := 0, wrLatch := 0, varOfs := 0
    eramOverlap := false }

/-- The launch state with the given images (R173). The model's own fields: no call is queued, the
reference host is at its first call, core 0 is named, nothing has been returned (logs 10, 11, DESIGN
CHOICE). -/
def State.launch (img : LaunchImages) : State :=
  { core0 := CoreState.launch img.pram0 img.iram0
    core1 := CoreState.launch img.pram1 img.iram1
    gram := img.gram, coefBank := [], eram := img.eram, eramPos := 0, faults := []
    active := .core0, calls := [], turn := .cycle 0 .core0, reply := .nothing }

/-- The machine right after reset: launched with every image zero (log 8). -/
def State.reset : State :=
  State.launch { pram0 := [], pram1 := [], iram0 := [], iram1 := [], gram := [], eram := [] }

end Sys2Proof.Machine
end

