-- ==== Sys2Proof/Machine/Ops.lean ====
section
/-! DEFINITION. The named operations: number primitives (R10), memory (R11, R48), a core's state, the
accumulator pipeline (R83 to R89), instruction fetch (R112), and taking the one fault (R160). -/

namespace Sys2Proof.Machine

/-! ### Number primitives -/

/-- `clamp(v, lo, hi)` (R10). -/
def clamp (v lo hi : Int) : Int := if v < lo then lo else if hi < v then hi else v

/-- `asr(v, s)` = floor(v / 2^s) (R10, R119, D43): Lean's Int division by a positive number floors. -/
def asr (v : Int) (s : Nat) : Int := v / 2 ^ s

/-- SAT_MIN and SAT_MAX (R7). -/
def satMin : Int := -0x800000
def satMax : Int := 0x7FFFFF

/-- ACC_BITS (R7): the significant bits of `rawFull`. -/
abbrev accBits : Nat := 30

/-- `wrap_30(v)` in the 32-bit container of `rawFull` (R10, R19, R83). -/
def wrap30 (v : Int) : Word := (BitVec.ofInt accBits v).signExtend 32

/-! ### Memory -/

/-- IRAM_WORDS, GRAM_WORDS and COEF_BANK_ENTRIES (R7). -/
abbrev iramWords : Nat := 256
abbrev gramWords : Nat := 256
abbrev coefBankEntries : Nat := 8

/-- `MemRead(S, a, 1)` (R11): the cell at `a`, 0 where none is listed. -/
def Mem.read {w : Nat} : Mem w → Nat → BitVec w
  | [], _ => 0
  | (b, v) :: rest, a => if b = a then v else Mem.read rest a

/-- Put a cell before the first listed one of a greater address. -/
def Mem.insertCell {w : Nat} : Mem w → Nat → BitVec w → Mem w
  | [], a, v => [(a, v)]
  | (b, x) :: rest, a, v =>
    if a < b then (a, v) :: (b, x) :: rest else (b, x) :: Mem.insertCell rest a v

/-- `MemWrite(S, a, 1, v)` (R11), keeping the canonical form: a 0 is not listed. -/
def Mem.write {w : Nat} (m : Mem w) (a : Nat) (v : BitVec w) : Mem w :=
  let others := m.filter (fun cell => cell.1 != a)
  if v = 0 then others else Mem.insertCell others a v

/-! ### The cores -/

/-- The state of core `c`. -/
def State.core (s : State) : CoreId → CoreState
  | .core0 => s.core0
  | .core1 => s.core1

/-- `s` with core `c` in the state `k`. -/
def State.setCore (s : State) : CoreId → CoreState → State
  | .core0, k => { s with core0 := k }
  | .core1, k => { s with core1 := k }

/-- The core whose cycle is run: the core `c` every per-core name of R111 refers to (R11). -/
def State.me (s : State) : CoreState := s.core s.active

/-- `s` with that core in the state `k`. -/
def State.setMe (s : State) (k : CoreState) : State := s.setCore s.active k

/-- `s` with one of the shared spaces replaced (R16). -/
def State.setGram (s : State) (m : Mem 24) : State := { s with gram := m }
def State.setCoefBank (s : State) (m : Mem 8) : State := { s with coefBank := m }
def State.setEram (s : State) (m : Mem 24) : State := { s with eram := m }

/-- `s` with the return value of the call it ends (R168). -/
def State.setReply (s : State) (r : Reply) : State := { s with reply := r }

/-- An accumulator of a core. -/
def CoreState.acc (k : CoreState) : AccId → Acc
  | .a => k.a
  | .b => k.b

/-- `k` with one accumulator replaced. -/
def CoreState.setAcc (k : CoreState) : AccId → Acc → CoreState
  | .a, x => { k with a := x }
  | .b, x => { k with b := x }

/-! ### The accumulator pipeline -/

/-- `assign(x, v)` (R83). -/
def Acc.assign (x : Acc) (v : Int) : Acc := { x with rawFull := wrap30 v }

/-- `accumulate(x, v)` (R84, D10): wraps at 30 bits, does not saturate. -/
def Acc.accumulate (x : Acc) (v : Int) : Acc := { x with rawFull := wrap30 (x.rawFull.toInt + v) }

/-- `readSat24(r)` (R85). -/
def readSat24 (r : Word) : Cell := BitVec.ofInt 24 (clamp r.toInt satMin satMax)

/-- `readRaw24(r)` (R86). -/
def readRaw24 (r : Word) : Cell := r.extractLsb' 0 24

/-- `storePipeline(x)` (R87). -/
def Acc.storePipeline (x : Acc) : Acc :=
  { x with hist := x.hist.set x.head x.rawFull, head := x.head + 1 }

/-- `pipe(x)` (R88): the entry at `head`, read before the cycle's `storePipeline`. -/
def Acc.pipe (x : Acc) : Word := x.hist[x.head]

/-! ### Fetch and the program counter -/

/-- `MemRead(PRAM_c, pc, 1)` (R47, R112). -/
def fetch (k : CoreState) : Word := Mem.read k.pram k.pc.val

/-- `(pc + 1) mod 768` (R22, R126): addition in `Fin 768` wraps. -/
def nextPc (pc : Pc) : Pc := pc + 1

/-! ### Taking the fault -/

/-- The record of a fault of the core that runs (R160): its pc and the word it fetched there. -/
def faultRecord (r : Reason) (s : State) : FaultRecord :=
  { core := s.active, pc := s.me.pc, word := fetch s.me, reason := r }

/-- `raise Unsupported` (R11, R160): the record is appended to `faults`, the call returns it, and
nothing else is written; pc still names the word (R162). -/
def raiseUnsupported (r : Reason) (s : State) : State :=
  { s with faults := s.faults ++ [faultRecord r s], reply := .fault (faultRecord r s) }

end Sys2Proof.Machine
end

