-- ==== Sys2Proof/Machine/Eram.lean ====
section
/-! DEFINITION. The ERAM transaction controller (41_eram_controller.md): crunch, the two addresses,
the commit step and the sampling step. Each is core `active`'s. -/

namespace Sys2Proof.Machine

open Sys2Proof.Config (Params)

/-- ERAM_LATENCY: cycles from the START to the commit (R7, R98). -/
def eramLatency : Pc := 10

/-- ERAM_WINDOW: the start cycle and the four nibble cycles (R7, R96, R98). -/
abbrev eramWindowLen : Nat := 5

/-- ERAM_BANK_THRESHOLD (R7, R103); it does not scale with ERAM_WORDS (I8). -/
abbrev bankThreshold : Nat := 0x4000

/-! ### Crunch -/

/-- The `k` of R105: how many of the bits 22, 21, 20, 19, read in that order, equal the sign bit
before the first that differs. -/
def crunchClass (v : Cell) : Fin 5 :=
  if v[22] ≠ v[23] then 0
  else if v[21] ≠ v[23] then 1
  else if v[20] ≠ v[23] then 2
  else if v[19] ≠ v[23] then 3
  else 4

/-- `crunch(V)` (R105): the low CRUNCH_T[k] bits cleared. -/
def crunch (p : Params) (v : Cell) : Cell :=
  v &&& ~~~(BitVec.ofNat 24 (2 ^ (p.crunchT (crunchClass v)).val - 1))

/-! ### Addresses -/

/-- The plain address (R100). -/
def plainAddr (p : Params) (eramPos : Nat) (off : BitVec 16) : Nat :=
  (eramPos + off.toNat) % p.eramWords

/-- `varAddr(off)` (R103): the sum wraps inside the half that holds `eramPos`. -/
def varAddr (p : Params) (eramPos : Nat) (varOfs off : BitVec 16) : Nat :=
  let bank := if bankThreshold ≤ eramPos then bankThreshold else 0
  (bank + (eramPos + off.toNat + varOfs.toNat) % bankThreshold) % p.eramWords

/-- The address a commit of core state `k` uses, from `eramPos` and `varOfs` as they stand (R100, D22). -/
def commitAddr (p : Params) (eramPos : Nat) (k : CoreState) : Nat :=
  if k.cur.var then varAddr p eramPos k.varOfs k.cur.off else plainAddr p eramPos k.cur.off

/-! ### The commit step -/

/-- A commit is due in this cycle (R100). -/
def commitDue (k : CoreState) : Bool := k.cur.active && decide (k.pc = k.cur.pcCommit)

/-- `Cur.active <- 0`. -/
def CoreState.retireCur (k : CoreState) : CoreState := { k with cur := { k.cur with active := false } }

/-- The commit step (R100 to R102). -/
def eramCommit (p : Params) (s : State) : State :=
  let k := s.me
  let a := commitAddr p s.eramPos k
  if commitDue k then
    if k.cur.write then
      (s.setEram (Mem.write s.eram a (crunch p k.wrLatch))).setMe k.retireCur
    else s.setMe { k.retireCur with rdLatch := Mem.read s.eram a }
  else s

/-! ### The sampling step -/

/-- Promotion (R98), over an uncommitted Current too (R99). -/
def eramPromote (k : CoreState) : CoreState :=
  if k.nxt.active && decide (k.nxt.w.val = eramWindowLen) then
    { k with
      cur := { active := true, write := k.nxt.write, var := k.nxt.var
               pcCommit := k.nxt.pcStart + eramLatency, off := k.nxt.acc }
      nxt := { k.nxt with active := false }
      eramOverlap := k.eramOverlap || k.cur.active }
  else k

/-- Start (R95, R97): bit 4 of `e` is START, bit 0 WRITE, bit 1 VAR. -/
def eramStart (e : BitVec 5) (k : CoreState) : CoreState :=
  if e[4] then
    { k with
      nxt := { active := true, write := e[0], var := e[1], pcStart := k.pc, acc := 0, w := 1 }
      eramOverlap := k.eramOverlap || k.cur.active }
  else k

/-- One window cycle (R96): bits 3:0 of `e` are the nibble. A window index outside 1..4 is reached by
no run (log 21); the rules give it nothing to do. -/
def eramWindow (e : BitVec 5) (k : CoreState) : CoreState :=
  if 1 ≤ k.nxt.w.val ∧ k.nxt.w.val < eramWindowLen then
    { k with
      nxt := { k.nxt with
        acc := (k.nxt.acc <<< 4) ||| (e.extractLsb' 0 4).setWidth 16
        w := k.nxt.w + 1 } }
  else k

/-- The sampling step (R98, then R95 or R96). -/
def eramSample (e : BitVec 5) (k : CoreState) : CoreState :=
  let k := eramPromote k
  if k.nxt.active then eramWindow e k else eramStart e k

/-- Steps 2 and 3 of a cycle (R94, R111). -/
def eramStep (p : Params) (e : BitVec 5) (s : State) : State :=
  let s := eramCommit p s
  s.setMe (eramSample e s.me)

end Sys2Proof.Machine
end

