-- ==== Sys2Proof/WellFormed.lean ====
section
/-! DEFINITION. Which terms of `Instr` are the instruction of some word.
The field widths are in the types, so what is left to check is the operation: OP_MAP must reach the
instruction's category, and must give the `opf` of `unsupportedOp` none. Whether a well-formed
instruction may execute (R79) is decided by its meaning, not here. -/

namespace Sys2Proof

open Sys2Proof.Config (OpMap)

/-- The category of an instruction (R75, R76); `unsupportedOp` has none. -/
def Instr.category : Instr → Option Category
  | .nop .. => some .nop
  | .lda .. => some .lda
  | .ldb .. => some .ldb
  | .mulc .. => some .mulc
  | .aca .. => some .aca
  | .acb .. => some .acb
  | .acga .. => some .acga
  | .acgb .. => some .acgb
  | .stia .. => some .stia
  | .stib .. => some .stib
  | .stga .. => some .stga
  | .stgb .. => some .stgb
  | .erda .. => some .erda
  | .erdb .. => some .erdb
  | .ctrlNop .. | .ctrlInv .. | .ctrlIntp .. | .ctrlIntpn .. | .ctrlCarry .. | .ctrlSeti ..
  | .ctrlCond .. | .ctrlRect .. | .ctrlJmp .. | .ctrlJmpc .. | .ctrlHost .. | .ctrlWl ..
  | .ctrlVo .. | .ctrlCw .. | .ctrlCr .. | .ctrlMix .. => some .ctrl
  | .unsupportedOp .. => none

/-- The `opf` values, in order. -/
def allOpf : List (BitVec 5) := (List.range 32).map (BitVec.ofNat 5)

/-- `i` is the instruction of some word under the operation map `map`. -/
def Instr.wellFormedIn (map : OpMap) (i : Instr) : Bool :=
  match i with
  | .unsupportedOp _ opf _ _ _ => map opf == none
  | .nop .. | .lda .. | .ldb .. | .mulc .. | .aca .. | .acb .. | .acga .. | .acgb ..
  | .stia .. | .stib .. | .stga .. | .stgb .. | .erda .. | .erdb ..
  | .ctrlNop .. | .ctrlInv .. | .ctrlIntp .. | .ctrlIntpn .. | .ctrlCarry .. | .ctrlSeti ..
  | .ctrlCond .. | .ctrlRect .. | .ctrlJmp .. | .ctrlJmpc .. | .ctrlHost .. | .ctrlWl ..
  | .ctrlVo .. | .ctrlCw .. | .ctrlCr .. | .ctrlMix .. => allOpf.any (fun opf => map opf == i.category)

end Sys2Proof
end

