-- ==== Sys2Proof/Decode.lean ====
section
/-! DEFINITION. The decoder and the encoder (30_encoding.md).
FIELD_LAYOUT and OP_MAP are OPEN parameters of R8: `decodeWith` and `encodeWith` take them as an
argument. `decode` and `encode`, which the machine runs, are these at the spec's reference values
(logs 1, 2; DESIGN CHOICE, unsafe for a word image made for another layout). -/

namespace Sys2Proof

open Sys2Proof.Config (FieldLayout OpMap Encoding)

/-! ### The constants of R7 about `mem` -/

/-- MEM_LITERAL: the literal codes, first and last (R7, R68). -/
abbrev memLiteralMin : Nat := 0x01
abbrev memLiteralMax : Nat := 0x04

/-- MEM_ADDRESS_MIN: the first address code (R7, R68). -/
abbrev memAddressMin : Nat := 0x05

/-- MEM_CONTROL_MIN: the first control code (R7, R68). -/
abbrev memControlMin : Nat := 0xC0

/-! ### The fields of a word -/

/-- The fields of a word (R65), by the layout `l` (R64). -/
def coefOf (l : FieldLayout) (w : Word) : Byte := w.extractLsb' l.coefLo 8
def memOf (l : FieldLayout) (w : Word) : Byte := w.extractLsb' l.memLo 8
def shiftSelOf (l : FieldLayout) (w : Word) : BitVec 2 := w.extractLsb' l.shiftSelLo 2
def opfOf (l : FieldLayout) (w : Word) : BitVec 5 := w.extractLsb' l.opfLo 5
def rsvdOf (l : FieldLayout) (w : Word) : BitVec 4 := w.extractLsb' l.rsvdLo 4
def eramCtrlOf (l : FieldLayout) (w : Word) : BitVec 5 := w.extractLsb' l.eramCtrlLo 5

/-- A field in its place, every other bit 0. -/
def placeField {n : Nat} (lo : Nat) (v : BitVec n) : Word := v.setWidth 32 <<< lo

/-- A word from its fields, the reserved bits 0 (R64). -/
def assemble (l : FieldLayout) (e opf : BitVec 5) (ss : BitVec 2) (mem coef : Byte) : Word :=
  placeField l.eramCtrlLo e ||| placeField l.opfLo opf ||| placeField l.shiftSelLo ss
    ||| placeField l.memLo mem ||| placeField l.coefLo coef

/-! ### The reference values -/

/-- FIELD_LAYOUT at its reference value (R64). -/
def fieldLayout : FieldLayout :=
  { coefLo := 0, memLo := 8, shiftSelLo := 16, opfLo := 18, rsvdLo := 23, eramCtrlLo := 27 }

/-- OP_MAP at its reference value (R75): the category of each `opf`; `none` is Unsupported. -/
def opMap : OpMap := fun opf =>
  match opf.toNat with
  | 0 => some .nop
  | 1 => some .lda
  | 2 => some .ldb
  | 3 => some .mulc
  | 4 => some .aca
  | 5 => some .acb
  | 6 => some .acga
  | 7 => some .acgb
  | 8 => some .stia
  | 9 => some .stib
  | 10 => some .stga
  | 11 => some .stgb
  | 13 => some .ctrl
  | 14 => some .erda
  | 15 => some .erdb
  | _ => none

/-- The encoding the machine runs: R8's reference values. -/
def referenceEncoding : Encoding := { layout := fieldLayout, opMap := opMap }

/-- `i` is the instruction of some word of the machine. -/
def Instr.wellFormed (i : Instr) : Bool := i.wellFormedIn opMap

/-! ### Decoding -/

/-- `mem` is a control code, 0xC0..0xCF (R68). -/
def isControlCode (mem : Byte) : Bool :=
  decide (memControlMin ≤ mem.toNat ∧ mem.toNat < memControlMin + 0x10)

/-- The CTRL sub-code map (R76): the instruction of sub-code `sub`. -/
def ctrlOf (sub : BitVec 4) (e : BitVec 5) (ss : BitVec 2) (coef : Byte) : Instr :=
  match sub.toNat with
  | 0 => .ctrlNop e ss coef
  | 1 => .ctrlInv e ss coef
  | 2 => .ctrlIntp e ss coef
  | 3 => .ctrlIntpn e ss coef
  | 4 => .ctrlCarry e ss coef
  | 5 => .ctrlSeti e ss coef
  | 6 => .ctrlCond e ss coef
  | 7 => .ctrlRect e ss coef
  | 8 => .ctrlJmp e ss coef
  | 9 => .ctrlJmpc e ss coef
  | 10 => .ctrlHost e ss coef
  | 11 => .ctrlWl e ss coef
  | 12 => .ctrlVo e ss coef
  | 13 => .ctrlCw e ss coef
  | 14 => .ctrlCr e ss coef
  | _ => .ctrlMix e ss coef

/-- The instruction of category `cat` with the given fields. A CTRL word whose `mem` is no control
code (R71) has no sub-code and no row of the table: it is rejected with the reason R161 gives it. -/
def instrOf (cat : Category) (e : BitVec 5) (ss : BitVec 2) (mem coef : Byte) :
    Except Reason Instr :=
  match cat with
  | .nop => .ok (.nop e ss mem coef)
  | .lda => .ok (.lda e ss mem coef)
  | .ldb => .ok (.ldb e ss mem coef)
  | .mulc => .ok (.mulc e ss mem coef)
  | .aca => .ok (.aca e ss mem coef)
  | .acb => .ok (.acb e ss mem coef)
  | .acga => .ok (.acga e ss mem coef)
  | .acgb => .ok (.acgb e ss mem coef)
  | .stia => .ok (.stia e ss mem coef)
  | .stib => .ok (.stib e ss mem coef)
  | .stga => .ok (.stga e ss mem coef)
  | .stgb => .ok (.stgb e ss mem coef)
  | .erda => .ok (.erda e ss mem coef)
  | .erdb => .ok (.erdb e ss mem coef)
  | .ctrl =>
    if isControlCode mem then .ok (ctrlOf (mem.extractLsb' 0 4) e ss coef)
    else .error .mem

/-- `decode` (R65), for any layout and map: total on 32-bit words. A word with a reserved bit set is
rejected by the reason RESERVED_BITS (R73); one with an unmapped `opf` is the instruction
`unsupportedOp`. Decoding signals nothing: a step raises a rejection's reason as it executes the word
(D47; log 14). -/
def decodeWith (enc : Encoding) (w : Word) : Except Reason Instr :=
  let l := enc.layout
  if rsvdOf l w = 0 then
    match enc.opMap (opfOf l w) with
    | some cat => instrOf cat (eramCtrlOf l w) (shiftSelOf l w) (memOf l w) (coefOf l w)
    | none =>
      .ok (.unsupportedOp (eramCtrlOf l w) (opfOf l w) (shiftSelOf l w) (memOf l w) (coefOf l w))
  else .error .reservedBits

/-- The machine's decoder. -/
def decode (w : Word) : Except Reason Instr := decodeWith referenceEncoding w

/-! ### Encoding -/

/-- The first `opf` that selects the category `cat`. -/
def opfFor (map : OpMap) (cat : Category) : BitVec 5 :=
  (allOpf.find? (fun opf => map opf == some cat)).getD 0

/-- The word of category `cat` with the given fields. -/
def assembleOp (enc : Encoding) (cat : Category) (e : BitVec 5) (ss : BitVec 2) (mem coef : Byte) :
    Word :=
  assemble enc.layout e (opfFor enc.opMap cat) ss mem coef

/-- A CTRL word: `mem` = 0xC0 + sub (R71, R143). -/
def assembleCtrl (enc : Encoding) (sub : BitVec 4) (e : BitVec 5) (ss : BitVec 2) (coef : Byte) :
    Word :=
  assembleOp enc .ctrl e ss (BitVec.ofNat 8 (memControlMin + sub.toNat)) coef

/-- The word of an instruction (R64, R75, R76), for any layout and map. -/
def encodeWith (enc : Encoding) : Instr → Word
  | .nop e ss mem coef => assembleOp enc .nop e ss mem coef
  | .lda e ss mem coef => assembleOp enc .lda e ss mem coef
  | .ldb e ss mem coef => assembleOp enc .ldb e ss mem coef
  | .mulc e ss mem coef => assembleOp enc .mulc e ss mem coef
  | .aca e ss mem coef => assembleOp enc .aca e ss mem coef
  | .acb e ss mem coef => assembleOp enc .acb e ss mem coef
  | .acga e ss mem coef => assembleOp enc .acga e ss mem coef
  | .acgb e ss mem coef => assembleOp enc .acgb e ss mem coef
  | .stia e ss mem coef => assembleOp enc .stia e ss mem coef
  | .stib e ss mem coef => assembleOp enc .stib e ss mem coef
  | .stga e ss mem coef => assembleOp enc .stga e ss mem coef
  | .stgb e ss mem coef => assembleOp enc .stgb e ss mem coef
  | .erda e ss mem coef => assembleOp enc .erda e ss mem coef
  | .erdb e ss mem coef => assembleOp enc .erdb e ss mem coef
  | .ctrlNop e ss coef => assembleCtrl enc 0x0 e ss coef
  | .ctrlInv e ss coef => assembleCtrl enc 0x1 e ss coef
  | .ctrlIntp e ss coef => assembleCtrl enc 0x2 e ss coef
  | .ctrlIntpn e ss coef => assembleCtrl enc 0x3 e ss coef
  | .ctrlCarry e ss coef => assembleCtrl enc 0x4 e ss coef
  | .ctrlSeti e ss coef => assembleCtrl enc 0x5 e ss coef
  | .ctrlCond e ss coef => assembleCtrl enc 0x6 e ss coef
  | .ctrlRect e ss coef => assembleCtrl enc 0x7 e ss coef
  | .ctrlJmp e ss coef => assembleCtrl enc 0x8 e ss coef
  | .ctrlJmpc e ss coef => assembleCtrl enc 0x9 e ss coef
  | .ctrlHost e ss coef => assembleCtrl enc 0xA e ss coef
  | .ctrlWl e ss coef => assembleCtrl enc 0xB e ss coef
  | .ctrlVo e ss coef => assembleCtrl enc 0xC e ss coef
  | .ctrlCw e ss coef => assembleCtrl enc 0xD e ss coef
  | .ctrlCr e ss coef => assembleCtrl enc 0xE e ss coef
  | .ctrlMix e ss coef => assembleCtrl enc 0xF e ss coef
  | .unsupportedOp e opf ss mem coef => assemble enc.layout e opf ss mem coef

/-- The machine's encoder. -/
def encode (i : Instr) : Word := encodeWith referenceEncoding i

/-! ### Admission -/

/-- Which `mem` values a load or accumulate category admits: 0x00..0xBF (R79). -/
def admitsOperand (mem : Byte) : Bool := decide (mem.toNat < memControlMin)

/-- Which `mem` values a store admits: 0x05..0xBF (R79). -/
def admitsStore (mem : Byte) : Bool := decide (memAddressMin ≤ mem.toNat ∧ mem.toNat < memControlMin)

/-- Which `mem` values ERDA and ERDB admit: 0x00 only (R79). -/
def admitsLatch (mem : Byte) : Bool := decide (mem = 0)

/-- The instruction the decoder reads from a word given as a number with `nbits` bits. A PRAM word is
one cell of 32 bits, so no byte order enters (R53). -/
def decodeTableWord (nbits w : Nat) : Option Instr :=
  match decode (BitVec.ofNat 32 (w % 2 ^ nbits)) with
  | .ok i => some i
  | .error _ => none

end Sys2Proof
end

