-- ==== Sys2Proof/Machine/Flags.lean ====
section
/-! DEFINITION. The condition state. The block has no flags (R23): what a cycle leaves for later
cycles to be conditioned on is the skipfield (R24, R116, R124), the carry latch (R27, R123) and the
previous category (R28, R125). -/

namespace Sys2Proof.Machine

open Sys2Proof.Config (Params)

/-- Operand A is suppressed in this cycle (R116). -/
def suppressed (k : CoreState) : Bool := k.skipfield != 0

/-- The skipfield shift (R124): a SKIP_N-bit register, `cond` entering at its top bit. -/
def shiftSkip (p : Params) (skipfield : Nat) (cond : Bool) : Nat :=
  (skipfield >>> 1) ||| (if cond then 1 <<< (p.skipN - 1) else 0)

/-- `prod[7:0]` (R123): the low byte of the two's-complement form of the unshifted product. -/
def carryByte (prod : Int) : Byte := BitVec.ofInt 8 prod

/-- CTRL.CARRY's operand B comes from the carry latch: the previous cycle was a MULC (R117, R148). -/
def carryPaired (k : CoreState) : Bool := decide (k.prevOp = .mulc)

end Sys2Proof.Machine
end

