-- ==== Sys2Proof/Machine/Operands.lean ====
section
/-! DEFINITION. Operand forms: the shift, the address, the sources of operand A (R77, R115) and of
operand B (R117), and the side effects (R121). -/

namespace Sys2Proof.Machine

open Sys2Proof.Config (Params)

/-- SHIFT_TABLE (R7, R66): selectors 0, 1, 2, 3 give 7, 6, 5, 3. -/
def shiftOf (ss : BitVec 2) : Nat :=
  match ss.toNat with
  | 0 => 7
  | 1 => 6
  | 2 => 5
  | _ => 3

/-- LIT2 (R7, R69). -/
def lit2 : Cell := 0x400

/-- The effective address `ea(m)` = (m + iramPos_c) and 0xFF (R49), in IRAM and GRAM alike (R50). -/
def ea (k : CoreState) (m : Byte) : Nat := (m + k.iramPos).toNat

/-- LIT[code] for the literal codes 1 to 4 (R69). -/
def literal (p : Params) (code : Byte) : Cell :=
  if code = 1 then p.lit1 else if code = 2 then lit2 else if code = 3 then p.lit3 else p.lit4

/-- Operand A from `mem` (R68, R70, R115), address codes in the space `space`. -/
def memOperand (p : Params) (space : Mem 24) (k : CoreState) (m : Byte) : Cell :=
  if memAddressMin ≤ m.toNat then Mem.read space (ea k m)
  else if memLiteralMin ≤ m.toNat ∧ m.toNat ≤ memLiteralMax then literal p m
  else 0

/-- The sources of operand A (R77). -/
inductive SourceA where
  /-- MEM_I: by `mem`, addresses in IRAM_c. -/
  | memI (m : Byte)
  /-- MEM_G: by `mem`, addresses in GRAM. -/
  | memG (m : Byte)
  /-- PIPE_SAT(x). -/
  | pipeSat (x : AccId)
  /-- PIPE_RAW(x). -/
  | pipeRaw (x : AccId)
  /-- RECT(A) (R151). -/
  | rect
  /-- The ERAM read latch (R137). -/
  | rdLatch
  deriving DecidableEq, Repr

/-- `min(abs(v), 0x7FFFFF)` of a 24-bit signed `v` (R115, R151, D32). -/
def rectify (v : Cell) : Cell := BitVec.ofInt 24 (min v.toInt.natAbs satMax)

/-- `srcA(d)` (R115), read from the state as steps 2 and 3 leave it. -/
def sourceA (p : Params) (s : State) : SourceA → Cell
  | .memI m => memOperand p s.me.iram s.me m
  | .memG m => memOperand p s.gram s.me m
  | .pipeSat x => readSat24 (s.me.acc x).pipe
  | .pipeRaw x => readRaw24 (s.me.acc x).pipe
  | .rect => rectify (readSat24 s.me.a.pipe)
  | .rdLatch => s.me.rdLatch

/-- Operand A after suppression (R116). -/
def operandA (p : Params) (s : State) (src : SourceA) : Cell :=
  if suppressed s.me then 0 else sourceA p s src

/-- The index of a coefficient-bank entry: `coef[2:0]` (R52, R67). -/
def bankIndex (coef : Byte) : Nat := (coef.extractLsb' 0 3).toNat

/-- The sources of operand B (R117). -/
inductive SourceB where
  | coef (c : Byte)
  /-- CTRL.INV: the one's complement of the coefficient. -/
  | notCoef (c : Byte)
  /-- CTRL.INTP. -/
  | interp
  /-- CTRL.INTPN. -/
  | notInterp
  /-- CTRL.CARRY: the carry latch after a MULC, else the coefficient. -/
  | carryOr (c : Byte)
  /-- CTRL.CW. -/
  | zero
  /-- CTRL.CR. -/
  | bank (c : Byte)
  deriving DecidableEq, Repr

/-- `srcB(d)` (R117), an 8-bit signed operand. -/
def operandB (s : State) : SourceB → Byte
  | .coef c => c
  | .notCoef c => ~~~c
  | .interp => s.me.interp
  | .notInterp => ~~~s.me.interp
  | .carryOr c => if carryPaired s.me then s.me.carry else c
  | .zero => 0
  | .bank c => Mem.read s.coefBank (bankIndex c)

/-- The side effects of step 4 (R121). -/
inductive Effect where
  | none
  /-- MULC: carry_c <- prod[7:0]. -/
  | carry
  /-- STIA, STIB: IRAM_c[ea(mem)] <- opA. -/
  | storeI (m : Byte)
  /-- STGA, STGB: GRAM[ea(mem)] <- opA. -/
  | storeG (m : Byte)
  /-- CTRL.SETI: interp_c <- opA[23:16]. -/
  | seti
  /-- CTRL.COND: cond <- SETCOND(opA). -/
  | cond
  /-- CTRL.HOST: host_c <- sext_32(opA). -/
  | host
  /-- CTRL.WL: wrLatch_c <- opA. -/
  | wl
  /-- CTRL.VO: varOfs_c <- opA[23:8]. -/
  | vo
  /-- CTRL.CW: coefBank[coef[2:0]] <- opA[23:16]. -/
  | cw (c : Byte)
  deriving DecidableEq, Repr

/-- The state after a side effect (R121); `cond` leaves the state to the skipfield shift (R124). -/
def applyEffect (eff : Effect) (opA : Cell) (prod : Int) (s : State) : State :=
  match eff with
  | .none => s
  | .carry => s.setMe { s.me with carry := carryByte prod }
  | .storeI m => s.setMe { s.me with iram := Mem.write s.me.iram (ea s.me m) opA }
  | .storeG m => s.setGram (Mem.write s.gram (ea s.me m) opA)
  | .seti => s.setMe { s.me with interp := opA.extractLsb' 16 8 }
  | .cond => s
  | .host => s.setMe { s.me with host := opA.signExtend 32 }
  | .wl => s.setMe { s.me with wrLatch := opA }
  | .vo => s.setMe { s.me with varOfs := opA.extractLsb' 8 16 }
  | .cw c => s.setCoefBank (Mem.write s.coefBank (bankIndex c) (opA.extractLsb' 16 8))

/-- The `cond` of step 4 (R111, R121): 1 only in a CTRL.COND whose predicate holds. -/
def condOf (p : Params) (eff : Effect) (opA : Cell) : Bool :=
  match eff with
  | .cond => p.setCond opA
  | .none | .carry | .storeI _ | .storeG _ | .seti | .host | .wl | .vo | .cw _ => false

end Sys2Proof.Machine
end

