-- ==== Sys2Proof/Machine/Cycle.lean ====
section
/-! DEFINITION. The core cycle (R111): the multiply-accumulate every category but NOP runs, and the
cycle around it. A meaning is one of these over its row of R75 or R76. -/

namespace Sys2Proof.Machine

open Sys2Proof.Config (Params)

/-- How a category writes its accumulator (R75, R92). -/
inductive Mode where
  | assign
  | accumulate
  deriving DecidableEq, Repr

/-- A row of R75 or R76: destination, mode, operand sources, shift selector, side effect. -/
structure Mac where
  dst : AccId
  mode : Mode
  srcA : SourceA
  srcB : SourceB
  ss : BitVec 2
  effect : Effect
  deriving DecidableEq, Repr

/-- `prod = opA · opB` (R118), exact. -/
def product (opA : Cell) (opB : Byte) : Int := opA.toInt * opB.toInt

/-- The accumulator write (R120). -/
def Acc.macWrite (x : Acc) (mode : Mode) (mul : Int) : Acc :=
  match mode with
  | .assign => x.assign mul
  | .accumulate => x.accumulate mul

/-- The product of the row `d` (R118), from operands as the state gives them. -/
def macProduct (p : Params) (d : Mac) (s : State) : Int :=
  product (operandA p s d.srcA) (operandB s d.srcB)

/-- `mul = asr(prod, d.shift)` (R119). -/
def macShifted (p : Params) (d : Mac) (s : State) : Int := asr (macProduct p d s) (shiftOf d.ss)

/-- The accumulator write of step 4 (R120). -/
def macAccumulators (p : Params) (d : Mac) (s : State) : CoreState :=
  s.me.setAcc d.dst ((s.me.acc d.dst).macWrite d.mode (macShifted p d s))

/-- Step 4 of the cycle (R111): the accumulator write, then the side effect, both from operands as the
state gives them before either (R122). -/
def datapath (p : Params) (d : Mac) (s : State) : State :=
  applyEffect d.effect (operandA p s d.srcA) (macProduct p d s) (s.setMe (macAccumulators p d s))

/-- The `cond` step 4 leaves (R111). -/
def datapathCond (p : Params) (d : Mac) (s : State) : Bool :=
  condOf p d.effect (operandA p s d.srcA)

/-- Steps 5 to 8 of the cycle (R111) on the core that runs it: skipfield shift (R124), prevOp (R125),
storePipeline of A and B (R87), pc (R126). -/
def CoreState.endCycle (p : Params) (cat : Category) (cond : Bool) (k : CoreState) : CoreState :=
  { k with
    skipfield := shiftSkip p k.skipfield cond
    prevOp := cat
    a := k.a.storePipeline
    b := k.b.storePipeline
    pc := nextPc k.pc }

/-- The end of a cycle; `stepCycle` returns Ok (R168). -/
def endCycle (p : Params) (cat : Category) (cond : Bool) (s : State) : State :=
  (s.setMe (s.me.endCycle p cat cond)).setReply .ok

/-- The cycle of a word of category `cat` that runs the row `d` (R111). -/
def macCycle (p : Params) (cat : Category) (e : BitVec 5) (d : Mac) (s : State) : State :=
  let s := eramStep p e s
  endCycle p cat (datapathCond p d s) (datapath p d s)

/-- The cycle of a NOP: step 4 is skipped (R114). -/
def nopCycle (p : Params) (e : BitVec 5) (s : State) : State :=
  endCycle p .nop false (eramStep p e s)

/-- Step 1 of the cycle (R113): an inadmissible word raises `Unsupported` with
reason `r` before any write; an admitted one runs its cycle. -/
def legalOr (admitted : Bool) (r : Reason) (cycle : State → State) (s : State) :
    Host.Outcome State Fault Refusal :=
  if admitted then .next (cycle s) else .next (raiseUnsupported r s)

end Sys2Proof.Machine
end

