-- ==== Sys2Proof/Machine/ControlFamily.lean ====
section
/-! DEFINITION. The control-register family (45_control_family.md): CTRL, sub-codes 0x0 to 0xF.
Every admitted sub-code accumulates into A (R143); `ctrlCycle` is that common form. The refused ones
raise `Unsupported` with reason SUBCODE, whatever the state. -/

namespace Sys2Proof.Machine

/-- The common form of an admitted CTRL word (R143): destination A, mode accumulate. -/
def ctrlCycle (e : BitVec 5) (ss : BitVec 2) (srcA : SourceA) (srcB : SourceB) (eff : Effect)
    (s : State) : Host.Outcome State Fault Refusal :=
  .next (macCycle Config.params .ctrl e
    { dst := .a, mode := .accumulate, srcA := srcA, srcB := srcB, ss := ss, effect := eff } s)

/-- CTRL.NOP, sub-code 0x0 (R144). -/
def execCtrlNop (e : BitVec 5) (ss : BitVec 2) (coef : Byte) (s : State) :
    Host.Outcome State Fault Refusal :=
  ctrlCycle e ss (.pipeSat .a) (.coef coef) .none s

/-- CTRL.INV, sub-code 0x1 (R145). -/
def execCtrlInv (e : BitVec 5) (ss : BitVec 2) (coef : Byte) (s : State) :
    Host.Outcome State Fault Refusal :=
  ctrlCycle e ss (.pipeSat .a) (.notCoef coef) .none s

/-- CTRL.INTP, sub-code 0x2 (R146); `coef` is ignored. -/
def execCtrlIntp (e : BitVec 5) (ss : BitVec 2) (_coef : Byte) (s : State) :
    Host.Outcome State Fault Refusal :=
  ctrlCycle e ss (.pipeSat .a) .interp .none s

/-- CTRL.INTPN, sub-code 0x3 (R147); `coef` is ignored. -/
def execCtrlIntpn (e : BitVec 5) (ss : BitVec 2) (_coef : Byte) (s : State) :
    Host.Outcome State Fault Refusal :=
  ctrlCycle e ss (.pipeSat .a) .notInterp .none s

/-- CTRL.CARRY, sub-code 0x4 (R148). -/
def execCtrlCarry (e : BitVec 5) (ss : BitVec 2) (coef : Byte) (s : State) :
    Host.Outcome State Fault Refusal :=
  ctrlCycle e ss (.pipeSat .a) (.carryOr coef) .none s

/-- CTRL.SETI, sub-code 0x5 (R149). -/
def execCtrlSeti (e : BitVec 5) (ss : BitVec 2) (coef : Byte) (s : State) :
    Host.Outcome State Fault Refusal :=
  ctrlCycle e ss (.pipeSat .a) (.coef coef) .seti s

/-- CTRL.COND, sub-code 0x6 (R150). -/
def execCtrlCond (e : BitVec 5) (ss : BitVec 2) (coef : Byte) (s : State) :
    Host.Outcome State Fault Refusal :=
  ctrlCycle e ss (.pipeSat .a) (.coef coef) .cond s

/-- CTRL.RECT, sub-code 0x7 (R151). -/
def execCtrlRect (e : BitVec 5) (ss : BitVec 2) (coef : Byte) (s : State) :
    Host.Outcome State Fault Refusal :=
  ctrlCycle e ss .rect (.coef coef) .none s

/-- CTRL.JMP, sub-code 0x8 (R152): raises Unsupported(SUBCODE); nothing is sampled or written. -/
def execCtrlJmp (_e : BitVec 5) (_ss : BitVec 2) (_coef : Byte) (s : State) :
    Host.Outcome State Fault Refusal :=
  .next (raiseUnsupported .subcode s)

/-- CTRL.JMPC, sub-code 0x9 (R153): raises Unsupported(SUBCODE); nothing is sampled or written. -/
def execCtrlJmpc (_e : BitVec 5) (_ss : BitVec 2) (_coef : Byte) (s : State) :
    Host.Outcome State Fault Refusal :=
  .next (raiseUnsupported .subcode s)

/-- CTRL.HOST, sub-code 0xA (R154). -/
def execCtrlHost (e : BitVec 5) (ss : BitVec 2) (coef : Byte) (s : State) :
    Host.Outcome State Fault Refusal :=
  ctrlCycle e ss (.pipeRaw .a) (.coef coef) .host s

/-- CTRL.WL, sub-code 0xB (R155). -/
def execCtrlWl (e : BitVec 5) (ss : BitVec 2) (coef : Byte) (s : State) :
    Host.Outcome State Fault Refusal :=
  ctrlCycle e ss (.pipeSat .a) (.coef coef) .wl s

/-- CTRL.VO, sub-code 0xC (R156). -/
def execCtrlVo (e : BitVec 5) (ss : BitVec 2) (coef : Byte) (s : State) :
    Host.Outcome State Fault Refusal :=
  ctrlCycle e ss (.pipeSat .a) (.coef coef) .vo s

/-- CTRL.CW, sub-code 0xD (R157). -/
def execCtrlCw (e : BitVec 5) (ss : BitVec 2) (coef : Byte) (s : State) :
    Host.Outcome State Fault Refusal :=
  ctrlCycle e ss (.pipeSat .a) .zero (.cw coef) s

/-- CTRL.CR, sub-code 0xE (R158). -/
def execCtrlCr (e : BitVec 5) (ss : BitVec 2) (coef : Byte) (s : State) :
    Host.Outcome State Fault Refusal :=
  ctrlCycle e ss (.pipeSat .a) (.bank coef) .none s

/-- CTRL.MIX, sub-code 0xF (R159): raises Unsupported(SUBCODE); nothing is sampled or written. -/
def execCtrlMix (_e : BitVec 5) (_ss : BitVec 2) (_coef : Byte) (s : State) :
    Host.Outcome State Fault Refusal :=
  .next (raiseUnsupported .subcode s)

end Sys2Proof.Machine
end

