-- ==== Sys2Proof/Machine/MacFamily.lean ====
section
/-! DEFINITION. The MAC family (43_mac_family.md): NOP, LDA, LDB, MULC, ACA, ACB, ACGA, ACGB, ERDA, ERDB. -/

namespace Sys2Proof.Machine

/-- NOP (R129): `mem`, `coef` and `shiftSel` are ignored, every value of them is legal. -/
def execNop (e : BitVec 5) (_ss : BitVec 2) (_mem _coef : Byte) (s : State) :
    Host.Outcome State Fault Refusal :=
  .next (nopCycle Config.params e s)

/-- LDA (R130). -/
def execLda (e : BitVec 5) (ss : BitVec 2) (mem coef : Byte) (s : State) :
    Host.Outcome State Fault Refusal :=
  legalOr (admitsOperand mem) .mem
    (macCycle Config.params .lda e
      { dst := .a, mode := .assign, srcA := .memI mem, srcB := .coef coef, ss := ss, effect := .none }) s

/-- LDB (R131). -/
def execLdb (e : BitVec 5) (ss : BitVec 2) (mem coef : Byte) (s : State) :
    Host.Outcome State Fault Refusal :=
  legalOr (admitsOperand mem) .mem
    (macCycle Config.params .ldb e
      { dst := .b, mode := .assign, srcA := .memI mem, srcB := .coef coef, ss := ss, effect := .none }) s

/-- MULC (R132). -/
def execMulc (e : BitVec 5) (ss : BitVec 2) (mem coef : Byte) (s : State) :
    Host.Outcome State Fault Refusal :=
  legalOr (admitsOperand mem) .mem
    (macCycle Config.params .mulc e
      { dst := .a, mode := .assign, srcA := .memI mem, srcB := .coef coef, ss := ss, effect := .carry }) s

/-- ACA (R133). -/
def execAca (e : BitVec 5) (ss : BitVec 2) (mem coef : Byte) (s : State) :
    Host.Outcome State Fault Refusal :=
  legalOr (admitsOperand mem) .mem
    (macCycle Config.params .aca e
      { dst := .a, mode := .accumulate, srcA := .memI mem, srcB := .coef coef, ss := ss
        effect := .none }) s

/-- ACB (R134). -/
def execAcb (e : BitVec 5) (ss : BitVec 2) (mem coef : Byte) (s : State) :
    Host.Outcome State Fault Refusal :=
  legalOr (admitsOperand mem) .mem
    (macCycle Config.params .acb e
      { dst := .b, mode := .accumulate, srcA := .memI mem, srcB := .coef coef, ss := ss
        effect := .none }) s

/-- ACGA (R135). -/
def execAcga (e : BitVec 5) (ss : BitVec 2) (mem coef : Byte) (s : State) :
    Host.Outcome State Fault Refusal :=
  legalOr (admitsOperand mem) .mem
    (macCycle Config.params .acga e
      { dst := .a, mode := .accumulate, srcA := .memG mem, srcB := .coef coef, ss := ss
        effect := .none }) s

/-- ACGB (R136). -/
def execAcgb (e : BitVec 5) (ss : BitVec 2) (mem coef : Byte) (s : State) :
    Host.Outcome State Fault Refusal :=
  legalOr (admitsOperand mem) .mem
    (macCycle Config.params .acgb e
      { dst := .b, mode := .accumulate, srcA := .memG mem, srcB := .coef coef, ss := ss
        effect := .none }) s

/-- ERDA (R137). -/
def execErda (e : BitVec 5) (ss : BitVec 2) (mem coef : Byte) (s : State) :
    Host.Outcome State Fault Refusal :=
  legalOr (admitsLatch mem) .mem
    (macCycle Config.params .erda e
      { dst := .a, mode := .accumulate, srcA := .rdLatch, srcB := .coef coef, ss := ss
        effect := .none }) s

/-- ERDB (R138). -/
def execErdb (e : BitVec 5) (ss : BitVec 2) (mem coef : Byte) (s : State) :
    Host.Outcome State Fault Refusal :=
  legalOr (admitsLatch mem) .mem
    (macCycle Config.params .erdb e
      { dst := .b, mode := .accumulate, srcA := .rdLatch, srcB := .coef coef, ss := ss
        effect := .none }) s

end Sys2Proof.Machine
end

