-- ==== Sys2Proof/Machine/StoreFamily.lean ====
section
/-! DEFINITION. The store family (44_store_family.md): STIA, STIB, STGA, STGB. -/

namespace Sys2Proof.Machine

/-- STIA (R139). -/
def execStia (e : BitVec 5) (ss : BitVec 2) (mem coef : Byte) (s : State) :
    Host.Outcome State Fault Refusal :=
  legalOr (admitsStore mem) .mem
    (macCycle Config.params .stia e
      { dst := .a, mode := .accumulate, srcA := .pipeSat .a, srcB := .coef coef, ss := ss
        effect := .storeI mem }) s

/-- STIB (R140). -/
def execStib (e : BitVec 5) (ss : BitVec 2) (mem coef : Byte) (s : State) :
    Host.Outcome State Fault Refusal :=
  legalOr (admitsStore mem) .mem
    (macCycle Config.params .stib e
      { dst := .b, mode := .accumulate, srcA := .pipeSat .b, srcB := .coef coef, ss := ss
        effect := .storeI mem }) s

/-- STGA (R141). -/
def execStga (e : BitVec 5) (ss : BitVec 2) (mem coef : Byte) (s : State) :
    Host.Outcome State Fault Refusal :=
  legalOr (admitsStore mem) .mem
    (macCycle Config.params .stga e
      { dst := .a, mode := .accumulate, srcA := .pipeSat .a, srcB := .coef coef, ss := ss
        effect := .storeG mem }) s

/-- STGB (R142). -/
def execStgb (e : BitVec 5) (ss : BitVec 2) (mem coef : Byte) (s : State) :
    Host.Outcome State Fault Refusal :=
  legalOr (admitsStore mem) .mem
    (macCycle Config.params .stgb e
      { dst := .b, mode := .accumulate, srcA := .pipeSat .b, srcB := .coef coef, ss := ss
        effect := .storeG mem }) s

end Sys2Proof.Machine
end

