-- ==== Sys2Proof/Machine/UnsupportedFamily.lean ====
section
/-! DEFINITION. The words whose `op` has no category (the opcode table's row unsupported_op). -/

namespace Sys2Proof.Machine

/-- A word with opf 12 or 16..31 raises Unsupported(OPCODE) (R75, R160, R161). -/
def execUnsupportedOp (_e _opf : BitVec 5) (_ss : BitVec 2) (_mem _coef : Byte) (s : State) :
    Host.Outcome State Fault Refusal :=
  .next (raiseUnsupported .opcode s)

end Sys2Proof.Machine
end

