-- ==== Sys2Proof/Machine/Dispatch.lean ====
section
/-! DEFINITION. The meaning of an instruction: one whole cycle of the core `active` (R111), from the
legality check on. -/

namespace Sys2Proof.Machine

def exec (i : Instr) (s : State) : Host.Outcome State Fault Refusal :=
  match i with
  | .nop e ss mem coef => Sys2Proof.Machine.execNop e ss mem coef s
  | .lda e ss mem coef => Sys2Proof.Machine.execLda e ss mem coef s
  | .ldb e ss mem coef => Sys2Proof.Machine.execLdb e ss mem coef s
  | .mulc e ss mem coef => Sys2Proof.Machine.execMulc e ss mem coef s
  | .aca e ss mem coef => Sys2Proof.Machine.execAca e ss mem coef s
  | .acb e ss mem coef => Sys2Proof.Machine.execAcb e ss mem coef s
  | .acga e ss mem coef => Sys2Proof.Machine.execAcga e ss mem coef s
  | .acgb e ss mem coef => Sys2Proof.Machine.execAcgb e ss mem coef s
  | .stia e ss mem coef => Sys2Proof.Machine.execStia e ss mem coef s
  | .stib e ss mem coef => Sys2Proof.Machine.execStib e ss mem coef s
  | .stga e ss mem coef => Sys2Proof.Machine.execStga e ss mem coef s
  | .stgb e ss mem coef => Sys2Proof.Machine.execStgb e ss mem coef s
  | .erda e ss mem coef => Sys2Proof.Machine.execErda e ss mem coef s
  | .erdb e ss mem coef => Sys2Proof.Machine.execErdb e ss mem coef s
  | .ctrlNop e ss coef => Sys2Proof.Machine.execCtrlNop e ss coef s
  | .ctrlInv e ss coef => Sys2Proof.Machine.execCtrlInv e ss coef s
  | .ctrlIntp e ss coef => Sys2Proof.Machine.execCtrlIntp e ss coef s
  | .ctrlIntpn e ss coef => Sys2Proof.Machine.execCtrlIntpn e ss coef s
  | .ctrlCarry e ss coef => Sys2Proof.Machine.execCtrlCarry e ss coef s
  | .ctrlSeti e ss coef => Sys2Proof.Machine.execCtrlSeti e ss coef s
  | .ctrlCond e ss coef => Sys2Proof.Machine.execCtrlCond e ss coef s
  | .ctrlRect e ss coef => Sys2Proof.Machine.execCtrlRect e ss coef s
  | .ctrlJmp e ss coef => Sys2Proof.Machine.execCtrlJmp e ss coef s
  | .ctrlJmpc e ss coef => Sys2Proof.Machine.execCtrlJmpc e ss coef s
  | .ctrlHost e ss coef => Sys2Proof.Machine.execCtrlHost e ss coef s
  | .ctrlWl e ss coef => Sys2Proof.Machine.execCtrlWl e ss coef s
  | .ctrlVo e ss coef => Sys2Proof.Machine.execCtrlVo e ss coef s
  | .ctrlCw e ss coef => Sys2Proof.Machine.execCtrlCw e ss coef s
  | .ctrlCr e ss coef => Sys2Proof.Machine.execCtrlCr e ss coef s
  | .ctrlMix e ss coef => Sys2Proof.Machine.execCtrlMix e ss coef s
  | .unsupportedOp e opf ss mem coef => Sys2Proof.Machine.execUnsupportedOp e opf ss mem coef s

end Sys2Proof.Machine
end

