-- ==== Sys2Proof/Machine/HostPort.lean ====
section
/-! DEFINITION. The host's calls other than `stepCycle` (R168), and which call comes next: the first of
`calls`, else the reference host's (R176). -/

namespace Sys2Proof.Machine

open Sys2Proof.Config (Params)

/-- `stepSample()` (R174). -/
def stepSample (p : Params) (s : State) : State :=
  { s with
    core0 := { s.core0 with iramPos := s.core0.iramPos - 1 }
    core1 := { s.core1 with iramPos := s.core1.iramPos - 1 }
    eramPos := (s.eramPos + (p.eramWords - 1)) % p.eramWords
    reply := .nothing }

/-- A word with its lane `lane`, bits [8L+7:8L], replaced (R57). -/
def setLane (w : Word) (lane : Fin 4) (b : Byte) : Word :=
  (w &&& ~~~(0xFF#32 <<< (8 * lane.val))) ||| (b.setWidth 32 <<< (8 * lane.val))

/-- `PRAM_c[i] <- f(PRAM_c[i])`. -/
def updateProgram (c : CoreId) (i : Pc) (f : Word → Word) (s : State) : State :=
  s.setCore c { s.core c with pram := Mem.write (s.core c).pram i.val (f (Mem.read (s.core c).pram i.val)) }

/-- `writeProgramByte(c, i, L, b)` (R57). -/
def writeProgramByte (c : CoreId) (i : Pc) (lane : Fin 4) (b : Byte) (s : State) : State :=
  (updateProgram c i (fun w => setLane w lane b) s).setReply .nothing

/-- `writeCoefficientOnly(c, i, v)` (R58): the word's `coef` field, lane 0 (D36). -/
def writeCoefficientOnly (c : CoreId) (i : Pc) (v : Byte) (s : State) : State :=
  (updateProgram c i (fun w => setLane w 0 v) s).setReply .nothing

/-- `readHostRegister(c)` (R168): returns host_c, writes nothing of the block. -/
def readHostRegister (c : CoreId) (s : State) : State :=
  s.setReply (.hostRegister (s.core c).host)

/-- The call the reference host makes at its place `t` (R176). -/
def turnCall : Turn → HostCall
  | .cycle _ c => .stepCycle c
  | .sample => .stepSample

/-- The reference host's place after that call (R176): stepCycle(0), stepCycle(1) for k in 0..767,
then stepSample, and again. -/
def nextTurn : Turn → Turn
  | .cycle k .core0 => .cycle k .core1
  | .cycle k .core1 => if k.val + 1 = progWords then .sample else .cycle (k + 1) .core0
  | .sample => .cycle 0 .core0

/-- The call the next step takes. -/
def nextCall (s : State) : HostCall :=
  match s.calls with
  | [] => turnCall s.turn
  | call :: _ => call

/-- The state once that call is issued. -/
def issueCall (s : State) : State :=
  match s.calls with
  | [] => { s with turn := nextTurn s.turn }
  | _ :: rest => { s with calls := rest }

end Sys2Proof.Machine
end

