-- ==== Sys2Proof/Machine/Calls.lean ====
section
/-! DEFINITION. What each host call does to the block (R168); a cycle is one of them (R111). The layout
and the operation map are an argument (R8) of the one call that reads words, and of a step. -/

namespace Sys2Proof.Machine

open Sys2Proof.Config (Encoding)

/-- `stepCycle(c)` (R111): fetch, decode, and the instruction's meaning; a word the decoder rejects
raises its reason (R160). -/
def stepCycle (enc : Encoding) (c : CoreId) (s : State) : Host.Outcome State Fault Refusal :=
  match decodeWith enc (fetch (s.core c)) with
  | .ok i => exec i { s with active := c }
  | .error r => .next (raiseUnsupported r { s with active := c })

/-- One host call taken by the block (R168). -/
def takeCall (enc : Encoding) (call : HostCall) (s : State) : Host.Outcome State Fault Refusal :=
  match call with
  | .stepCycle c => stepCycle enc c s
  | .stepSample => .next (stepSample Config.params s)
  | .writeProgramByte c i lane b => .next (writeProgramByte c i lane b s)
  | .writeCoefficientOnly c i v => .next (writeCoefficientOnly c i v s)
  | .readHostRegister c => .next (readHostRegister c s)

/-- One step of the block whose words are read by `enc`: the next host call, as one atomic transition
(R8, R59, R168). -/
def stepIn (enc : Encoding) (s : State) : Host.Outcome State Fault Refusal :=
  takeCall enc (nextCall s) (issueCall s)

/-- `s` with the word `w` in PRAM at pc of the core `c`. -/
def placeAtPc (c : CoreId) (w : Word) (s : State) : State :=
  updateProgram c (s.core c).pc (fun _ => w) s

end Sys2Proof.Machine
end

