-- ==== Sys2Proof/Machine/Step.lean ====
section
/-! DEFINITION. One step: the next host call, as one atomic transition (R59, R168). -/

namespace Sys2Proof.Machine

/-- One step of the machine, whose words are read by the reference encoding (logs 1, 2). -/
def step (s : State) : Host.Outcome State Fault Refusal := stepIn referenceEncoding s

/-- `s` with the word `w` placed where the next step fetches: at pc of the core whose cycle comes next.
Where the next call is no cycle, a `stepCycle` of core 0 is queued before it (log 19). -/
def State.withFetchWord (s : State) (nbits w : Nat) : State :=
  match nextCall s with
  | .stepCycle c => placeAtPc c (BitVec.ofNat 32 (w % 2 ^ nbits)) s
  | .stepSample | .writeProgramByte .. | .writeCoefficientOnly .. | .readHostRegister _ =>
    { placeAtPc .core0 (BitVec.ofNat 32 (w % 2 ^ nbits)) s with calls := .stepCycle .core0 :: s.calls }

end Sys2Proof.Machine
end

