-- ==== Sys2Proof/Safety.lean ====
section
/-! DEFINITION. What a safe run is, in the terms claims use: which instructions may execute (R79), that
no fault is recorded (R190), and the invariants of the state that the rules keep. -/

namespace Sys2Proof

/-- The `mem` admission of every category (R79): `d.legal` of R65. -/
def Instr.legal : Instr → Bool
  | .nop .. => true
  | .lda _ _ mem _ | .ldb _ _ mem _ | .mulc _ _ mem _ | .aca _ _ mem _ | .acb _ _ mem _
  | .acga _ _ mem _ | .acgb _ _ mem _ => admitsOperand mem
  | .stia _ _ mem _ | .stib _ _ mem _ | .stga _ _ mem _ | .stgb _ _ mem _ => admitsStore mem
  | .erda _ _ mem _ | .erdb _ _ mem _ => admitsLatch mem
  | .ctrlNop .. | .ctrlInv .. | .ctrlIntp .. | .ctrlIntpn .. | .ctrlCarry .. | .ctrlSeti ..
  | .ctrlCond .. | .ctrlRect .. | .ctrlHost .. | .ctrlWl .. | .ctrlVo .. | .ctrlCw ..
  | .ctrlCr .. => true
  | .ctrlJmp .. | .ctrlJmpc .. | .ctrlMix .. | .unsupportedOp .. => false

/-- The `eramCtrl` field of an instruction (R72). -/
def Instr.eramCtrl : Instr → BitVec 5
  | .nop e _ _ _ | .lda e _ _ _ | .ldb e _ _ _ | .mulc e _ _ _ | .aca e _ _ _ | .acb e _ _ _
  | .acga e _ _ _ | .acgb e _ _ _ | .stia e _ _ _ | .stib e _ _ _ | .stga e _ _ _
  | .stgb e _ _ _ | .erda e _ _ _ | .erdb e _ _ _ => e
  | .ctrlNop e _ _ | .ctrlInv e _ _ | .ctrlIntp e _ _ | .ctrlIntpn e _ _ | .ctrlCarry e _ _
  | .ctrlSeti e _ _ | .ctrlCond e _ _ | .ctrlRect e _ _ | .ctrlJmp e _ _ | .ctrlJmpc e _ _
  | .ctrlHost e _ _ | .ctrlWl e _ _ | .ctrlVo e _ _ | .ctrlCw e _ _ | .ctrlCr e _ _
  | .ctrlMix e _ _ => e
  | .unsupportedOp e _ _ _ _ => e

end Sys2Proof

namespace Sys2Proof.Machine

open Sys2Proof.Config (Params)

/-- No fault has been recorded: the premise R190 gives every claim about a run. -/
def State.noFault (s : State) : Prop := s.faults = []

/-- The value of a container lies in [-2^29, 2^29 - 1]: it is sign-extended from 30 bits (R19). -/
abbrev fits30 (r : Word) : Prop := -2 ^ (accBits - 1) ≤ r.toInt ∧ r.toInt < 2 ^ (accBits - 1)

/-- `rawFull` and every history entry hold 30-bit values (R19, R20). -/
abbrev Acc.fits (x : Acc) : Prop :=
  fits30 x.rawFull ∧ fits30 x.hist[0] ∧ fits30 x.hist[1] ∧ fits30 x.hist[2]

/-- How many cycles the accumulating transaction of `k` has run, by its pc: 0 in its start cycle. -/
def windowAge (k : CoreState) : Nat := (k.pc.val + progWords - k.nxt.pcStart.val) % progWords

/-- How many cycles of `k` are left before the cycle in which its committing transaction commits. -/
def commitIn (k : CoreState) : Nat := (k.cur.pcCommit.val + progWords - k.pc.val) % progWords

/-- The timing of the ERAM controller between cycles (R93, R99): an accumulating transaction has run as
many window cycles as the pc has moved since its START; a committing one commits within 4 cycles of the
next; and where both are held, the first commits no later than the second is promoted. -/
structure CoreState.EramTimed (k : CoreState) : Prop where
  window : k.nxt.active = true → 1 ≤ k.nxt.w.val ∧ windowAge k = k.nxt.w.val
  commit : k.cur.active = true → commitIn k ≤ 4
  both : k.nxt.active = true → k.cur.active = true → commitIn k + k.nxt.w.val ≤ 5

/-- What the rules keep true of one core's state. -/
structure CoreState.Inv (p : Params) (k : CoreState) : Prop where
  pramWf : k.pram.wf = true
  pramBelow : k.pram.below progWords = true
  iramWf : k.iram.wf = true
  iramBelow : k.iram.below iramWords = true
  aFits : k.a.fits
  bFits : k.b.fits
  /-- R20: `A.head = B.head` always. -/
  heads : k.a.head = k.b.head
  /-- R24: SKIP_N bits. -/
  skip : k.skipfield < 2 ^ p.skipN
  timed : k.EramTimed

/-- What the rules keep true of the whole state. -/
structure State.Inv (p : Params) (s : State) : Prop where
  core0 : s.core0.Inv p
  core1 : s.core1.Inv p
  gramWf : s.gram.wf = true
  gramBelow : s.gram.below gramWords = true
  bankWf : s.coefBank.wf = true
  bankBelow : s.coefBank.below coefBankEntries = true
  eramWf : s.eram.wf = true
  eramBelow : s.eram.below p.eramWords = true
  /-- R39: log2(ERAM_WORDS) bits. -/
  eramPos : s.eramPos < p.eramWords
  /-- R50: both cores' positions are equal. -/
  positions : s.core0.iramPos = s.core1.iramPos

end Sys2Proof.Machine
end

