-- ==== Sys2Proof/Certificates/Slice0/Obligations.lean ====
section
/-! DEFINITION. The statements about the block, each from the numbered rules of spec/.
The values are said again here in integers, from the spec's own formulas and not from the model's
definitions, so that a statement can disagree with the model. -/

namespace Sys2Proof.Claims

open Sys2Proof.Machine

/-! ### The spec's formulas, in integers -/

/-- SHIFT_TABLE (R66). -/
def shiftAmount (ss : BitVec 2) : Nat := if ss = 0 then 7 else if ss = 1 then 6 else if ss = 2 then 5 else 3

/-- `mul = asr(opA · opB, shift)`, floor division (R118, R119). -/
def mulShift (opA opB : Int) (ss : BitVec 2) : Int := opA * opB / 2 ^ shiftAmount ss

/-- The value of `wrap_30(v)` (R10). -/
def wrapped (v : Int) : Int := v.bmod (2 ^ 30)

/-- Saturation to 24 bits (R85). -/
def sat24 (v : Int) : Int := max (-0x800000) (min v 0x7FFFFF)

/-- The signed value of the low 24 bits (R86). -/
def raw24 (v : Int) : Int := v.bmod (2 ^ 24)

/-- Operand A after suppression (R116). -/
def unsuppressed (s : State) (v : Int) : Int := if s.me.skipfield = 0 then v else 0

/-- The value of operand A that `mem` names, addresses in `space` (R68, R69, R115). -/
def memValue (space : Mem 24) (k : CoreState) (m : Byte) : Int :=
  if m = 0 then 0
  else if m = 1 then Config.params.lit1.toInt
  else if m = 2 then 0x400
  else if m = 3 then Config.params.lit3.toInt
  else if m = 4 then Config.params.lit4.toInt
  else (Mem.read space ((m.toNat + k.iramPos.toNat) % 256)).toInt

/-- `pipe(x)` as a signed number (R88). -/
def delayed (x : Acc) : Int := (x.hist[x.head]).toInt

/-- The 24-bit two's-complement form of a value (R121). -/
def bits24 (v : Int) : Cell := BitVec.ofInt 24 v

/-- The core that runs commits its transaction in this cycle (R100). -/
abbrev Commits (s : State) : Prop := s.me.cur.active = true ∧ s.me.pc = s.me.cur.pcCommit

/-- The address of that commit (R100, R103). -/
def commitAddress (s : State) : Nat :=
  if s.me.cur.var then
    ((if 0x4000 ≤ s.eramPos then 0x4000 else 0)
      + (s.eramPos + s.me.cur.off.toNat + s.me.varOfs.toNat) % 0x4000) % Config.params.eramWords
  else (s.eramPos + s.me.cur.off.toNat) % Config.params.eramWords

/-- The read latch as the datapath of this cycle sees it (R94, R101). -/
def latchValue (s : State) : Int :=
  if Commits s ∧ s.me.cur.write = false then (Mem.read s.eram (commitAddress s)).toInt
  else s.me.rdLatch.toInt

/-- `Nxt` is promoted in the next cycle of the core (R98). -/
abbrev WindowFull (s : State) : Prop := s.me.nxt.active = true ∧ s.me.nxt.w = 5

/-- What a completed cycle of category `cat` leaves besides its own effect (R125, R126, R168). -/
def Completed (cat : Category) (s t : State) : Prop :=
  t.active = s.active ∧ t.reply = .ok ∧ t.faults = s.faults
    ∧ t.me.pc.val = (s.me.pc.val + 1) % 768 ∧ t.me.prevOp = cat

/-- The state after `raise Unsupported`: the record of the word at pc appended and returned, nothing
else written (R160). -/
def raised (r : Reason) (s : State) : State :=
  let word := Mem.read s.me.pram s.me.pc.val
  { s with
    faults := s.faults ++ [⟨s.active, s.me.pc, word, r⟩]
    reply := .fault ⟨s.active, s.me.pc, word, r⟩ }

/-- A word from its fields, reserved bits 0 (R64). -/
def word (e opf : BitVec 5) (ss : BitVec 2) (mem coef : Byte) : Word :=
  e ++ 0#4 ++ opf ++ ss ++ mem ++ coef

/-- A CTRL word: `mem` = 0xC0 + sub (R143). -/
def ctrlWord (sub : BitVec 4) (e : BitVec 5) (ss : BitVec 2) (coef : Byte) : Word :=
  e ++ 0#4 ++ 13#5 ++ ss ++ 0xC#4 ++ sub ++ coef

/-- The reason a word's execution raises, from its bits in the order of R161; `none` for a legal word. -/
def wordReason (w : Word) : Option Reason :=
  let rsvd := w.toNat / 2 ^ 23 % 2 ^ 4
  let opf := w.toNat / 2 ^ 18 % 2 ^ 5
  let mem := w.toNat / 2 ^ 8 % 2 ^ 8
  if rsvd ≠ 0 then some .reservedBits
  else if opf = 12 ∨ 16 ≤ opf then some .opcode
  else if opf = 13 ∧ (mem = 0xC8 ∨ mem = 0xC9 ∨ mem = 0xCF) then some .subcode
  else if (1 ≤ opf ∧ opf ≤ 7 ∧ 0xC0 ≤ mem) ∨ (8 ≤ opf ∧ opf ≤ 11 ∧ (mem < 0x05 ∨ 0xC0 ≤ mem))
      ∨ (opf = 13 ∧ (mem < 0xC0 ∨ 0xD0 ≤ mem)) ∨ (14 ≤ opf ∧ opf ≤ 15 ∧ mem ≠ 0) then some .mem
  else none

/-- The instructions whose category writes A (R21, R92). -/
def writesA : Instr → Bool
  | .lda .. | .mulc .. | .aca .. | .acga .. | .erda .. | .stia .. | .stga .. => true
  | .ctrlNop .. | .ctrlInv .. | .ctrlIntp .. | .ctrlIntpn .. | .ctrlCarry .. | .ctrlSeti ..
  | .ctrlCond .. | .ctrlRect .. | .ctrlHost .. | .ctrlWl .. | .ctrlVo .. | .ctrlCw ..
  | .ctrlCr .. => true
  | .nop .. | .ldb .. | .acb .. | .acgb .. | .erdb .. | .stib .. | .stgb .. => false
  | .ctrlJmp .. | .ctrlJmpc .. | .ctrlMix .. | .unsupportedOp .. => false

/-- The instructions whose category writes B (R21, R92). -/
def writesB : Instr → Bool
  | .ldb .. | .acb .. | .acgb .. | .erdb .. | .stib .. | .stgb .. => true
  | .nop .. | .lda .. | .mulc .. | .aca .. | .acga .. | .erda .. | .stia .. | .stga .. => false
  | .ctrlNop .. | .ctrlInv .. | .ctrlIntp .. | .ctrlIntpn .. | .ctrlCarry .. | .ctrlSeti ..
  | .ctrlCond .. | .ctrlRect .. | .ctrlHost .. | .ctrlWl .. | .ctrlVo .. | .ctrlCw ..
  | .ctrlCr .. => false
  | .ctrlJmp .. | .ctrlJmpc .. | .ctrlMix .. | .unsupportedOp .. => false

/-- A CTRL.COND (R150). -/
def isCond : Instr → Bool
  | .ctrlCond .. => true
  | _ => false

/-- Consecutive cycles of the core `active`: the instructions executed one after the other. -/
def runCycles : List Instr → State → Option State
  | [], s => some s
  | i :: rest, s =>
    match exec i s with
    | .next t => runCycles rest t
    | .fault _ => none
    | .refused _ => none

/-- Consecutive steps: `n` host calls taken one after the other. -/
def runSteps : Nat → State → Option State
  | 0, s => some s
  | n + 1, s =>
    match step s with
    | .next t => runSteps n t
    | .fault _ => none
    | .refused _ => none

/-- The call writes the word PRAM_c[i] (R57, R58). -/
def writesWord (c : CoreId) (i : Pc) : HostCall → Bool
  | .writeProgramByte c' i' _ _ => decide (c' = c ∧ i' = i)
  | .writeCoefficientOnly c' i' _ => decide (c' = c ∧ i' = i)
  | .stepCycle _ | .stepSample | .readHostRegister _ => false

/-- The low four bits of an instruction's eramCtrl field: the address nibble (R96). -/
def nibble (i : Instr) : BitVec 4 := i.eramCtrl.extractLsb' 0 4

/-- No side effect of R121: every memory and register a side effect writes is as before. -/
def NoSideEffect (s t : State) : Prop :=
  t.me.iram = s.me.iram ∧ t.gram = s.gram ∧ t.coefBank = s.coefBank ∧ t.me.interp = s.me.interp
    ∧ t.me.carry = s.me.carry ∧ t.me.host = s.me.host ∧ t.me.wrLatch = s.me.wrLatch
    ∧ t.me.varOfs = s.me.varOfs

/-- The result of a category that assigns (R83): the shifted product, which never needs the wrap. -/
def Assigns (t : State) (x : AccId) (opA opB : Int) (ss : BitVec 2) : Prop :=
  (t.me.acc x).rawFull.toInt = mulShift opA opB ss

/-- The result of a category that accumulates (R84): the sum, wrapped at 30 bits. -/
def Accumulates (s t : State) (x : AccId) (opA opB : Int) (ss : BitVec 2) : Prop :=
  (t.me.acc x).rawFull.toInt = wrapped ((s.me.acc x).rawFull.toInt + mulShift opA opB ss)

/-- The delayed, saturated, unsuppressed accumulator that stores and CTRL words read (R89, R116). -/
def pipeSat (s : State) (x : AccId) : Int := unsuppressed s (sat24 (delayed (s.me.acc x)))

end Sys2Proof.Claims

open Sys2Proof Sys2Proof.Machine Sys2Proof.Claims

/-! ### Encoding -/

/-- Decoding the word of any well-formed instruction gives it back, every operand at every value. -/
def Obligations.DecodeOfEncodeIsIdentity : Prop :=
  ∀ i : Instr, i.wellFormed = true → decode (encode i) = .ok i

/-- Every word the decoder accepts is the word of a well-formed instruction: no bit is dropped. -/
def Obligations.EncodeOfDecodeIsIdentity : Prop :=
  ∀ (w : Word) (i : Instr), decode w = .ok i → encode i = w ∧ i.wellFormed = true

/-- Where each field stands in each instruction's word (R64, R71, R75, R76). -/
def Obligations.WordLayoutOfEveryInstruction : Prop :=
  ∀ (e opf : BitVec 5) (ss : BitVec 2) (mem coef : Byte),
    encode (.nop e ss mem coef) = word e 0 ss mem coef
    ∧ encode (.lda e ss mem coef) = word e 1 ss mem coef
    ∧ encode (.ldb e ss mem coef) = word e 2 ss mem coef
    ∧ encode (.mulc e ss mem coef) = word e 3 ss mem coef
    ∧ encode (.aca e ss mem coef) = word e 4 ss mem coef
    ∧ encode (.acb e ss mem coef) = word e 5 ss mem coef
    ∧ encode (.acga e ss mem coef) = word e 6 ss mem coef
    ∧ encode (.acgb e ss mem coef) = word e 7 ss mem coef
    ∧ encode (.stia e ss mem coef) = word e 8 ss mem coef
    ∧ encode (.stib e ss mem coef) = word e 9 ss mem coef
    ∧ encode (.stga e ss mem coef) = word e 10 ss mem coef
    ∧ encode (.stgb e ss mem coef) = word e 11 ss mem coef
    ∧ encode (.erda e ss mem coef) = word e 14 ss mem coef
    ∧ encode (.erdb e ss mem coef) = word e 15 ss mem coef
    ∧ encode (.ctrlNop e ss coef) = ctrlWord 0x0 e ss coef
    ∧ encode (.ctrlInv e ss coef) = ctrlWord 0x1 e ss coef
    ∧ encode (.ctrlIntp e ss coef) = ctrlWord 0x2 e ss coef
    ∧ encode (.ctrlIntpn e ss coef) = ctrlWord 0x3 e ss coef
    ∧ encode (.ctrlCarry e ss coef) = ctrlWord 0x4 e ss coef
    ∧ encode (.ctrlSeti e ss coef) = ctrlWord 0x5 e ss coef
    ∧ encode (.ctrlCond e ss coef) = ctrlWord 0x6 e ss coef
    ∧ encode (.ctrlRect e ss coef) = ctrlWord 0x7 e ss coef
    ∧ encode (.ctrlJmp e ss coef) = ctrlWord 0x8 e ss coef
    ∧ encode (.ctrlJmpc e ss coef) = ctrlWord 0x9 e ss coef
    ∧ encode (.ctrlHost e ss coef) = ctrlWord 0xA e ss coef
    ∧ encode (.ctrlWl e ss coef) = ctrlWord 0xB e ss coef
    ∧ encode (.ctrlVo e ss coef) = ctrlWord 0xC e ss coef
    ∧ encode (.ctrlCw e ss coef) = ctrlWord 0xD e ss coef
    ∧ encode (.ctrlCr e ss coef) = ctrlWord 0xE e ss coef
    ∧ encode (.ctrlMix e ss coef) = ctrlWord 0xF e ss coef
    ∧ encode (.unsupportedOp e opf ss mem coef) = word e opf ss mem coef

/-- Ten words of the spec's decoder table (95_test_vectors.md 2.1) and what they decode to, and slot 20 of
program P2 (section 3 there). That the word the table calls CTRL with mem 0xD0, and the one with a
reserved bit, are errors of the decoder, each by its reason, while the refused sub-code 0xC8 decodes, is
the model's choice (assumption 14). -/
def Obligations.SpecTableWordsDecode : Prop :=
  decode 0xF800FFFF#32 = .ok (.nop 31 0 0xFF 0xFF)
  ∧ decode 0x0011027F#32 = .ok (.aca 0 1 0x02 0x7F)
  ∧ decode 0x8804027F#32 = .ok (.lda 17 0 0x02 0x7F)
  ∧ decode 0x00200500#32 = .ok (.stia 0 0 0x05 0x00)
  ∧ decode 0x00380000#32 = .ok (.erda 0 0 0x00 0x00)
  ∧ decode 0x0034CA00#32 = .ok (.ctrlHost 0 0 0x00)
  ∧ decode 0x0034C800#32 = .ok (.ctrlJmp 0 0 0x00)
  ∧ decode 0x00400000#32 = .ok (.unsupportedOp 0 16 0 0x00 0x00)
  ∧ decode 0x00C00000#32 = .error .reservedBits
  ∧ decode 0x0034D000#32 = .error .mem
  ∧ decode 0x003D0040#32 = .ok (.erdb 0 1 0x00 0x40)

/-- R74 (the spec's decision D4): the all-zero word is the NOP with eramCtrl 0, and every word with opf 0
and reserved bits 0 is a NOP that carries the word's eramCtrl. -/
def Obligations.ZeroOpfWordsAreNops : Prop :=
  decode 0#32 = .ok (.nop 0 0 0 0)
  ∧ ∀ w : Word, w.toNat / 2 ^ 18 % 2 ^ 9 = 0 →
      ∃ ss mem coef, decode w = .ok (.nop (BitVec.ofNat 5 (w.toNat / 2 ^ 27)) ss mem coef)

/-! ### Steps and the fault -/

/-- When the next host call is a cycle of core `c` and the word at its pc decodes to `i`, the step is
`exec i`, with the call issued and `c` named as the core that runs; a word the decoder rejects raises the
decoder's reason (R111, R112, R113). The queue of calls, the field `active` and `exec` as a whole cycle
are the model's choice (assumptions 10, 26), and so is which words the decoder rejects (assumption 14). -/
def Obligations.StepRunsDecodedInstruction : Prop :=
  ∀ (s : State) (c : CoreId), nextCall s = .stepCycle c →
    (∀ i, decode (Mem.read (s.core c).pram (s.core c).pc.val) = .ok i →
      step s = exec i { issueCall s with active := c })
    ∧ (∀ r, decode (Mem.read (s.core c).pram (s.core c).pc.val) = .error r →
      step s = .next (raised r { issueCall s with active := c }))

/-- The block never halts (R190): whatever the state, a step gives a next state. -/
def Obligations.StepAlwaysAnswersNext : Prop := ∀ s : State, ∃ t, step s = .next t

/-- A cycle raises exactly the reason R161 gives the fetched word, and writes nothing but the record;
a legal word's cycle returns Ok and records nothing (R113, R160, R161). -/
def Obligations.IllegalWordsFaultByPriority : Prop :=
  ∀ (s : State) (c : CoreId), nextCall s = .stepCycle c →
    match wordReason (Mem.read (s.core c).pram (s.core c).pc.val) with
    | some r =>
      step s = .next (raised r { issueCall s with active := c })
    | none => ∃ t, step s = .next t ∧ t.reply = .ok ∧ t.faults = s.faults

/-- R162: the faulting word faults again, with the same record, in every later cycle of its core, after
any number of host calls of any kind that do not write that word, faulting cycles of the same core among
them. -/
def Obligations.FaultRepeatsWithSameRecord : Prop :=
  ∀ (s t u x : State) (c : CoreId) (r : FaultRecord) (n : Nat),
    nextCall s = .stepCycle c → step s = .next t → t.reply = .fault r →
    (∀ k < n, ∀ v, runSteps k t = some v → writesWord c (s.core c).pc (nextCall v) = false) →
    runSteps n t = some u → nextCall u = .stepCycle c → step u = .next x →
      x.reply = .fault r ∧ (x.core c).pc = (s.core c).pc ∧ x.faults = u.faults ++ [r]

/-- CTRL.JMP, CTRL.JMPC, CTRL.MIX and the words without a category always raise, in every state, and
write nothing but the record (R152, R153, R159, R160, R161; which `opf` values have no category is R75).
The spec marks R75 and R161 as its decisions D5, D6 and D45. That `exec` raises also for an
`unsupportedOp` whose `opf` has a category, which is no decoded instruction, is the model's choice
(assumption 24). -/
def Obligations.RefusedCodesAlwaysRaise : Prop :=
  ∀ (e opf : BitVec 5) (ss : BitVec 2) (mem coef : Byte) (s : State),
    decode (ctrlWord 0x8 e ss coef) = .ok (.ctrlJmp e ss coef)
    ∧ exec (.ctrlJmp e ss coef) s = .next (raised .subcode s)
    ∧ decode (ctrlWord 0x9 e ss coef) = .ok (.ctrlJmpc e ss coef)
    ∧ exec (.ctrlJmpc e ss coef) s = .next (raised .subcode s)
    ∧ decode (ctrlWord 0xF e ss coef) = .ok (.ctrlMix e ss coef)
    ∧ exec (.ctrlMix e ss coef) s = .next (raised .subcode s)
    ∧ (opf.toNat = 12 ∨ 16 ≤ opf.toNat →
        decode (word e opf ss mem coef) = .ok (.unsupportedOp e opf ss mem coef))
    ∧ exec (.unsupportedOp e opf ss mem coef) s = .next (raised .opcode s)

/-! ### Results -/

/-- LDA and LDB (R130, R131): the encoding, the result, the exception. -/
def Obligations.LoadsAssignShiftedProduct : Prop :=
  ∀ (e : BitVec 5) (ss : BitVec 2) (mem coef : Byte) (s : State),
    decode (word e 1 ss mem coef) = .ok (.lda e ss mem coef)
    ∧ (mem.toNat < 0xC0 → ∃ t, exec (.lda e ss mem coef) s = .next t ∧ Completed .lda s t ∧ NoSideEffect s t
        ∧ Assigns t .a (unsuppressed s (memValue s.me.iram s.me mem)) coef.toInt ss)
    ∧ (0xC0 ≤ mem.toNat → exec (.lda e ss mem coef) s = .next (raised .mem s))
    ∧ decode (word e 2 ss mem coef) = .ok (.ldb e ss mem coef)
    ∧ (mem.toNat < 0xC0 → ∃ t, exec (.ldb e ss mem coef) s = .next t ∧ Completed .ldb s t ∧ NoSideEffect s t
        ∧ Assigns t .b (unsuppressed s (memValue s.me.iram s.me mem)) coef.toInt ss)
    ∧ (0xC0 ≤ mem.toNat → exec (.ldb e ss mem coef) s = .next (raised .mem s))

/-- MULC (R132): assigns A and latches the low byte of the unshifted product. -/
def Obligations.MulcAssignsAndLatchesCarry : Prop :=
  ∀ (e : BitVec 5) (ss : BitVec 2) (mem coef : Byte) (s : State),
    decode (word e 3 ss mem coef) = .ok (.mulc e ss mem coef)
    ∧ (mem.toNat < 0xC0 → ∃ t, exec (.mulc e ss mem coef) s = .next t ∧ Completed .mulc s t
        ∧ Assigns t .a (unsuppressed s (memValue s.me.iram s.me mem)) coef.toInt ss
        ∧ (t.me.carry.toNat : Int)
            = (unsuppressed s (memValue s.me.iram s.me mem) * coef.toInt) % 256)
    ∧ (0xC0 ≤ mem.toNat → exec (.mulc e ss mem coef) s = .next (raised .mem s))

/-- ACA and ACB (R133, R134). -/
def Obligations.IramAccumulates : Prop :=
  ∀ (e : BitVec 5) (ss : BitVec 2) (mem coef : Byte) (s : State),
    decode (word e 4 ss mem coef) = .ok (.aca e ss mem coef)
    ∧ (mem.toNat < 0xC0 → ∃ t, exec (.aca e ss mem coef) s = .next t ∧ Completed .aca s t ∧ NoSideEffect s t
        ∧ Accumulates s t .a (unsuppressed s (memValue s.me.iram s.me mem)) coef.toInt ss)
    ∧ (0xC0 ≤ mem.toNat → exec (.aca e ss mem coef) s = .next (raised .mem s))
    ∧ decode (word e 5 ss mem coef) = .ok (.acb e ss mem coef)
    ∧ (mem.toNat < 0xC0 → ∃ t, exec (.acb e ss mem coef) s = .next t ∧ Completed .acb s t ∧ NoSideEffect s t
        ∧ Accumulates s t .b (unsuppressed s (memValue s.me.iram s.me mem)) coef.toInt ss)
    ∧ (0xC0 ≤ mem.toNat → exec (.acb e ss mem coef) s = .next (raised .mem s))

/-- ACGA and ACGB (R135, R136): the same, address codes in GRAM. -/
def Obligations.GramAccumulates : Prop :=
  ∀ (e : BitVec 5) (ss : BitVec 2) (mem coef : Byte) (s : State),
    decode (word e 6 ss mem coef) = .ok (.acga e ss mem coef)
    ∧ (mem.toNat < 0xC0 → ∃ t, exec (.acga e ss mem coef) s = .next t ∧ Completed .acga s t ∧ NoSideEffect s t
        ∧ Accumulates s t .a (unsuppressed s (memValue s.gram s.me mem)) coef.toInt ss)
    ∧ (0xC0 ≤ mem.toNat → exec (.acga e ss mem coef) s = .next (raised .mem s))
    ∧ decode (word e 7 ss mem coef) = .ok (.acgb e ss mem coef)
    ∧ (mem.toNat < 0xC0 → ∃ t, exec (.acgb e ss mem coef) s = .next t ∧ Completed .acgb s t ∧ NoSideEffect s t
        ∧ Accumulates s t .b (unsuppressed s (memValue s.gram s.me mem)) coef.toInt ss)
    ∧ (0xC0 ≤ mem.toNat → exec (.acgb e ss mem coef) s = .next (raised .mem s))

/-- ERDA and ERDB (R137, R138): the read latch, as a read commit of the same cycle leaves it (R94). -/
def Obligations.ReadLatchAccumulates : Prop :=
  ∀ (e : BitVec 5) (ss : BitVec 2) (mem coef : Byte) (s : State),
    decode (word e 14 ss mem coef) = .ok (.erda e ss mem coef)
    ∧ (mem = 0 → ∃ t, exec (.erda e ss mem coef) s = .next t ∧ Completed .erda s t ∧ NoSideEffect s t
        ∧ Accumulates s t .a (unsuppressed s (latchValue s)) coef.toInt ss)
    ∧ (mem ≠ 0 → exec (.erda e ss mem coef) s = .next (raised .mem s))
    ∧ decode (word e 15 ss mem coef) = .ok (.erdb e ss mem coef)
    ∧ (mem = 0 → ∃ t, exec (.erdb e ss mem coef) s = .next t ∧ Completed .erdb s t ∧ NoSideEffect s t
        ∧ Accumulates s t .b (unsuppressed s (latchValue s)) coef.toInt ss)
    ∧ (mem ≠ 0 → exec (.erdb e ss mem coef) s = .next (raised .mem s))

/-- STIA and STIB (R139, R140): the delayed, saturated accumulator into IRAM, and accumulated. -/
def Obligations.IramStoresDelayedAccumulator : Prop :=
  ∀ (e : BitVec 5) (ss : BitVec 2) (mem coef : Byte) (s : State),
    decode (word e 8 ss mem coef) = .ok (.stia e ss mem coef)
    ∧ (0x05 ≤ mem.toNat ∧ mem.toNat < 0xC0 → ∃ t, exec (.stia e ss mem coef) s = .next t ∧ Completed .stia s t
        ∧ Mem.read t.me.iram ((mem.toNat + s.me.iramPos.toNat) % 256) = bits24 (pipeSat s .a)
        ∧ Accumulates s t .a (pipeSat s .a) coef.toInt ss)
    ∧ (mem.toNat < 0x05 ∨ 0xC0 ≤ mem.toNat →
        exec (.stia e ss mem coef) s = .next (raised .mem s))
    ∧ decode (word e 9 ss mem coef) = .ok (.stib e ss mem coef)
    ∧ (0x05 ≤ mem.toNat ∧ mem.toNat < 0xC0 → ∃ t, exec (.stib e ss mem coef) s = .next t ∧ Completed .stib s t
        ∧ Mem.read t.me.iram ((mem.toNat + s.me.iramPos.toNat) % 256) = bits24 (pipeSat s .b)
        ∧ Accumulates s t .b (pipeSat s .b) coef.toInt ss)
    ∧ (mem.toNat < 0x05 ∨ 0xC0 ≤ mem.toNat →
        exec (.stib e ss mem coef) s = .next (raised .mem s))

/-- STGA and STGB (R141, R142): the same into GRAM, at the running core's own position (R50). -/
def Obligations.GramStoresDelayedAccumulator : Prop :=
  ∀ (e : BitVec 5) (ss : BitVec 2) (mem coef : Byte) (s : State),
    decode (word e 10 ss mem coef) = .ok (.stga e ss mem coef)
    ∧ (0x05 ≤ mem.toNat ∧ mem.toNat < 0xC0 → ∃ t, exec (.stga e ss mem coef) s = .next t ∧ Completed .stga s t
        ∧ Mem.read t.gram ((mem.toNat + s.me.iramPos.toNat) % 256) = bits24 (pipeSat s .a)
        ∧ Accumulates s t .a (pipeSat s .a) coef.toInt ss)
    ∧ (mem.toNat < 0x05 ∨ 0xC0 ≤ mem.toNat →
        exec (.stga e ss mem coef) s = .next (raised .mem s))
    ∧ decode (word e 11 ss mem coef) = .ok (.stgb e ss mem coef)
    ∧ (0x05 ≤ mem.toNat ∧ mem.toNat < 0xC0 → ∃ t, exec (.stgb e ss mem coef) s = .next t ∧ Completed .stgb s t
        ∧ Mem.read t.gram ((mem.toNat + s.me.iramPos.toNat) % 256) = bits24 (pipeSat s .b)
        ∧ Accumulates s t .b (pipeSat s .b) coef.toInt ss)
    ∧ (mem.toNat < 0x05 ∨ 0xC0 ≤ mem.toNat →
        exec (.stgb e ss mem coef) s = .next (raised .mem s))

/-- CTRL.NOP, CTRL.INV, CTRL.INTP, CTRL.INTPN (R144 to R147): the delayed A by the coefficient, its
one's complement, the interpolation register, and its one's complement. -/
def Obligations.CtrlMacsDelayedA : Prop :=
  ∀ (e : BitVec 5) (ss : BitVec 2) (coef : Byte) (s : State),
    (decode (ctrlWord 0x0 e ss coef) = .ok (.ctrlNop e ss coef)
      ∧ ∃ t, exec (.ctrlNop e ss coef) s = .next t ∧ Completed .ctrl s t ∧ NoSideEffect s t
        ∧ Accumulates s t .a (pipeSat s .a) coef.toInt ss)
    ∧ (decode (ctrlWord 0x1 e ss coef) = .ok (.ctrlInv e ss coef)
      ∧ ∃ t, exec (.ctrlInv e ss coef) s = .next t ∧ Completed .ctrl s t ∧ NoSideEffect s t
        ∧ Accumulates s t .a (pipeSat s .a) (-1 - coef.toInt) ss)
    ∧ (decode (ctrlWord 0x2 e ss coef) = .ok (.ctrlIntp e ss coef)
      ∧ ∃ t, exec (.ctrlIntp e ss coef) s = .next t ∧ Completed .ctrl s t ∧ NoSideEffect s t
        ∧ Accumulates s t .a (pipeSat s .a) s.me.interp.toInt ss)
    ∧ (decode (ctrlWord 0x3 e ss coef) = .ok (.ctrlIntpn e ss coef)
      ∧ ∃ t, exec (.ctrlIntpn e ss coef) s = .next t ∧ Completed .ctrl s t ∧ NoSideEffect s t
        ∧ Accumulates s t .a (pipeSat s .a) (-1 - s.me.interp.toInt) ss)

/-- CTRL.CARRY (R148): the carry latch right after a MULC, the coefficient otherwise. -/
def Obligations.CtrlCarryUsesLatchAfterMulc : Prop :=
  ∀ (e : BitVec 5) (ss : BitVec 2) (coef : Byte) (s : State),
    (decode (ctrlWord 0x4 e ss coef) = .ok (.ctrlCarry e ss coef)
      ∧ ∃ t, exec (.ctrlCarry e ss coef) s = .next t ∧ Completed .ctrl s t ∧ NoSideEffect s t
        ∧ Accumulates s t .a (pipeSat s .a)
            (if s.me.prevOp = .mulc then s.me.carry.toInt else coef.toInt) ss)

/-- CTRL.SETI, CTRL.WL, CTRL.VO (R149, R155, R156): the register gets its bits of operand A. -/
def Obligations.CtrlWritesAuxRegisters : Prop :=
  ∀ (e : BitVec 5) (ss : BitVec 2) (coef : Byte) (s : State),
    (decode (ctrlWord 0x5 e ss coef) = .ok (.ctrlSeti e ss coef)
      ∧ ∃ t, exec (.ctrlSeti e ss coef) s = .next t ∧ Completed .ctrl s t
        ∧ Accumulates s t .a (pipeSat s .a) coef.toInt ss
        ∧ t.me.interp.toInt = pipeSat s .a / 2 ^ 16)
    ∧ (decode (ctrlWord 0xB e ss coef) = .ok (.ctrlWl e ss coef)
      ∧ ∃ t, exec (.ctrlWl e ss coef) s = .next t ∧ Completed .ctrl s t
        ∧ Accumulates s t .a (pipeSat s .a) coef.toInt ss
        ∧ t.me.wrLatch.toInt = pipeSat s .a)
    ∧ (decode (ctrlWord 0xC e ss coef) = .ok (.ctrlVo e ss coef)
      ∧ ∃ t, exec (.ctrlVo e ss coef) s = .next t ∧ Completed .ctrl s t
        ∧ Accumulates s t .a (pipeSat s .a) coef.toInt ss
        ∧ t.me.varOfs.toInt = pipeSat s .a / 2 ^ 8)

/-- CTRL.HOST (R154, D29: the spec's own decision that this sub-code reads the raw view): the raw
delayed A, sign-extended, into the host register and the MAC. -/
def Obligations.CtrlHostWritesRawDelayedA : Prop :=
  ∀ (e : BitVec 5) (ss : BitVec 2) (coef : Byte) (s : State),
    (decode (ctrlWord 0xA e ss coef) = .ok (.ctrlHost e ss coef)
      ∧ ∃ t, exec (.ctrlHost e ss coef) s = .next t ∧ Completed .ctrl s t
        ∧ Accumulates s t .a (unsuppressed s (raw24 (delayed s.me.a))) coef.toInt ss
        ∧ t.me.host.toInt = unsuppressed s (raw24 (delayed s.me.a)))

/-- CTRL.COND (R150, R124; D24, D25): the predicate's bit enters at the top of the SKIP_N-bit skipfield. -/
def Obligations.CtrlCondShiftsConditionIn : Prop :=
  ∀ (e : BitVec 5) (ss : BitVec 2) (coef : Byte) (s : State),
    (decode (ctrlWord 0x6 e ss coef) = .ok (.ctrlCond e ss coef)
      ∧ (s.me.skipfield < 2 ^ Config.params.skipN → ∃ t, exec (.ctrlCond e ss coef) s = .next t
        ∧ Completed .ctrl s t ∧ NoSideEffect s t
        ∧ Accumulates s t .a (pipeSat s .a) coef.toInt ss
        ∧ t.me.skipfield = s.me.skipfield / 2
            + (if Config.params.setCond (bits24 (pipeSat s .a)) then 2 ^ (Config.params.skipN - 1) else 0)))

/-- CTRL.RECT (R151): the absolute value of the saturated delayed A, at most 0x7FFFFF. -/
def Obligations.CtrlRectMacsAbsoluteValue : Prop :=
  ∀ (e : BitVec 5) (ss : BitVec 2) (coef : Byte) (s : State),
    (decode (ctrlWord 0x7 e ss coef) = .ok (.ctrlRect e ss coef)
      ∧ ∃ t, exec (.ctrlRect e ss coef) s = .next t ∧ Completed .ctrl s t ∧ NoSideEffect s t
        ∧ Accumulates s t .a (unsuppressed s (min (|sat24 (delayed s.me.a)|) 0x7FFFFF)) coef.toInt ss)

/-- CTRL.CW and CTRL.CR (R157, R158): the bank entry coef[2:0] is written, A as if 0 were accumulated
(so unchanged where it holds a 30-bit value, R19), and is operand B. -/
def Obligations.CtrlBankWriteAndRead : Prop :=
  ∀ (e : BitVec 5) (ss : BitVec 2) (coef : Byte) (s : State),
    (decode (ctrlWord 0xD e ss coef) = .ok (.ctrlCw e ss coef)
      ∧ ∃ t, exec (.ctrlCw e ss coef) s = .next t ∧ Completed .ctrl s t
        ∧ Accumulates s t .a (pipeSat s .a) 0 ss
        ∧ (fits30 s.me.a.rawFull → t.me.a.rawFull = s.me.a.rawFull)
        ∧ (Mem.read t.coefBank (coef.toNat % 8)).toInt = pipeSat s .a / 2 ^ 16)
    ∧ (decode (ctrlWord 0xE e ss coef) = .ok (.ctrlCr e ss coef)
      ∧ ∃ t, exec (.ctrlCr e ss coef) s = .next t ∧ Completed .ctrl s t ∧ NoSideEffect s t
        ∧ Accumulates s t .a (pipeSat s .a) (Mem.read s.coefBank (coef.toNat % 8)).toInt ss)

/-- NOP (R129, R128): whatever its `mem`, `coef` and `shiftSel`, it leaves rawFull of A and B and every
memory and register of the datapath; the pipelines store, the skipfield shifts, and the ERAM control bits
act: a START where none is in progress (R95, D15), a nibble in a window cycle (R96, D16). -/
def Obligations.NopChangesOnlyBookkeeping : Prop :=
  ∀ (e : BitVec 5) (ss : BitVec 2) (mem coef : Byte) (s : State),
    decode (word e 0 ss mem coef) = .ok (.nop e ss mem coef)
    ∧ ∃ t, exec (.nop e ss mem coef) s = .next t ∧ Completed .nop s t ∧ NoSideEffect s t
      ∧ t.me.skipfield = s.me.skipfield / 2
      ∧ (∀ x : AccId, (t.me.acc x).rawFull = (s.me.acc x).rawFull
        ∧ (t.me.acc x).hist[(s.me.acc x).head] = (s.me.acc x).rawFull
        ∧ (t.me.acc x).head.val = ((s.me.acc x).head.val + 1) % 3)
      ∧ (s.me.nxt.active = false → e[4] = true →
          t.me.nxt = { active := true, write := e[0], var := e[1], pcStart := s.me.pc, acc := 0, w := 1 })
      ∧ (s.me.nxt.active = true → 1 ≤ s.me.nxt.w.val → s.me.nxt.w.val ≤ 4 →
          t.me.nxt.acc.toNat = (s.me.nxt.acc.toNat * 16 + e.toNat % 16) % 65536)

/-! ### Frames -/

/-- R92, R21: an accumulator's rawFull changes only in a category that writes it. -/
def Obligations.AccumulatorFrame : Prop :=
  ∀ (i : Instr) (s t : State), exec i s = .next t →
    (writesA i = false → t.me.a.rawFull = s.me.a.rawFull)
    ∧ (writesB i = false → t.me.b.rawFull = s.me.b.rawFull)

/-- R121: IRAM changes only in STIA and STIB, GRAM only in STGA and STGB, the coefficient bank only in
CTRL.CW, and in the one cell addressed. -/
def Obligations.DataMemoryFrame : Prop :=
  ∀ (i : Instr) (s t : State), exec i s = .next t →
    (match i with
      | .stia _ _ mem _ | .stib _ _ mem _ =>
        ∀ a, a ≠ ea s.me mem → Mem.read t.me.iram a = Mem.read s.me.iram a
      | _ => ∀ a, Mem.read t.me.iram a = Mem.read s.me.iram a)
    ∧ (match i with
      | .stga _ _ mem _ | .stgb _ _ mem _ =>
        ∀ a, a ≠ ea s.me mem → Mem.read t.gram a = Mem.read s.gram a
      | _ => ∀ a, Mem.read t.gram a = Mem.read s.gram a)
    ∧ (match i with
      | .ctrlCw _ _ coef =>
        ∀ a, a ≠ bankIndex coef → Mem.read t.coefBank a = Mem.read s.coefBank a
      | _ => ∀ a, Mem.read t.coefBank a = Mem.read s.coefBank a)

/-- R26, R27, R29, R32: the one instruction that writes each auxiliary register. -/
def Obligations.AuxRegisterFrame : Prop :=
  ∀ (i : Instr) (s t : State), exec i s = .next t →
    (match i with | .ctrlSeti .. => True | _ => t.me.interp = s.me.interp)
    ∧ (match i with | .mulc .. => True | _ => t.me.carry = s.me.carry)
    ∧ (match i with | .ctrlHost .. => True | _ => t.me.host = s.me.host)
    ∧ (match i with | .ctrlWl .. => True | _ => t.me.wrLatch = s.me.wrLatch)
    ∧ (match i with | .ctrlVo .. => True | _ => t.me.varOfs = s.me.varOfs)

/-- R101, R102, R110: ERAM and the read latch change only by a commit that is due, ERAM only in the cell
committed to, and the committing transaction only by a commit or a promotion; a word that faults changes
nothing of the controller. -/
def Obligations.EramFrame : Prop :=
  ∀ (i : Instr) (s t : State), exec i s = .next t →
    (i.legal = false →
      t.eram = s.eram ∧ t.me.rdLatch = s.me.rdLatch ∧ t.me.nxt = s.me.nxt ∧ t.me.cur = s.me.cur
        ∧ t.me.eramOverlap = s.me.eramOverlap)
    ∧ (¬ Commits s → t.eram = s.eram ∧ t.me.rdLatch = s.me.rdLatch
        ∧ (¬ WindowFull s → t.me.cur = s.me.cur))
    ∧ (s.me.cur.write = false → ∀ a, Mem.read t.eram a = Mem.read s.eram a)
    ∧ (s.me.cur.write = true → t.me.rdLatch = s.me.rdLatch
        ∧ ∀ a, a ≠ commitAddr Config.params s.eramPos s.me → Mem.read t.eram a = Mem.read s.eram a)

/-- R47, R25, R39, R127: what no instruction writes: its program, the positions, the other core; and of
the model's own fields the host's calls to come. -/
def Obligations.NoInstructionWritesThese : Prop :=
  ∀ (i : Instr) (s t : State), exec i s = .next t →
    t.active = s.active ∧ t.me.pram = s.me.pram ∧ t.me.iramPos = s.me.iramPos ∧ t.eramPos = s.eramPos
      ∧ t.core s.active.other = s.core s.active.other ∧ t.calls = s.calls ∧ t.turn = s.turn

/-- R127: a cycle reads only its own core's state and the shared state. -/
def Obligations.CycleReadsOwnCoreAndShared : Prop :=
  ∀ (i : Instr) (s s' t t' : State), s.active = s'.active → s.me = s'.me → s.gram = s'.gram →
    s.coefBank = s'.coefBank → s.eram = s'.eram → s.eramPos = s'.eramPos →
    exec i s = .next t → exec i s' = .next t' →
      t.me = t'.me ∧ t.gram = t'.gram ∧ t.coefBank = t'.coefBank ∧ t.eram = t'.eram
        ∧ t.eramPos = t'.eramPos ∧ t.reply = t'.reply

/-! ### The cycle around the datapath -/

/-- R126, R22: pc advances by one, modulo 768, in every cycle that does not fault, and in no other. -/
def Obligations.PcAdvancesUnlessFault : Prop :=
  ∀ (i : Instr) (s t : State), exec i s = .next t →
    (i.legal = true → t.me.pc.val = (s.me.pc.val + 1) % 768)
    ∧ (i.legal = false → t.me.pc = s.me.pc)

/-- R124: every completed cycle shifts the skipfield right by one; the bit that enters at the top is the
predicate of a CTRL.COND and 0 otherwise. A faulting cycle leaves it. -/
def Obligations.SkipfieldShiftsEveryCycle : Prop :=
  ∀ (i : Instr) (s t : State), exec i s = .next t →
    (i.legal = true → t.me.skipfield = (s.me.skipfield >>> 1)
      ||| ((if isCond i = true ∧ Config.params.setCond (bits24 (pipeSat s .a)) = true then 1 else 0)
        <<< (Config.params.skipN - 1)))
    ∧ (i.legal = false → t.me.skipfield = s.me.skipfield)

/-- R87: every completed cycle, whatever it writes, stores both accumulators' new rawFull at the old head
and advances the head; a faulting one does neither. -/
def Obligations.EveryCycleStoresBothPipelines : Prop :=
  ∀ (i : Instr) (s t : State), exec i s = .next t →
    (i.legal = true → ∀ x : AccId,
      (t.me.acc x).head.val = ((s.me.acc x).head.val + 1) % 3
      ∧ (t.me.acc x).hist[(s.me.acc x).head] = (t.me.acc x).rawFull
      ∧ ∀ j : Fin 3, j ≠ (s.me.acc x).head → (t.me.acc x).hist[j] = (s.me.acc x).hist[j])
    ∧ (i.legal = false → t.me.a = s.me.a ∧ t.me.b = s.me.b)

/-- R83, R84 (the spec's decision D10): both writes set rawFull to a value wrapped at 30 bits, and touch nothing else. -/
def Obligations.AssignAndAccumulateWrap : Prop :=
  ∀ (x : Acc) (v : Int),
    (x.assign v).rawFull.toInt = wrapped v ∧ (x.assign v).hist = x.hist ∧ (x.assign v).head = x.head
    ∧ (x.accumulate v).rawFull.toInt = wrapped (x.rawFull.toInt + v)
    ∧ (x.accumulate v).hist = x.hist ∧ (x.accumulate v).head = x.head

/-- R85, R86: the saturated and the raw 24-bit view of a history entry. -/
def Obligations.SaturatedAndRawReads : Prop :=
  ∀ r : Word, (readSat24 r).toInt = sat24 r.toInt ∧ (readRaw24 r).toInt = raw24 r.toInt

/-- R88, R91, R178: after three completed cycles of a core, NOP or not, the pipelined read of either
accumulator is its rawFull at the end of the first. -/
def Obligations.PipelinedReadIsThreeCyclesOld : Prop :=
  ∀ (i j l : Instr) (s t u v : State), i.legal = true → j.legal = true → l.legal = true →
    exec i s = .next t → exec j t = .next u → exec l u = .next v →
      ∀ x : AccId, (v.me.acc x).pipe = (t.me.acc x).rawFull

/-- R124, R184: a condition that holds suppresses exactly the next SKIP_N cycles, one that does not hold
suppresses none, if no further CTRL.COND comes and the CTRL.COND found at most one suppression left. -/
def Obligations.ConditionSuppressesSkipNCycles : Prop :=
  ∀ (e : BitVec 5) (ss : BitVec 2) (coef : Byte) (is : List Instr) (s t u : State),
    s.me.skipfield < 2 → exec (.ctrlCond e ss coef) s = .next t →
    (∀ i ∈ is, i.legal = true ∧ isCond i = false) → runCycles is t = some u →
      (suppressed u.me = true ↔
        Config.params.setCond (bits24 (pipeSat s .a)) = true ∧ is.length < Config.params.skipN)

/-! ### The ERAM controller -/

/-- R95: a START sampled while `Nxt` is free, also in the promotion cycle, begins a transaction; no START
leaves `Nxt` inactive. -/
def Obligations.EramStartSampledWhenFree : Prop :=
  ∀ (i : Instr) (s t : State), i.legal = true → s.me.nxt.active = false ∨ WindowFull s →
    exec i s = .next t →
      (i.eramCtrl[4] = true →
        t.me.nxt = { active := true, write := i.eramCtrl[0], var := i.eramCtrl[1]
                     pcStart := s.me.pc, acc := 0, w := 1 })
      ∧ (i.eramCtrl[4] = false → t.me.nxt = { s.me.nxt with active := false })

/-- R96: a window cycle takes the nibble, whatever bit 4 says. -/
def Obligations.EramWindowTakesNibble : Prop :=
  ∀ (i : Instr) (s t : State), i.legal = true → s.me.nxt.active = true → 1 ≤ s.me.nxt.w.val →
    s.me.nxt.w.val ≤ 4 → exec i s = .next t →
      t.me.nxt.acc.toNat = (s.me.nxt.acc.toNat * 16 + i.eramCtrl.toNat % 16) % 65536
      ∧ t.me.nxt.w.val = s.me.nxt.w.val + 1
      ∧ t.me.nxt.active = true ∧ t.me.nxt.write = s.me.nxt.write ∧ t.me.nxt.var = s.me.nxt.var
      ∧ t.me.nxt.pcStart = s.me.nxt.pcStart

/-- R98: promotion, which overwrites whatever `Cur` held (R99). -/
def Obligations.EramPromotionFillsCur : Prop :=
  ∀ (i : Instr) (s t : State), i.legal = true → WindowFull s → exec i s = .next t →
    t.me.cur.active = true ∧ t.me.cur.write = s.me.nxt.write ∧ t.me.cur.var = s.me.nxt.var
      ∧ t.me.cur.off = s.me.nxt.acc
      ∧ t.me.cur.pcCommit.val = (s.me.nxt.pcStart.val + 10) % 768

/-- R97, R99, R33: the diagnostic is set by a START accepted, or a promotion made, while `Cur` is active
after this cycle's commit, and is never cleared. -/
def Obligations.EramOverlapSetExactlyOnOverlap : Prop :=
  ∀ (i : Instr) (s t : State), i.legal = true → exec i s = .next t →
    (t.me.eramOverlap = true ↔
      s.me.eramOverlap = true
      ∨ (WindowFull s ∧ i.eramCtrl[4] = true)
      ∨ (WindowFull s ∧ s.me.cur.active = true ∧ ¬ Commits s)
      ∨ (s.me.nxt.active = false ∧ i.eramCtrl[4] = true ∧ s.me.cur.active = true ∧ ¬ Commits s))

/-- R100, R101: a due read commit loads the latch with the cell as stored, and retires `Cur` unless the
same cycle promotes. -/
def Obligations.EramReadCommitLoadsLatch : Prop :=
  ∀ (i : Instr) (s t : State), i.legal = true → Commits s → s.me.cur.write = false →
    exec i s = .next t →
      t.me.rdLatch = Mem.read s.eram (commitAddress s)
      ∧ (¬ WindowFull s → t.me.cur = { s.me.cur with active := false })

/-- R100, R102: a due write commit stores the crunched latch as it stands before this cycle's datapath,
whatever the word at pc is. -/
def Obligations.EramWriteCommitStoresCrunch : Prop :=
  ∀ (i : Instr) (s t : State), i.legal = true → Commits s → s.me.cur.write = true →
    exec i s = .next t →
      Mem.read t.eram (commitAddress s) = crunch Config.params s.me.wrLatch
      ∧ (¬ WindowFull s → t.me.cur = { s.me.cur with active := false })

/-- R93, R179: a START at pc P is in `Cur` after ten completed cycles, with the four nibbles as its
offset, first most significant, and its commit is due at exactly pc P + 10. -/
def Obligations.EramCommitDueTenCyclesAfterStart : Prop :=
  ∀ (i0 i1 i2 i3 i4 i5 i6 i7 i8 i9 : Instr) (s t : State),
    (∀ i ∈ [i0, i1, i2, i3, i4, i5, i6, i7, i8, i9], i.legal = true) →
    s.me.nxt.active = false ∨ WindowFull s → i0.eramCtrl[4] = true →
    runCycles [i0, i1, i2, i3, i4, i5, i6, i7, i8, i9] s = some t →
      Commits t ∧ t.me.pc.val = (s.me.pc.val + 10) % 768
      ∧ t.me.cur.write = i0.eramCtrl[0] ∧ t.me.cur.var = i0.eramCtrl[1]
      ∧ t.me.cur.off = nibble i1 ++ nibble i2 ++ nibble i3 ++ nibble i4

/-- R99: in every state the controller's timing allows, a promotion that finds `Cur` active comes in the
cycle in which `Cur` commits, so it overwrites no pending transaction; and the diagnostic is newly set
only by a START that is accepted. -/
def Obligations.PromotionNeverOverwritesPending : Prop :=
  ∀ (i : Instr) (s t : State), s.me.EramTimed → exec i s = .next t →
    (WindowFull s → s.me.cur.active = true → Commits s)
    ∧ (s.me.eramOverlap = false → t.me.eramOverlap = true →
        i.eramCtrl[4] = true ∧ (s.me.nxt.active = false ∨ WindowFull s))

/-- R100, R103, R54: the plain address, and the VAR address, which stays in the half of ERAM that holds
eramPos; both inside ERAM. -/
def Obligations.EramAddressesInRange : Prop :=
  ∀ (p : Config.Params) (pos : Nat) (varOfs off : BitVec 16), pos < p.eramWords →
    plainAddr p pos off = (pos + off.toNat) % p.eramWords
    ∧ plainAddr p pos off < p.eramWords
    ∧ varAddr p pos varOfs off < p.eramWords
    ∧ (pos < 0x4000 → varAddr p pos varOfs off = (pos + off.toNat + varOfs.toNat) % 0x4000)
    ∧ (0x4000 ≤ pos →
        varAddr p pos varOfs off = 0x4000 + (pos + off.toNat + varOfs.toNat) % 0x4000)

/-- R105: crunch floors to a multiple of 2^CRUNCH_T[k], k the number of bits from 22 down that equal the
sign before the first that differs, at most 4. -/
def Obligations.CrunchFloorsToClassWidth : Prop :=
  ∀ (p : Config.Params) (v : Cell), ∃ k : Fin 5,
    (∀ j : Nat, j < k.val → v.getLsbD (22 - j) = v.getLsbD 23)
    ∧ (k.val < 4 → v.getLsbD (22 - k.val) ≠ v.getLsbD 23)
    ∧ (crunch p v).toInt = v.toInt / 2 ^ (p.crunchT k).val * 2 ^ (p.crunchT k).val

/-- R107. -/
def Obligations.CrunchIsIdempotent : Prop :=
  ∀ (p : Config.Params) (v : Cell), crunch p (crunch p v) = crunch p v

/-- R108: a read commit at the address of an earlier write commit, the cell not written in between, gives
the crunch of the value written. -/
def Obligations.EramReadbackIsCrunched : Prop :=
  ∀ (i j : Instr) (s t u v : State), i.legal = true → j.legal = true →
    Commits s → s.me.cur.write = true → exec i s = .next t →
    Commits u → u.me.cur.write = false → commitAddress u = commitAddress s →
    Mem.read u.eram (commitAddress s) = Mem.read t.eram (commitAddress s) → exec j u = .next v →
      v.me.rdLatch = crunch Config.params s.me.wrLatch

/-! ### The host's calls -/

/-- R174: the sample strobe moves the three positions down by one, circularly, and nothing else. -/
def Obligations.SampleMovesPositionsOnly : Prop :=
  ∀ s : State, nextCall s = .stepSample → s.eramPos < Config.params.eramWords →
    ∃ t, step s = .next t
      ∧ t.core0.iramPos.toNat = (s.core0.iramPos.toNat + 255) % 256
      ∧ t.core1.iramPos.toNat = (s.core1.iramPos.toNat + 255) % 256
      ∧ t.eramPos = (if s.eramPos = 0 then Config.params.eramWords - 1 else s.eramPos - 1)
      ∧ t.core0 = { s.core0 with iramPos := t.core0.iramPos }
      ∧ t.core1 = { s.core1 with iramPos := t.core1.iramPos }
      ∧ t.gram = s.gram ∧ t.coefBank = s.coefBank ∧ t.eram = s.eram ∧ t.faults = s.faults
      ∧ t.reply = .nothing

/-- R57, R61: a program byte write replaces one lane of one word, at once, and changes nothing else. -/
def Obligations.ProgramByteWriteReplacesLane : Prop :=
  ∀ (s : State) (c : CoreId) (i : Pc) (lane : Fin 4) (b : Byte),
    nextCall s = .writeProgramByte c i lane b →
    ∃ t, step s = .next t
      ∧ (∀ l : Fin 4, (Mem.read (t.core c).pram i.val).extractLsb' (8 * l.val) 8 =
          if l = lane then b else (Mem.read (s.core c).pram i.val).extractLsb' (8 * l.val) 8)
      ∧ (∀ j, j ≠ i.val → Mem.read (t.core c).pram j = Mem.read (s.core c).pram j)
      ∧ t.core c = { s.core c with pram := (t.core c).pram }
      ∧ t.core c.other = s.core c.other
      ∧ t.gram = s.gram ∧ t.coefBank = s.coefBank ∧ t.eram = s.eram ∧ t.eramPos = s.eramPos
      ∧ t.faults = s.faults ∧ t.reply = .nothing

/-- R58, R187: a coefficient write replaces bits 7:0 of one word and leaves the rest; a word that was
legal stays legal. -/
def Obligations.CoefficientWriteKeepsLegality : Prop :=
  ∀ (s : State) (c : CoreId) (i : Pc) (v : Byte),
    nextCall s = .writeCoefficientOnly c i v →
    ∃ t, step s = .next t
      ∧ (Mem.read (t.core c).pram i.val).toNat
          = (Mem.read (s.core c).pram i.val).toNat / 256 * 256 + v.toNat
      ∧ (∀ j, j ≠ i.val → Mem.read (t.core c).pram j = Mem.read (s.core c).pram j)
      ∧ t.core c = { s.core c with pram := (t.core c).pram }
      ∧ t.core c.other = s.core c.other
      ∧ t.gram = s.gram ∧ t.coefBank = s.coefBank ∧ t.eram = s.eram ∧ t.eramPos = s.eramPos
      ∧ t.faults = s.faults ∧ t.reply = .nothing
      ∧ (wordReason (Mem.read (s.core c).pram i.val) = none →
          wordReason (Mem.read (t.core c).pram i.val) = none)

/-- R168: `readHostRegister(c)` returns host_c and changes nothing of the block. -/
def Obligations.HostReadReturnsRegister : Prop :=
  ∀ (s : State) (c : CoreId), nextCall s = .readHostRegister c →
    step s = .next { issueCall s with reply := .hostRegister (s.core c).host }

/-- R186, R49: a cell addressed by code m is addressed by code m + d after d sample strobes, by either
core, in IRAM as in GRAM. -/
def Obligations.DelayLineShiftsOneCodePerSample : Prop :=
  ∀ (s : State) (c : CoreId) (m : Byte) (d : Nat), m.toNat + d ≤ 0xBF →
    ea (((stepSample Config.params)^[d] s).core c) (m + BitVec.ofNat 8 d) = ea (s.core c) m
    ∧ (((stepSample Config.params)^[d] s).core c).iram = (s.core c).iram
    ∧ ((stepSample Config.params)^[d] s).gram = s.gram
    ∧ ea (s.core c) m = (m.toNat + (s.core c).iramPos.toNat) % 256

/-- R176: one tick of the reference host, and that the model takes these calls, one a step, while no host
call is queued (assumption 11, the model's choice). -/
def Obligations.ReferenceTickAlternatesCores : Prop :=
  (∀ k : Pc, turnCall (nextTurn^[2 * k.val] (.cycle 0 .core0)) = .stepCycle .core0
    ∧ turnCall (nextTurn^[2 * k.val + 1] (.cycle 0 .core0)) = .stepCycle .core1)
  ∧ turnCall (nextTurn^[1536] (.cycle 0 .core0)) = .stepSample
  ∧ nextTurn^[1537] (.cycle 0 .core0) = .cycle 0 .core0
  ∧ (∀ s : State, s.calls = [] →
      nextCall s = turnCall s.turn ∧ issueCall s = { s with turn := nextTurn s.turn })
  ∧ ∀ (n : Nat) (s t : State), s.calls = [] → runSteps n s = some t →
      t.calls = [] ∧ t.turn = nextTurn^[n] s.turn ∧ nextCall t = turnCall (nextTurn^[n] s.turn)

/-! ### Reset and the invariant -/

/-- R41, R173: every register at launch, whatever the images. -/
def Obligations.LaunchRegisterValues : Prop :=
  ∀ (img : LaunchImages) (c : CoreId),
    let s := State.launch img
    let k := s.core c
    k.pc = 0 ∧ (∀ x : AccId, (k.acc x).rawFull = 0 ∧ (∀ j : Fin 3, (k.acc x).hist[j] = 0)
      ∧ (k.acc x).head = 0)
    ∧ k.iramPos = 0 ∧ k.skipfield = 0 ∧ k.interp = 0 ∧ k.carry = 0 ∧ k.prevOp = .nop ∧ k.host = 0
    ∧ k.nxt = ⟨false, false, false, 0, 0, 0⟩ ∧ k.cur = ⟨false, false, false, 0, 0⟩
    ∧ k.rdLatch = 0 ∧ k.wrLatch = 0 ∧ k.varOfs = 0 ∧ k.eramOverlap = false
    ∧ (∀ j, Mem.read s.coefBank j = 0) ∧ s.eramPos = 0 ∧ s.faults = []
    ∧ s.core0.pram = img.pram0 ∧ s.core1.pram = img.pram1 ∧ s.core0.iram = img.iram0
    ∧ s.core1.iram = img.iram1 ∧ s.gram = img.gram ∧ s.eram = img.eram

/-- The invariant holds at reset. -/
def Obligations.InvariantAtReset : Prop := State.reset.Inv Config.params

/-- Every step keeps the invariant: the canonical form and extent of every memory, rawFull and the
history sign-extended from 30 bits (R19), equal heads (R20), the width of the skipfield (R24) and of
eramPos (R39), equal positions (R50), and the timing of both ERAM controllers (R93, R99). -/
def Obligations.EveryStepKeepsInvariant : Prop :=
  ∀ s t : State, s.Inv Config.params → step s = .next t → t.Inv Config.params

/-! ### Any encoding -/

/-- R8: the layout and the operation map are arguments. For every layout with disjoint fields and every
map, decoding the word of an instruction well-formed under the map gives it back; and the step of a block
with that encoding runs the meaning that the machine gives the instruction, and takes every other host
call as the machine does, so the encoding changes no other rule. -/
def Obligations.AnyEncodingRunsTheSameMeanings : Prop :=
  ∀ (enc : Config.Encoding) (i : Instr), enc.layout.Valid → i.wellFormedIn enc.opMap = true →
    decodeWith enc (encodeWith enc i) = .ok i
    ∧ (∀ (s : State) (c : CoreId), nextCall s = .stepCycle c →
        Mem.read (s.core c).pram (s.core c).pc.val = encodeWith enc i →
        stepIn enc s = exec i { issueCall s with active := c })
    ∧ ∀ s : State, (∀ c, nextCall s ≠ .stepCycle c) → stepIn enc s = step s
end

