-- ==== Sys2Proof/Laws/Acc.lean ====
section
/-! SUPPORT. The numbers of the accumulator pipeline, and the delay of three. -/

namespace Sys2Proof.Machine

theorem wrap30_toInt (v : Int) : (wrap30 v).toInt = v.bmod (2 ^ 30) := by
  rw [wrap30, BitVec.toInt_signExtend_of_le (by decide), BitVec.toInt_ofInt]

/-- `fits30` in numbers. -/
theorem fits30_iff (r : Word) : fits30 r ↔ -2 ^ 29 ≤ r.toInt ∧ r.toInt < 2 ^ 29 := Iff.rfl

theorem wrap30_fits (v : Int) : fits30 (wrap30 v) := by
  have h1 := Int.le_bmod (x := v) (m := 2 ^ 30) (by norm_num)
  have h2 := Int.bmod_lt (x := v) (m := 2 ^ 30) (by norm_num)
  simp only [fits30, wrap30_toInt]
  constructor
  · exact le_trans (by norm_num) h1
  · exact lt_of_lt_of_le h2 (by norm_num)

/-- A value that needs no wrap is kept (R83). -/
theorem wrap30_toInt_of_lt (v : Int) (h1 : -2 ^ 29 ≤ v) (h2 : v < 2 ^ 29) :
    (wrap30 v).toInt = v := by
  rw [wrap30_toInt]
  exact Int.bmod_eq_of_le (by norm_num at *; omega) (by norm_num at *; omega)

theorem clamp_bounds (v lo hi : Int) (h : lo ≤ hi) : lo ≤ clamp v lo hi ∧ clamp v lo hi ≤ hi := by
  unfold clamp; split
  · omega
  · split <;> omega

theorem readSat24_toInt (r : Word) : (readSat24 r).toInt = clamp r.toInt satMin satMax := by
  have h := clamp_bounds r.toInt satMin satMax (by decide)
  rw [readSat24, BitVec.toInt_ofInt]
  simp only [satMin, satMax] at *
  exact Int.bmod_eq_of_le (by norm_num at *; omega) (by norm_num at *; omega)

theorem readRaw24_toInt (r : Word) : (readRaw24 r).toInt = r.toInt.bmod (2 ^ 24) := by
  have : readRaw24 r = r.setWidth 24 := by
    ext i h; simp [readRaw24]
  rw [this, BitVec.toInt_setWidth, BitVec.toInt_eq_toNat_bmod]
  exact (Int.bmod_bmod_of_dvd (by norm_num)).symm

theorem rectify_toInt (v : Cell) : (rectify v).toInt = min (|v.toInt|) 0x7FFFFF := by
  have h1 := BitVec.le_toInt v
  have h2 := BitVec.toInt_lt (x := v)
  rw [rectify, BitVec.toInt_ofInt, Int.natCast_natAbs, satMax]
  have h3 : (0 : Int) ≤ |v.toInt| := abs_nonneg _
  exact Int.bmod_eq_of_le (by norm_num; omega) (by norm_num)

/-- The shifted product of a MAC lies within 2^27 (R119). -/
theorem macShifted_bounds (opA : Cell) (opB : Byte) (ss : BitVec 2) :
    -2 ^ 27 ≤ asr (product opA opB) (shiftOf ss) ∧ asr (product opA opB) (shiftOf ss) ≤ 2 ^ 27 := by
  have a1 := BitVec.le_toInt opA
  have a2 := BitVec.toInt_lt (x := opA)
  have b1 := BitVec.le_toInt opB
  have b2 := BitVec.toInt_lt (x := opB)
  norm_num at a1 a2 b1 b2
  have hp : -2 ^ 30 ≤ product opA opB ∧ product opA opB ≤ 2 ^ 30 := by
    unfold product
    constructor <;> nlinarith
  obtain ⟨p1, p2⟩ := hp
  have hs : shiftOf ss = 7 ∨ shiftOf ss = 6 ∨ shiftOf ss = 5 ∨ shiftOf ss = 3 := by
    unfold shiftOf; split <;> simp
  unfold asr
  rcases hs with h | h | h | h <;> rw [h] <;> constructor <;> norm_num at * <;> omega

theorem assign_rawFull_toInt (x : Acc) (opA : Cell) (opB : Byte) (ss : BitVec 2) :
    (x.assign (asr (product opA opB) (shiftOf ss))).rawFull.toInt =
      asr (product opA opB) (shiftOf ss) := by
  have h := macShifted_bounds opA opB ss
  exact wrap30_toInt_of_lt _ (by norm_num at *; omega) (by norm_num at *; omega)

theorem accumulate_rawFull_toInt (x : Acc) (v : Int) :
    (x.accumulate v).rawFull.toInt = (x.rawFull.toInt + v).bmod (2 ^ 30) := wrap30_toInt _

/-! ### The ring -/

@[simp] theorem storePipeline_rawFull (x : Acc) : x.storePipeline.rawFull = x.rawFull := rfl
@[simp] theorem storePipeline_head (x : Acc) : x.storePipeline.head = x.head + 1 := rfl
@[simp] theorem assign_hist (x : Acc) (v : Int) : (x.assign v).hist = x.hist := rfl
@[simp] theorem assign_head (x : Acc) (v : Int) : (x.assign v).head = x.head := rfl
@[simp] theorem accumulate_hist (x : Acc) (v : Int) : (x.accumulate v).hist = x.hist := rfl
@[simp] theorem accumulate_head (x : Acc) (v : Int) : (x.accumulate v).head = x.head := rfl
@[simp] theorem macWrite_hist (x : Acc) (m : Mode) (v : Int) : (x.macWrite m v).hist = x.hist := by
  cases m <;> rfl
@[simp] theorem macWrite_head (x : Acc) (m : Mode) (v : Int) : (x.macWrite m v).head = x.head := by
  cases m <;> rfl

theorem macWrite_fits30 (x : Acc) (m : Mode) (v : Int) : fits30 (x.macWrite m v).rawFull := by
  cases m <;> exact wrap30_fits _

theorem storePipeline_hist_get (x : Acc) (i : Fin 3) :
    x.storePipeline.hist[i] = if i = x.head then x.rawFull else x.hist[i] := by
  simp only [Acc.storePipeline, Fin.getElem_fin, Vector.getElem_set]
  by_cases h : i = x.head
  · simp [h]
  · have : x.head.val ≠ i.val := fun h' => h (Fin.ext h'.symm)
    simp [h, this]

theorem storePipeline_fits (x : Acc) (h : x.fits) : x.storePipeline.fits := by
  obtain ⟨hr, h0, h1, h2⟩ := h
  have g (i : Fin 3) (hi : fits30 x.hist[i]) : fits30 x.storePipeline.hist[i] := by
    rw [storePipeline_hist_get]; split
    · exact hr
    · exact hi
  exact ⟨hr, g 0 h0, g 1 h1, g 2 h2⟩

end Sys2Proof.Machine
end

