-- ==== Sys2Proof/Laws/State.lean ====
section
/-! SUPPORT. What each named update of the state leaves: one lemma per field per update. -/

namespace Sys2Proof.Machine

variable (s : State) (c : CoreId) (k l : CoreState)

section setGram
variable (m : Mem 24)
@[simp] theorem State.core0_setGram : (s.setGram m).core0 = s.core0 := rfl
@[simp] theorem State.core1_setGram : (s.setGram m).core1 = s.core1 := rfl
@[simp] theorem State.gram_setGram : (s.setGram m).gram = m := rfl
@[simp] theorem State.coefBank_setGram : (s.setGram m).coefBank = s.coefBank := rfl
@[simp] theorem State.eram_setGram : (s.setGram m).eram = s.eram := rfl
@[simp] theorem State.eramPos_setGram : (s.setGram m).eramPos = s.eramPos := rfl
@[simp] theorem State.faults_setGram : (s.setGram m).faults = s.faults := rfl
@[simp] theorem State.active_setGram : (s.setGram m).active = s.active := rfl
@[simp] theorem State.calls_setGram : (s.setGram m).calls = s.calls := rfl
@[simp] theorem State.turn_setGram : (s.setGram m).turn = s.turn := rfl
@[simp] theorem State.reply_setGram : (s.setGram m).reply = s.reply := rfl
@[simp] theorem State.me_setGram : (s.setGram m).me = s.me := rfl
@[simp] theorem State.core_setGram : (s.setGram m).core c = s.core c := by cases c <;> rfl
end setGram

section setCoefBank
variable (m : Mem 8)
@[simp] theorem State.core0_setCoefBank : (s.setCoefBank m).core0 = s.core0 := rfl
@[simp] theorem State.core1_setCoefBank : (s.setCoefBank m).core1 = s.core1 := rfl
@[simp] theorem State.gram_setCoefBank : (s.setCoefBank m).gram = s.gram := rfl
@[simp] theorem State.coefBank_setCoefBank : (s.setCoefBank m).coefBank = m := rfl
@[simp] theorem State.eram_setCoefBank : (s.setCoefBank m).eram = s.eram := rfl
@[simp] theorem State.eramPos_setCoefBank : (s.setCoefBank m).eramPos = s.eramPos := rfl
@[simp] theorem State.faults_setCoefBank : (s.setCoefBank m).faults = s.faults := rfl
@[simp] theorem State.active_setCoefBank : (s.setCoefBank m).active = s.active := rfl
@[simp] theorem State.calls_setCoefBank : (s.setCoefBank m).calls = s.calls := rfl
@[simp] theorem State.turn_setCoefBank : (s.setCoefBank m).turn = s.turn := rfl
@[simp] theorem State.reply_setCoefBank : (s.setCoefBank m).reply = s.reply := rfl
@[simp] theorem State.me_setCoefBank : (s.setCoefBank m).me = s.me := rfl
@[simp] theorem State.core_setCoefBank : (s.setCoefBank m).core c = s.core c := by cases c <;> rfl
end setCoefBank

section setEram
variable (m : Mem 24)
@[simp] theorem State.core0_setEram : (s.setEram m).core0 = s.core0 := rfl
@[simp] theorem State.core1_setEram : (s.setEram m).core1 = s.core1 := rfl
@[simp] theorem State.gram_setEram : (s.setEram m).gram = s.gram := rfl
@[simp] theorem State.coefBank_setEram : (s.setEram m).coefBank = s.coefBank := rfl
@[simp] theorem State.eram_setEram : (s.setEram m).eram = m := rfl
@[simp] theorem State.eramPos_setEram : (s.setEram m).eramPos = s.eramPos := rfl
@[simp] theorem State.faults_setEram : (s.setEram m).faults = s.faults := rfl
@[simp] theorem State.active_setEram : (s.setEram m).active = s.active := rfl
@[simp] theorem State.calls_setEram : (s.setEram m).calls = s.calls := rfl
@[simp] theorem State.turn_setEram : (s.setEram m).turn = s.turn := rfl
@[simp] theorem State.reply_setEram : (s.setEram m).reply = s.reply := rfl
@[simp] theorem State.me_setEram : (s.setEram m).me = s.me := rfl
@[simp] theorem State.core_setEram : (s.setEram m).core c = s.core c := by cases c <;> rfl
end setEram

section setReply
variable (m : Reply)
@[simp] theorem State.core0_setReply : (s.setReply m).core0 = s.core0 := rfl
@[simp] theorem State.core1_setReply : (s.setReply m).core1 = s.core1 := rfl
@[simp] theorem State.gram_setReply : (s.setReply m).gram = s.gram := rfl
@[simp] theorem State.coefBank_setReply : (s.setReply m).coefBank = s.coefBank := rfl
@[simp] theorem State.eram_setReply : (s.setReply m).eram = s.eram := rfl
@[simp] theorem State.eramPos_setReply : (s.setReply m).eramPos = s.eramPos := rfl
@[simp] theorem State.faults_setReply : (s.setReply m).faults = s.faults := rfl
@[simp] theorem State.active_setReply : (s.setReply m).active = s.active := rfl
@[simp] theorem State.calls_setReply : (s.setReply m).calls = s.calls := rfl
@[simp] theorem State.turn_setReply : (s.setReply m).turn = s.turn := rfl
@[simp] theorem State.reply_setReply : (s.setReply m).reply = m := rfl
@[simp] theorem State.me_setReply : (s.setReply m).me = s.me := rfl
@[simp] theorem State.core_setReply : (s.setReply m).core c = s.core c := by cases c <;> rfl
end setReply

/-! ### Replacing a core's state -/

@[simp] theorem State.gram_setCore : (s.setCore c k).gram = s.gram := by cases c <;> rfl
@[simp] theorem State.coefBank_setCore : (s.setCore c k).coefBank = s.coefBank := by cases c <;> rfl
@[simp] theorem State.eram_setCore : (s.setCore c k).eram = s.eram := by cases c <;> rfl
@[simp] theorem State.eramPos_setCore : (s.setCore c k).eramPos = s.eramPos := by cases c <;> rfl
@[simp] theorem State.faults_setCore : (s.setCore c k).faults = s.faults := by cases c <;> rfl
@[simp] theorem State.active_setCore : (s.setCore c k).active = s.active := by cases c <;> rfl
@[simp] theorem State.calls_setCore : (s.setCore c k).calls = s.calls := by cases c <;> rfl
@[simp] theorem State.turn_setCore : (s.setCore c k).turn = s.turn := by cases c <;> rfl
@[simp] theorem State.reply_setCore : (s.setCore c k).reply = s.reply := by cases c <;> rfl
@[simp] theorem State.core_setCore_same : (s.setCore c k).core c = k := by cases c <;> rfl
@[simp] theorem State.core_setCore_other : (s.setCore c k).core c.other = s.core c.other := by
  cases c <;> rfl
@[simp] theorem State.setCore_setCore : (s.setCore c k).setCore c l = s.setCore c l := by
  cases c <;> rfl
@[simp] theorem State.setCore_core : s.setCore c (s.core c) = s := by cases c <;> rfl
@[simp] theorem otherCore_other : c.other.other = c := by cases c <;> rfl
theorem otherCore_ne : c.other ≠ c := by cases c <;> simp [CoreId.other]
theorem eq_or_eq_otherCore (c d : CoreId) : d = c ∨ d = c.other := by
  cases c <;> cases d <;> simp [CoreId.other]

@[simp] theorem State.gram_setMe : (s.setMe k).gram = s.gram := State.gram_setCore s s.active k
@[simp] theorem State.coefBank_setMe : (s.setMe k).coefBank = s.coefBank := State.coefBank_setCore s s.active k
@[simp] theorem State.eram_setMe : (s.setMe k).eram = s.eram := State.eram_setCore s s.active k
@[simp] theorem State.eramPos_setMe : (s.setMe k).eramPos = s.eramPos := State.eramPos_setCore s s.active k
@[simp] theorem State.faults_setMe : (s.setMe k).faults = s.faults := State.faults_setCore s s.active k
@[simp] theorem State.active_setMe : (s.setMe k).active = s.active := State.active_setCore s s.active k
@[simp] theorem State.calls_setMe : (s.setMe k).calls = s.calls := State.calls_setCore s s.active k
@[simp] theorem State.turn_setMe : (s.setMe k).turn = s.turn := State.turn_setCore s s.active k
@[simp] theorem State.reply_setMe : (s.setMe k).reply = s.reply := State.reply_setCore s s.active k
@[simp] theorem State.me_setMe : (s.setMe k).me = k := by simp [State.me, State.setMe]
@[simp] theorem State.setMe_setMe : (s.setMe k).setMe l = s.setMe l := by
  simp [State.setMe]
@[simp] theorem State.setMe_me : s.setMe s.me = s := by simp [State.me, State.setMe]
@[simp] theorem State.core_other_setMe :
    (s.setMe k).core s.active.other = s.core s.active.other := by simp [State.setMe]
@[simp] theorem State.core_active : s.core s.active = s.me := rfl

/-! ### The shared updates commute with replacing the running core -/

@[simp] theorem State.setGram_setMe (m : Mem 24) : (s.setMe k).setGram m = (s.setGram m).setMe k := by
  cases h : s.active <;> simp [State.setMe, State.setGram, State.setCore, h]
@[simp] theorem State.setCoefBank_setMe (m : Mem 8) :
    (s.setMe k).setCoefBank m = (s.setCoefBank m).setMe k := by
  cases h : s.active <;> simp [State.setMe, State.setCoefBank, State.setCore, h]

/-! ### One accumulator replaced -/

section setAcc
variable (i : AccId) (x : Acc)
@[simp] theorem CoreState.pram_setAcc : (k.setAcc i x).pram = k.pram := by cases i <;> rfl
@[simp] theorem CoreState.iram_setAcc : (k.setAcc i x).iram = k.iram := by cases i <;> rfl
@[simp] theorem CoreState.pc_setAcc : (k.setAcc i x).pc = k.pc := by cases i <;> rfl
@[simp] theorem CoreState.iramPos_setAcc : (k.setAcc i x).iramPos = k.iramPos := by cases i <;> rfl
@[simp] theorem CoreState.skipfield_setAcc : (k.setAcc i x).skipfield = k.skipfield := by cases i <;> rfl
@[simp] theorem CoreState.interp_setAcc : (k.setAcc i x).interp = k.interp := by cases i <;> rfl
@[simp] theorem CoreState.carry_setAcc : (k.setAcc i x).carry = k.carry := by cases i <;> rfl
@[simp] theorem CoreState.prevOp_setAcc : (k.setAcc i x).prevOp = k.prevOp := by cases i <;> rfl
@[simp] theorem CoreState.host_setAcc : (k.setAcc i x).host = k.host := by cases i <;> rfl
@[simp] theorem CoreState.nxt_setAcc : (k.setAcc i x).nxt = k.nxt := by cases i <;> rfl
@[simp] theorem CoreState.cur_setAcc : (k.setAcc i x).cur = k.cur := by cases i <;> rfl
@[simp] theorem CoreState.rdLatch_setAcc : (k.setAcc i x).rdLatch = k.rdLatch := by cases i <;> rfl
@[simp] theorem CoreState.wrLatch_setAcc : (k.setAcc i x).wrLatch = k.wrLatch := by cases i <;> rfl
@[simp] theorem CoreState.varOfs_setAcc : (k.setAcc i x).varOfs = k.varOfs := by cases i <;> rfl
@[simp] theorem CoreState.eramOverlap_setAcc : (k.setAcc i x).eramOverlap = k.eramOverlap := by cases i <;> rfl
@[simp] theorem CoreState.a_setAcc_a : (k.setAcc .a x).a = x := rfl
@[simp] theorem CoreState.b_setAcc_a : (k.setAcc .a x).b = k.b := rfl
@[simp] theorem CoreState.a_setAcc_b : (k.setAcc .b x).a = k.a := rfl
@[simp] theorem CoreState.b_setAcc_b : (k.setAcc .b x).b = x := rfl
@[simp] theorem CoreState.acc_a : k.acc .a = k.a := rfl
@[simp] theorem CoreState.acc_b : k.acc .b = k.b := rfl
end setAcc

end Sys2Proof.Machine
end

