-- ==== Sys2Proof/Laws/Eram.lean ====
section
/-! SUPPORT. What the ERAM controller's two steps can do, field by field, and the laws of crunch and of
its addresses. -/

namespace Sys2Proof.Machine

open Sys2Proof.Config (Params)

variable (p : Params) (e : BitVec 5) (s : State) (k : CoreState)

/-! ### The commit step -/

theorem eramCommit_of_idle (h : commitDue s.me = false) : eramCommit p s = s := by
  simp [eramCommit, h]

theorem eramCommit_of_write (h : commitDue s.me = true) (hw : s.me.cur.write = true) :
    eramCommit p s =
      (s.setEram (Mem.write s.eram (commitAddr p s.eramPos s.me) (crunch p s.me.wrLatch))).setMe
        s.me.retireCur := by
  simp [eramCommit, h, hw]

theorem eramCommit_of_read (h : commitDue s.me = true) (hw : s.me.cur.write = false) :
    eramCommit p s =
      s.setMe { s.me.retireCur with rdLatch := Mem.read s.eram (commitAddr p s.eramPos s.me) } := by
  simp [eramCommit, h, hw]

@[simp] theorem eramCommit_me_pram : (eramCommit p s).me.pram = s.me.pram := by
  simp only [eramCommit]; split <;> [split; skip] <;> simp [CoreState.retireCur]
@[simp] theorem eramCommit_me_iram : (eramCommit p s).me.iram = s.me.iram := by
  simp only [eramCommit]; split <;> [split; skip] <;> simp [CoreState.retireCur]
@[simp] theorem eramCommit_me_pc : (eramCommit p s).me.pc = s.me.pc := by
  simp only [eramCommit]; split <;> [split; skip] <;> simp [CoreState.retireCur]
@[simp] theorem eramCommit_me_iramPos : (eramCommit p s).me.iramPos = s.me.iramPos := by
  simp only [eramCommit]; split <;> [split; skip] <;> simp [CoreState.retireCur]
@[simp] theorem eramCommit_me_a : (eramCommit p s).me.a = s.me.a := by
  simp only [eramCommit]; split <;> [split; skip] <;> simp [CoreState.retireCur]
@[simp] theorem eramCommit_me_b : (eramCommit p s).me.b = s.me.b := by
  simp only [eramCommit]; split <;> [split; skip] <;> simp [CoreState.retireCur]
@[simp] theorem eramCommit_me_skipfield : (eramCommit p s).me.skipfield = s.me.skipfield := by
  simp only [eramCommit]; split <;> [split; skip] <;> simp [CoreState.retireCur]
@[simp] theorem eramCommit_me_interp : (eramCommit p s).me.interp = s.me.interp := by
  simp only [eramCommit]; split <;> [split; skip] <;> simp [CoreState.retireCur]
@[simp] theorem eramCommit_me_carry : (eramCommit p s).me.carry = s.me.carry := by
  simp only [eramCommit]; split <;> [split; skip] <;> simp [CoreState.retireCur]
@[simp] theorem eramCommit_me_prevOp : (eramCommit p s).me.prevOp = s.me.prevOp := by
  simp only [eramCommit]; split <;> [split; skip] <;> simp [CoreState.retireCur]
@[simp] theorem eramCommit_me_host : (eramCommit p s).me.host = s.me.host := by
  simp only [eramCommit]; split <;> [split; skip] <;> simp [CoreState.retireCur]
@[simp] theorem eramCommit_me_nxt : (eramCommit p s).me.nxt = s.me.nxt := by
  simp only [eramCommit]; split <;> [split; skip] <;> simp [CoreState.retireCur]
@[simp] theorem eramCommit_me_wrLatch : (eramCommit p s).me.wrLatch = s.me.wrLatch := by
  simp only [eramCommit]; split <;> [split; skip] <;> simp [CoreState.retireCur]
@[simp] theorem eramCommit_me_varOfs : (eramCommit p s).me.varOfs = s.me.varOfs := by
  simp only [eramCommit]; split <;> [split; skip] <;> simp [CoreState.retireCur]
@[simp] theorem eramCommit_me_eramOverlap : (eramCommit p s).me.eramOverlap = s.me.eramOverlap := by
  simp only [eramCommit]; split <;> [split; skip] <;> simp [CoreState.retireCur]
@[simp] theorem eramCommit_me_cur :
    (eramCommit p s).me.cur = { s.me.cur with active := s.me.cur.active && !commitDue s.me } := by
  simp only [eramCommit]
  split <;> rename_i h
  · split <;> simp [CoreState.retireCur, h]
  · simp [h]
theorem eramCommit_me_rdLatch : (eramCommit p s).me.rdLatch =
    if commitDue s.me && !s.me.cur.write then Mem.read s.eram (commitAddr p s.eramPos s.me)
    else s.me.rdLatch := by
  cases h : commitDue s.me
  · simp [eramCommit_of_idle p s h]
  · cases hw : s.me.cur.write
    · simp [eramCommit_of_read p s h hw]
    · simp [eramCommit_of_write p s h hw, CoreState.retireCur]
theorem eramCommit_eram : (eramCommit p s).eram =
    if commitDue s.me && s.me.cur.write then
      Mem.write s.eram (commitAddr p s.eramPos s.me) (crunch p s.me.wrLatch)
    else s.eram := by
  cases h : commitDue s.me
  · simp [eramCommit_of_idle p s h]
  · cases hw : s.me.cur.write
    · simp [eramCommit_of_read p s h hw]
    · simp [eramCommit_of_write p s h hw]
@[simp] theorem eramCommit_gram : (eramCommit p s).gram = s.gram := by
  simp only [eramCommit]; split <;> [split; skip] <;> simp
@[simp] theorem eramCommit_coefBank : (eramCommit p s).coefBank = s.coefBank := by
  simp only [eramCommit]; split <;> [split; skip] <;> simp
@[simp] theorem eramCommit_eramPos : (eramCommit p s).eramPos = s.eramPos := by
  simp only [eramCommit]; split <;> [split; skip] <;> simp
@[simp] theorem eramCommit_faults : (eramCommit p s).faults = s.faults := by
  simp only [eramCommit]; split <;> [split; skip] <;> simp
@[simp] theorem eramCommit_active : (eramCommit p s).active = s.active := by
  simp only [eramCommit]; split <;> [split; skip] <;> simp
@[simp] theorem eramCommit_calls : (eramCommit p s).calls = s.calls := by
  simp only [eramCommit]; split <;> [split; skip] <;> simp
@[simp] theorem eramCommit_turn : (eramCommit p s).turn = s.turn := by
  simp only [eramCommit]; split <;> [split; skip] <;> simp
@[simp] theorem eramCommit_reply : (eramCommit p s).reply = s.reply := by
  simp only [eramCommit]; split <;> [split; skip] <;> simp
@[simp] theorem eramCommit_core_other :
    (eramCommit p s).core s.active.other = s.core s.active.other := by
  cases h : commitDue s.me
  · simp [eramCommit_of_idle p s h]
  · cases hw : s.me.cur.write
    · simp [eramCommit_of_read p s h hw]
    · rw [eramCommit_of_write p s h hw]
      exact (State.core_other_setMe (s.setEram _) _).trans (State.core_setEram s _ _)

/-! ### The sampling step -/

@[simp] theorem eq_eramWindowLen (w : Fin 6) : w.val = eramWindowLen ↔ w = 5 := by
  simp [Fin.ext_iff]
@[simp] theorem lt_eramWindowLen (n : Nat) : n < eramWindowLen ↔ n ≤ 4 := Nat.lt_succ_iff

@[simp] theorem eramPromote_pram : (eramPromote k).pram = k.pram := by
  simp only [eramPromote]; split <;> rfl
@[simp] theorem eramStart_pram : (eramStart e k).pram = k.pram := by
  simp only [eramStart]; split <;> rfl
@[simp] theorem eramWindow_pram : (eramWindow e k).pram = k.pram := by
  simp only [eramWindow]; split <;> rfl
@[simp] theorem eramSample_pram : (eramSample e k).pram = k.pram := by
  simp only [eramSample]; split <;> simp
@[simp] theorem eramPromote_iram : (eramPromote k).iram = k.iram := by
  simp only [eramPromote]; split <;> rfl
@[simp] theorem eramStart_iram : (eramStart e k).iram = k.iram := by
  simp only [eramStart]; split <;> rfl
@[simp] theorem eramWindow_iram : (eramWindow e k).iram = k.iram := by
  simp only [eramWindow]; split <;> rfl
@[simp] theorem eramSample_iram : (eramSample e k).iram = k.iram := by
  simp only [eramSample]; split <;> simp
@[simp] theorem eramPromote_pc : (eramPromote k).pc = k.pc := by
  simp only [eramPromote]; split <;> rfl
@[simp] theorem eramStart_pc : (eramStart e k).pc = k.pc := by
  simp only [eramStart]; split <;> rfl
@[simp] theorem eramWindow_pc : (eramWindow e k).pc = k.pc := by
  simp only [eramWindow]; split <;> rfl
@[simp] theorem eramSample_pc : (eramSample e k).pc = k.pc := by
  simp only [eramSample]; split <;> simp
@[simp] theorem eramPromote_iramPos : (eramPromote k).iramPos = k.iramPos := by
  simp only [eramPromote]; split <;> rfl
@[simp] theorem eramStart_iramPos : (eramStart e k).iramPos = k.iramPos := by
  simp only [eramStart]; split <;> rfl
@[simp] theorem eramWindow_iramPos : (eramWindow e k).iramPos = k.iramPos := by
  simp only [eramWindow]; split <;> rfl
@[simp] theorem eramSample_iramPos : (eramSample e k).iramPos = k.iramPos := by
  simp only [eramSample]; split <;> simp
@[simp] theorem eramPromote_a : (eramPromote k).a = k.a := by
  simp only [eramPromote]; split <;> rfl
@[simp] theorem eramStart_a : (eramStart e k).a = k.a := by
  simp only [eramStart]; split <;> rfl
@[simp] theorem eramWindow_a : (eramWindow e k).a = k.a := by
  simp only [eramWindow]; split <;> rfl
@[simp] theorem eramSample_a : (eramSample e k).a = k.a := by
  simp only [eramSample]; split <;> simp
@[simp] theorem eramPromote_b : (eramPromote k).b = k.b := by
  simp only [eramPromote]; split <;> rfl
@[simp] theorem eramStart_b : (eramStart e k).b = k.b := by
  simp only [eramStart]; split <;> rfl
@[simp] theorem eramWindow_b : (eramWindow e k).b = k.b := by
  simp only [eramWindow]; split <;> rfl
@[simp] theorem eramSample_b : (eramSample e k).b = k.b := by
  simp only [eramSample]; split <;> simp
@[simp] theorem eramPromote_skipfield : (eramPromote k).skipfield = k.skipfield := by
  simp only [eramPromote]; split <;> rfl
@[simp] theorem eramStart_skipfield : (eramStart e k).skipfield = k.skipfield := by
  simp only [eramStart]; split <;> rfl
@[simp] theorem eramWindow_skipfield : (eramWindow e k).skipfield = k.skipfield := by
  simp only [eramWindow]; split <;> rfl
@[simp] theorem eramSample_skipfield : (eramSample e k).skipfield = k.skipfield := by
  simp only [eramSample]; split <;> simp
@[simp] theorem eramPromote_interp : (eramPromote k).interp = k.interp := by
  simp only [eramPromote]; split <;> rfl
@[simp] theorem eramStart_interp : (eramStart e k).interp = k.interp := by
  simp only [eramStart]; split <;> rfl
@[simp] theorem eramWindow_interp : (eramWindow e k).interp = k.interp := by
  simp only [eramWindow]; split <;> rfl
@[simp] theorem eramSample_interp : (eramSample e k).interp = k.interp := by
  simp only [eramSample]; split <;> simp
@[simp] theorem eramPromote_carry : (eramPromote k).carry = k.carry := by
  simp only [eramPromote]; split <;> rfl
@[simp] theorem eramStart_carry : (eramStart e k).carry = k.carry := by
  simp only [eramStart]; split <;> rfl
@[simp] theorem eramWindow_carry : (eramWindow e k).carry = k.carry := by
  simp only [eramWindow]; split <;> rfl
@[simp] theorem eramSample_carry : (eramSample e k).carry = k.carry := by
  simp only [eramSample]; split <;> simp
@[simp] theorem eramPromote_prevOp : (eramPromote k).prevOp = k.prevOp := by
  simp only [eramPromote]; split <;> rfl
@[simp] theorem eramStart_prevOp : (eramStart e k).prevOp = k.prevOp := by
  simp only [eramStart]; split <;> rfl
@[simp] theorem eramWindow_prevOp : (eramWindow e k).prevOp = k.prevOp := by
  simp only [eramWindow]; split <;> rfl
@[simp] theorem eramSample_prevOp : (eramSample e k).prevOp = k.prevOp := by
  simp only [eramSample]; split <;> simp
@[simp] theorem eramPromote_host : (eramPromote k).host = k.host := by
  simp only [eramPromote]; split <;> rfl
@[simp] theorem eramStart_host : (eramStart e k).host = k.host := by
  simp only [eramStart]; split <;> rfl
@[simp] theorem eramWindow_host : (eramWindow e k).host = k.host := by
  simp only [eramWindow]; split <;> rfl
@[simp] theorem eramSample_host : (eramSample e k).host = k.host := by
  simp only [eramSample]; split <;> simp
@[simp] theorem eramPromote_rdLatch : (eramPromote k).rdLatch = k.rdLatch := by
  simp only [eramPromote]; split <;> rfl
@[simp] theorem eramStart_rdLatch : (eramStart e k).rdLatch = k.rdLatch := by
  simp only [eramStart]; split <;> rfl
@[simp] theorem eramWindow_rdLatch : (eramWindow e k).rdLatch = k.rdLatch := by
  simp only [eramWindow]; split <;> rfl
@[simp] theorem eramSample_rdLatch : (eramSample e k).rdLatch = k.rdLatch := by
  simp only [eramSample]; split <;> simp
@[simp] theorem eramPromote_wrLatch : (eramPromote k).wrLatch = k.wrLatch := by
  simp only [eramPromote]; split <;> rfl
@[simp] theorem eramStart_wrLatch : (eramStart e k).wrLatch = k.wrLatch := by
  simp only [eramStart]; split <;> rfl
@[simp] theorem eramWindow_wrLatch : (eramWindow e k).wrLatch = k.wrLatch := by
  simp only [eramWindow]; split <;> rfl
@[simp] theorem eramSample_wrLatch : (eramSample e k).wrLatch = k.wrLatch := by
  simp only [eramSample]; split <;> simp
@[simp] theorem eramPromote_varOfs : (eramPromote k).varOfs = k.varOfs := by
  simp only [eramPromote]; split <;> rfl
@[simp] theorem eramStart_varOfs : (eramStart e k).varOfs = k.varOfs := by
  simp only [eramStart]; split <;> rfl
@[simp] theorem eramWindow_varOfs : (eramWindow e k).varOfs = k.varOfs := by
  simp only [eramWindow]; split <;> rfl
@[simp] theorem eramSample_varOfs : (eramSample e k).varOfs = k.varOfs := by
  simp only [eramSample]; split <;> simp

theorem eramPromote_of_full (ha : k.nxt.active = true) (hw : k.nxt.w = 5) :
    eramPromote k =
      { k with
        cur := { active := true, write := k.nxt.write, var := k.nxt.var
                 pcCommit := k.nxt.pcStart + eramLatency, off := k.nxt.acc }
        nxt := { k.nxt with active := false }
        eramOverlap := k.eramOverlap || k.cur.active } := by
  simp [eramPromote, ha, hw]

theorem eramPromote_of_not_full (h : ¬ (k.nxt.active = true ∧ k.nxt.w = 5)) : eramPromote k = k := by
  have : (k.nxt.active && decide (k.nxt.w = 5)) = false := by
    simpa [Bool.and_eq_false_iff, imp_iff_not_or] using h
  simp [eramPromote, this]

/-- In a window cycle a nibble is taken (R96). -/
theorem eramSample_of_window (ha : k.nxt.active = true) (h5 : k.nxt.w ≠ 5) :
    eramSample e k = eramWindow e k := by
  simp [eramSample, eramPromote_of_not_full k (fun h => h5 h.2), ha]

/-- With no transaction accumulating, only a START acts (R95). -/
theorem eramSample_of_idle (ha : k.nxt.active = false) : eramSample e k = eramStart e k := by
  simp [eramSample, eramPromote_of_not_full k (fun h => by simp [ha] at h), ha]

/-- In the promotion cycle `Nxt` is free again before START is sampled (R98). -/
theorem eramSample_of_full (ha : k.nxt.active = true) (hw : k.nxt.w = 5) :
    eramSample e k = eramStart e (eramPromote k) := by
  have : (eramPromote k).nxt.active = false := by rw [eramPromote_of_full k ha hw]
  simp [eramSample, this]

/-! ### Both steps -/

@[simp] theorem eramStep_me_pram : (eramStep p e s).me.pram = s.me.pram := by simp [eramStep]
@[simp] theorem eramStep_me_iram : (eramStep p e s).me.iram = s.me.iram := by simp [eramStep]
@[simp] theorem eramStep_me_pc : (eramStep p e s).me.pc = s.me.pc := by simp [eramStep]
@[simp] theorem eramStep_me_iramPos : (eramStep p e s).me.iramPos = s.me.iramPos := by simp [eramStep]
@[simp] theorem eramStep_me_a : (eramStep p e s).me.a = s.me.a := by simp [eramStep]
@[simp] theorem eramStep_me_b : (eramStep p e s).me.b = s.me.b := by simp [eramStep]
@[simp] theorem eramStep_me_skipfield : (eramStep p e s).me.skipfield = s.me.skipfield := by simp [eramStep]
@[simp] theorem eramStep_me_interp : (eramStep p e s).me.interp = s.me.interp := by simp [eramStep]
@[simp] theorem eramStep_me_carry : (eramStep p e s).me.carry = s.me.carry := by simp [eramStep]
@[simp] theorem eramStep_me_prevOp : (eramStep p e s).me.prevOp = s.me.prevOp := by simp [eramStep]
@[simp] theorem eramStep_me_host : (eramStep p e s).me.host = s.me.host := by simp [eramStep]
@[simp] theorem eramStep_me_wrLatch : (eramStep p e s).me.wrLatch = s.me.wrLatch := by simp [eramStep]
@[simp] theorem eramStep_me_varOfs : (eramStep p e s).me.varOfs = s.me.varOfs := by simp [eramStep]
theorem eramStep_me : (eramStep p e s).me = eramSample e (eramCommit p s).me := by simp [eramStep]
theorem eramStep_me_rdLatch : (eramStep p e s).me.rdLatch = (eramCommit p s).me.rdLatch := by
  simp [eramStep]
theorem eramStep_eram : (eramStep p e s).eram = (eramCommit p s).eram := by simp [eramStep]
@[simp] theorem eramStep_gram : (eramStep p e s).gram = s.gram := by simp [eramStep]
@[simp] theorem eramStep_coefBank : (eramStep p e s).coefBank = s.coefBank := by simp [eramStep]
@[simp] theorem eramStep_eramPos : (eramStep p e s).eramPos = s.eramPos := by simp [eramStep]
@[simp] theorem eramStep_faults : (eramStep p e s).faults = s.faults := by simp [eramStep]
@[simp] theorem eramStep_active : (eramStep p e s).active = s.active := by simp [eramStep]
@[simp] theorem eramStep_calls : (eramStep p e s).calls = s.calls := by simp [eramStep]
@[simp] theorem eramStep_turn : (eramStep p e s).turn = s.turn := by simp [eramStep]
@[simp] theorem eramStep_reply : (eramStep p e s).reply = s.reply := by simp [eramStep]
@[simp] theorem eramStep_core_other :
    (eramStep p e s).core s.active.other = s.core s.active.other := by
  have h := State.core_other_setMe (eramCommit p s) (eramSample e (eramCommit p s).me)
  rw [eramCommit_active] at h
  exact h.trans (eramCommit_core_other p s)

/-! ### Addresses and crunch -/

theorem eramWords_pos : 0 < p.eramWords := Nat.two_pow_pos _

theorem eramWords_ge : 0x8000 ≤ p.eramWords := by
  have : 2 ^ 15 ≤ 2 ^ (15 + p.eramExtra) := Nat.pow_le_pow_right (by omega) (by omega)
  simpa [Params.eramWords] using this

/-- Every address a commit forms is inside ERAM (R54). -/
theorem commitAddr_lt (eramPos : Nat) : commitAddr p eramPos k < p.eramWords := by
  simp only [commitAddr, plainAddr, varAddr]
  split <;> exact Nat.mod_lt _ (eramWords_pos p)

/-- Which bits crunch keeps. -/
theorem getLsbD_crunch (v : Cell) (i : Nat) :
    (crunch p v).getLsbD i =
      (v.getLsbD i && decide ((p.crunchT (crunchClass v)).val ≤ i)) := by
  simp only [crunch, BitVec.getLsbD_and, BitVec.getLsbD_not, BitVec.getLsbD_ofNat,
    Nat.testBit_two_pow_sub_one]
  by_cases hi : i < 24
  · by_cases ht : i < (p.crunchT (crunchClass v)).val
    · simp [hi, ht]
    · simp [hi, ht, Nat.not_lt.mp ht]
  · simp [hi, BitVec.getLsbD_of_ge v i (by omega)]

end Sys2Proof.Machine
end

