-- ==== Sys2Proof/Laws/Cycle.lean ====
section
/-! SUPPORT. What a cycle can do, field by field: side effects, the datapath, the end of the cycle, and
the two whole cycles. Callers cite these and unfold none of them. -/

namespace Sys2Proof.Machine

open Sys2Proof.Config (Params)

variable (p : Params) (e : BitVec 5) (s : State) (cat : Category) (d : Mac) (cond : Bool)

/-! ### Side effects -/

section effect
variable (eff : Effect) (opA : Cell) (prod : Int)

@[simp] theorem applyEffect_me_pram : (applyEffect eff opA prod s).me.pram = s.me.pram := by
  cases eff <;> simp [applyEffect]
theorem applyEffect_me_iram : (applyEffect eff opA prod s).me.iram =
    match eff with
    | .storeI m => Mem.write s.me.iram (ea s.me m) opA
    | _ => s.me.iram := by
  cases eff <;> simp [applyEffect]
@[simp] theorem applyEffect_me_pc : (applyEffect eff opA prod s).me.pc = s.me.pc := by
  cases eff <;> simp [applyEffect]
@[simp] theorem applyEffect_me_iramPos : (applyEffect eff opA prod s).me.iramPos = s.me.iramPos := by
  cases eff <;> simp [applyEffect]
@[simp] theorem applyEffect_me_a : (applyEffect eff opA prod s).me.a = s.me.a := by
  cases eff <;> simp [applyEffect]
@[simp] theorem applyEffect_me_b : (applyEffect eff opA prod s).me.b = s.me.b := by
  cases eff <;> simp [applyEffect]
@[simp] theorem applyEffect_me_skipfield : (applyEffect eff opA prod s).me.skipfield = s.me.skipfield := by
  cases eff <;> simp [applyEffect]
theorem applyEffect_me_interp : (applyEffect eff opA prod s).me.interp =
    match eff with
    | .seti => opA.extractLsb' 16 8
    | _ => s.me.interp := by
  cases eff <;> simp [applyEffect]
theorem applyEffect_me_carry : (applyEffect eff opA prod s).me.carry =
    match eff with
    | .carry => carryByte prod
    | _ => s.me.carry := by
  cases eff <;> simp [applyEffect]
@[simp] theorem applyEffect_me_prevOp : (applyEffect eff opA prod s).me.prevOp = s.me.prevOp := by
  cases eff <;> simp [applyEffect]
theorem applyEffect_me_host : (applyEffect eff opA prod s).me.host =
    match eff with
    | .host => opA.signExtend 32
    | _ => s.me.host := by
  cases eff <;> simp [applyEffect]
@[simp] theorem applyEffect_me_nxt : (applyEffect eff opA prod s).me.nxt = s.me.nxt := by
  cases eff <;> simp [applyEffect]
@[simp] theorem applyEffect_me_cur : (applyEffect eff opA prod s).me.cur = s.me.cur := by
  cases eff <;> simp [applyEffect]
@[simp] theorem applyEffect_me_rdLatch : (applyEffect eff opA prod s).me.rdLatch = s.me.rdLatch := by
  cases eff <;> simp [applyEffect]
theorem applyEffect_me_wrLatch : (applyEffect eff opA prod s).me.wrLatch =
    match eff with
    | .wl => opA
    | _ => s.me.wrLatch := by
  cases eff <;> simp [applyEffect]
theorem applyEffect_me_varOfs : (applyEffect eff opA prod s).me.varOfs =
    match eff with
    | .vo => opA.extractLsb' 8 16
    | _ => s.me.varOfs := by
  cases eff <;> simp [applyEffect]
@[simp] theorem applyEffect_me_eramOverlap : (applyEffect eff opA prod s).me.eramOverlap = s.me.eramOverlap := by
  cases eff <;> simp [applyEffect]
theorem applyEffect_gram : (applyEffect eff opA prod s).gram =
    match eff with
    | .storeG m => Mem.write s.gram (ea s.me m) opA
    | _ => s.gram := by
  cases eff <;> simp [applyEffect]
theorem applyEffect_coefBank : (applyEffect eff opA prod s).coefBank =
    match eff with
    | .cw c => Mem.write s.coefBank (bankIndex c) (opA.extractLsb' 16 8)
    | _ => s.coefBank := by
  cases eff <;> simp [applyEffect]
@[simp] theorem applyEffect_eram : (applyEffect eff opA prod s).eram = s.eram := by
  cases eff <;> simp [applyEffect]
@[simp] theorem applyEffect_eramPos : (applyEffect eff opA prod s).eramPos = s.eramPos := by
  cases eff <;> simp [applyEffect]
@[simp] theorem applyEffect_faults : (applyEffect eff opA prod s).faults = s.faults := by
  cases eff <;> simp [applyEffect]
@[simp] theorem applyEffect_active : (applyEffect eff opA prod s).active = s.active := by
  cases eff <;> simp [applyEffect]
@[simp] theorem applyEffect_calls : (applyEffect eff opA prod s).calls = s.calls := by
  cases eff <;> simp [applyEffect]
@[simp] theorem applyEffect_turn : (applyEffect eff opA prod s).turn = s.turn := by
  cases eff <;> simp [applyEffect]
@[simp] theorem applyEffect_reply : (applyEffect eff opA prod s).reply = s.reply := by
  cases eff <;> simp [applyEffect]
@[simp] theorem applyEffect_core_other :
    (applyEffect eff opA prod s).core s.active.other = s.core s.active.other := by
  cases eff <;> simp [applyEffect]
end effect

/-! ### The datapath -/

theorem datapath_me_a : (datapath p d s).me.a =
    if d.dst = .a then s.me.a.macWrite d.mode (macShifted p d s) else s.me.a := by
  cases h : d.dst <;> simp [datapath, macAccumulators, h]
theorem datapath_me_b : (datapath p d s).me.b =
    if d.dst = .b then s.me.b.macWrite d.mode (macShifted p d s) else s.me.b := by
  cases h : d.dst <;> simp [datapath, macAccumulators, h]
@[simp] theorem datapath_me_pram : (datapath p d s).me.pram = s.me.pram := by
  simp [datapath, macAccumulators]
theorem datapath_me_iram : (datapath p d s).me.iram =
    match d.effect with
    | .storeI m => Mem.write s.me.iram (ea s.me m) (operandA p s d.srcA)
    | _ => s.me.iram := by
  simp only [datapath, applyEffect_me_iram]; split <;> simp [macAccumulators, ea]
@[simp] theorem datapath_me_pc : (datapath p d s).me.pc = s.me.pc := by
  simp [datapath, macAccumulators]
@[simp] theorem datapath_me_iramPos : (datapath p d s).me.iramPos = s.me.iramPos := by
  simp [datapath, macAccumulators]
@[simp] theorem datapath_me_skipfield : (datapath p d s).me.skipfield = s.me.skipfield := by
  simp [datapath, macAccumulators]
theorem datapath_me_interp : (datapath p d s).me.interp =
    match d.effect with
    | .seti => (operandA p s d.srcA).extractLsb' 16 8
    | _ => s.me.interp := by
  simp only [datapath, applyEffect_me_interp]; split <;> simp [macAccumulators]
theorem datapath_me_carry : (datapath p d s).me.carry =
    match d.effect with
    | .carry => carryByte (macProduct p d s)
    | _ => s.me.carry := by
  simp only [datapath, applyEffect_me_carry]; split <;> simp [macAccumulators]
@[simp] theorem datapath_me_prevOp : (datapath p d s).me.prevOp = s.me.prevOp := by
  simp [datapath, macAccumulators]
theorem datapath_me_host : (datapath p d s).me.host =
    match d.effect with
    | .host => (operandA p s d.srcA).signExtend 32
    | _ => s.me.host := by
  simp only [datapath, applyEffect_me_host]; split <;> simp [macAccumulators]
@[simp] theorem datapath_me_nxt : (datapath p d s).me.nxt = s.me.nxt := by
  simp [datapath, macAccumulators]
@[simp] theorem datapath_me_cur : (datapath p d s).me.cur = s.me.cur := by
  simp [datapath, macAccumulators]
@[simp] theorem datapath_me_rdLatch : (datapath p d s).me.rdLatch = s.me.rdLatch := by
  simp [datapath, macAccumulators]
theorem datapath_me_wrLatch : (datapath p d s).me.wrLatch =
    match d.effect with
    | .wl => operandA p s d.srcA
    | _ => s.me.wrLatch := by
  simp only [datapath, applyEffect_me_wrLatch]; split <;> simp [macAccumulators]
theorem datapath_me_varOfs : (datapath p d s).me.varOfs =
    match d.effect with
    | .vo => (operandA p s d.srcA).extractLsb' 8 16
    | _ => s.me.varOfs := by
  simp only [datapath, applyEffect_me_varOfs]; split <;> simp [macAccumulators]
@[simp] theorem datapath_me_eramOverlap : (datapath p d s).me.eramOverlap = s.me.eramOverlap := by
  simp [datapath, macAccumulators]
theorem datapath_gram : (datapath p d s).gram =
    match d.effect with
    | .storeG m => Mem.write s.gram (ea s.me m) (operandA p s d.srcA)
    | _ => s.gram := by
  simp only [datapath, applyEffect_gram]; split <;> simp [macAccumulators, ea]
theorem datapath_coefBank : (datapath p d s).coefBank =
    match d.effect with
    | .cw c => Mem.write s.coefBank (bankIndex c) ((operandA p s d.srcA).extractLsb' 16 8)
    | _ => s.coefBank := by
  simp only [datapath, applyEffect_coefBank]; split <;> simp
@[simp] theorem datapath_eram : (datapath p d s).eram = s.eram := by simp [datapath]
@[simp] theorem datapath_eramPos : (datapath p d s).eramPos = s.eramPos := by simp [datapath]
@[simp] theorem datapath_faults : (datapath p d s).faults = s.faults := by simp [datapath]
@[simp] theorem datapath_active : (datapath p d s).active = s.active := by simp [datapath]
@[simp] theorem datapath_calls : (datapath p d s).calls = s.calls := by simp [datapath]
@[simp] theorem datapath_turn : (datapath p d s).turn = s.turn := by simp [datapath]
@[simp] theorem datapath_reply : (datapath p d s).reply = s.reply := by simp [datapath]
@[simp] theorem datapath_core_other :
    (datapath p d s).core s.active.other = s.core s.active.other := by
  have h := applyEffect_core_other (s.setMe (macAccumulators p d s)) d.effect
    (operandA p s d.srcA) (macProduct p d s)
  rw [State.active_setMe, State.core_other_setMe] at h
  exact h

/-- The condition bit of a row: the predicate of operand A in the one row that has the effect `cond`. -/
theorem datapathCond_eq : datapathCond p d s =
    (decide (d.effect = .cond) && p.setCond (operandA p s d.srcA)) := by
  cases h : d.effect <;> simp [datapathCond, condOf, h]

/-! ### The end of a cycle -/

@[simp] theorem endCycle_me_pram : (endCycle p cat cond s).me.pram = s.me.pram := by
  simp [endCycle, CoreState.endCycle]
@[simp] theorem endCycle_me_iram : (endCycle p cat cond s).me.iram = s.me.iram := by
  simp [endCycle, CoreState.endCycle]
@[simp] theorem endCycle_me_pc : (endCycle p cat cond s).me.pc = nextPc s.me.pc := by
  simp [endCycle, CoreState.endCycle]
@[simp] theorem endCycle_me_iramPos : (endCycle p cat cond s).me.iramPos = s.me.iramPos := by
  simp [endCycle, CoreState.endCycle]
@[simp] theorem endCycle_me_a : (endCycle p cat cond s).me.a = s.me.a.storePipeline := by
  simp [endCycle, CoreState.endCycle]
@[simp] theorem endCycle_me_b : (endCycle p cat cond s).me.b = s.me.b.storePipeline := by
  simp [endCycle, CoreState.endCycle]
@[simp] theorem endCycle_me_skipfield : (endCycle p cat cond s).me.skipfield = shiftSkip p s.me.skipfield cond := by
  simp [endCycle, CoreState.endCycle]
@[simp] theorem endCycle_me_interp : (endCycle p cat cond s).me.interp = s.me.interp := by
  simp [endCycle, CoreState.endCycle]
@[simp] theorem endCycle_me_carry : (endCycle p cat cond s).me.carry = s.me.carry := by
  simp [endCycle, CoreState.endCycle]
@[simp] theorem endCycle_me_prevOp : (endCycle p cat cond s).me.prevOp = cat := by
  simp [endCycle, CoreState.endCycle]
@[simp] theorem endCycle_me_host : (endCycle p cat cond s).me.host = s.me.host := by
  simp [endCycle, CoreState.endCycle]
@[simp] theorem endCycle_me_nxt : (endCycle p cat cond s).me.nxt = s.me.nxt := by
  simp [endCycle, CoreState.endCycle]
@[simp] theorem endCycle_me_cur : (endCycle p cat cond s).me.cur = s.me.cur := by
  simp [endCycle, CoreState.endCycle]
@[simp] theorem endCycle_me_rdLatch : (endCycle p cat cond s).me.rdLatch = s.me.rdLatch := by
  simp [endCycle, CoreState.endCycle]
@[simp] theorem endCycle_me_wrLatch : (endCycle p cat cond s).me.wrLatch = s.me.wrLatch := by
  simp [endCycle, CoreState.endCycle]
@[simp] theorem endCycle_me_varOfs : (endCycle p cat cond s).me.varOfs = s.me.varOfs := by
  simp [endCycle, CoreState.endCycle]
@[simp] theorem endCycle_me_eramOverlap : (endCycle p cat cond s).me.eramOverlap = s.me.eramOverlap := by
  simp [endCycle, CoreState.endCycle]
@[simp] theorem endCycle_gram : (endCycle p cat cond s).gram = s.gram := by
  simp [endCycle]
@[simp] theorem endCycle_coefBank : (endCycle p cat cond s).coefBank = s.coefBank := by
  simp [endCycle]
@[simp] theorem endCycle_eram : (endCycle p cat cond s).eram = s.eram := by
  simp [endCycle]
@[simp] theorem endCycle_eramPos : (endCycle p cat cond s).eramPos = s.eramPos := by
  simp [endCycle]
@[simp] theorem endCycle_faults : (endCycle p cat cond s).faults = s.faults := by
  simp [endCycle]
@[simp] theorem endCycle_active : (endCycle p cat cond s).active = s.active := by
  simp [endCycle]
@[simp] theorem endCycle_calls : (endCycle p cat cond s).calls = s.calls := by
  simp [endCycle]
@[simp] theorem endCycle_turn : (endCycle p cat cond s).turn = s.turn := by
  simp [endCycle]
@[simp] theorem endCycle_reply : (endCycle p cat cond s).reply = .ok := by
  simp [endCycle]
@[simp] theorem endCycle_core_other :
    (endCycle p cat cond s).core s.active.other = s.core s.active.other := by
  simp [endCycle]

/-! ### Operands as the controller's steps leave them (R115, R122) -/

/-- Only the read latch can differ between the state before the controller's steps and after. -/
theorem operandA_eramStep (src : SourceA) (h : src ≠ .rdLatch) :
    operandA p (eramStep p e s) src = operandA p s src := by
  cases src with
  | rdLatch => exact absurd rfl h
  | memI m => simp [operandA, sourceA, suppressed, memOperand, ea]
  | memG m => simp [operandA, sourceA, suppressed, memOperand, ea]
  | pipeSat x => cases x <;> simp [operandA, sourceA, suppressed]
  | pipeRaw x => cases x <;> simp [operandA, sourceA, suppressed]
  | rect => simp [operandA, sourceA, suppressed]

theorem operandB_eramStep (src : SourceB) : operandB (eramStep p e s) src = operandB s src := by
  cases src <;> simp [operandB, carryPaired]

theorem macProduct_eramStep (h : d.srcA ≠ .rdLatch) :
    macProduct p d (eramStep p e s) = macProduct p d s := by
  simp [macProduct, operandA_eramStep p e s _ h, operandB_eramStep]

theorem macShifted_eramStep (h : d.srcA ≠ .rdLatch) :
    macShifted p d (eramStep p e s) = macShifted p d s := by
  simp [macShifted, macProduct_eramStep p e s d h]

/-! ### The whole cycle of a row, and of a NOP -/

@[simp] theorem macCycle_me_pram : (macCycle p cat e d s).me.pram = s.me.pram := by simp [macCycle]
@[simp] theorem nopCycle_me_pram : (nopCycle p e s).me.pram = s.me.pram := by simp [nopCycle]
theorem macCycle_me_iram : (macCycle p cat e d s).me.iram =
    match d.effect with
    | .storeI m => Mem.write s.me.iram (ea s.me m) (operandA p (eramStep p e s) d.srcA)
    | _ => s.me.iram := by
  simp only [macCycle, endCycle_me_iram, datapath_me_iram]; split <;> simp [ea]
@[simp] theorem nopCycle_me_iram : (nopCycle p e s).me.iram = s.me.iram := by simp [nopCycle]
@[simp] theorem macCycle_me_pc : (macCycle p cat e d s).me.pc = nextPc s.me.pc := by simp [macCycle]
@[simp] theorem nopCycle_me_pc : (nopCycle p e s).me.pc = nextPc s.me.pc := by simp [nopCycle]
@[simp] theorem macCycle_me_iramPos : (macCycle p cat e d s).me.iramPos = s.me.iramPos := by simp [macCycle]
@[simp] theorem nopCycle_me_iramPos : (nopCycle p e s).me.iramPos = s.me.iramPos := by simp [nopCycle]
theorem macCycle_me_a : (macCycle p cat e d s).me.a =
    (if d.dst = .a then s.me.a.macWrite d.mode (macShifted p d (eramStep p e s)) else s.me.a).storePipeline := by
  simp [macCycle, datapath_me_a]
@[simp] theorem nopCycle_me_a : (nopCycle p e s).me.a = s.me.a.storePipeline := by simp [nopCycle]
theorem macCycle_me_b : (macCycle p cat e d s).me.b =
    (if d.dst = .b then s.me.b.macWrite d.mode (macShifted p d (eramStep p e s)) else s.me.b).storePipeline := by
  simp [macCycle, datapath_me_b]
@[simp] theorem nopCycle_me_b : (nopCycle p e s).me.b = s.me.b.storePipeline := by simp [nopCycle]
theorem macCycle_me_skipfield : (macCycle p cat e d s).me.skipfield =
    shiftSkip p s.me.skipfield (datapathCond p d (eramStep p e s)) := by simp [macCycle]
@[simp] theorem nopCycle_me_skipfield : (nopCycle p e s).me.skipfield =
    shiftSkip p s.me.skipfield false := by simp [nopCycle]
theorem macCycle_me_interp : (macCycle p cat e d s).me.interp =
    match d.effect with
    | .seti => (operandA p (eramStep p e s) d.srcA).extractLsb' 16 8
    | _ => s.me.interp := by
  simp only [macCycle, endCycle_me_interp, datapath_me_interp]; split <;> simp
@[simp] theorem nopCycle_me_interp : (nopCycle p e s).me.interp = s.me.interp := by simp [nopCycle]
theorem macCycle_me_carry : (macCycle p cat e d s).me.carry =
    match d.effect with
    | .carry => carryByte (macProduct p d (eramStep p e s))
    | _ => s.me.carry := by
  simp only [macCycle, endCycle_me_carry, datapath_me_carry]; split <;> simp
@[simp] theorem nopCycle_me_carry : (nopCycle p e s).me.carry = s.me.carry := by simp [nopCycle]
@[simp] theorem macCycle_me_prevOp : (macCycle p cat e d s).me.prevOp = cat := by simp [macCycle]
@[simp] theorem nopCycle_me_prevOp : (nopCycle p e s).me.prevOp = .nop := by simp [nopCycle]
theorem macCycle_me_host : (macCycle p cat e d s).me.host =
    match d.effect with
    | .host => (operandA p (eramStep p e s) d.srcA).signExtend 32
    | _ => s.me.host := by
  simp only [macCycle, endCycle_me_host, datapath_me_host]; split <;> simp
@[simp] theorem nopCycle_me_host : (nopCycle p e s).me.host = s.me.host := by simp [nopCycle]
@[simp] theorem macCycle_me_nxt : (macCycle p cat e d s).me.nxt = (eramStep p e s).me.nxt := by simp [macCycle]
@[simp] theorem nopCycle_me_nxt : (nopCycle p e s).me.nxt = (eramStep p e s).me.nxt := by simp [nopCycle]
@[simp] theorem macCycle_me_cur : (macCycle p cat e d s).me.cur = (eramStep p e s).me.cur := by simp [macCycle]
@[simp] theorem nopCycle_me_cur : (nopCycle p e s).me.cur = (eramStep p e s).me.cur := by simp [nopCycle]
@[simp] theorem macCycle_me_rdLatch : (macCycle p cat e d s).me.rdLatch = (eramStep p e s).me.rdLatch := by simp [macCycle]
@[simp] theorem nopCycle_me_rdLatch : (nopCycle p e s).me.rdLatch = (eramStep p e s).me.rdLatch := by simp [nopCycle]
theorem macCycle_me_wrLatch : (macCycle p cat e d s).me.wrLatch =
    match d.effect with
    | .wl => (operandA p (eramStep p e s) d.srcA)
    | _ => s.me.wrLatch := by
  simp only [macCycle, endCycle_me_wrLatch, datapath_me_wrLatch]; split <;> simp
@[simp] theorem nopCycle_me_wrLatch : (nopCycle p e s).me.wrLatch = s.me.wrLatch := by simp [nopCycle]
theorem macCycle_me_varOfs : (macCycle p cat e d s).me.varOfs =
    match d.effect with
    | .vo => (operandA p (eramStep p e s) d.srcA).extractLsb' 8 16
    | _ => s.me.varOfs := by
  simp only [macCycle, endCycle_me_varOfs, datapath_me_varOfs]; split <;> simp
@[simp] theorem nopCycle_me_varOfs : (nopCycle p e s).me.varOfs = s.me.varOfs := by simp [nopCycle]
@[simp] theorem macCycle_me_eramOverlap : (macCycle p cat e d s).me.eramOverlap = (eramStep p e s).me.eramOverlap := by simp [macCycle]
@[simp] theorem nopCycle_me_eramOverlap : (nopCycle p e s).me.eramOverlap = (eramStep p e s).me.eramOverlap := by simp [nopCycle]
theorem macCycle_gram : (macCycle p cat e d s).gram =
    match d.effect with
    | .storeG m => Mem.write s.gram (ea s.me m) (operandA p (eramStep p e s) d.srcA)
    | _ => s.gram := by
  simp only [macCycle, endCycle_gram, datapath_gram]; split <;> simp [ea]
@[simp] theorem nopCycle_gram : (nopCycle p e s).gram = s.gram := by simp [nopCycle]
theorem macCycle_coefBank : (macCycle p cat e d s).coefBank =
    match d.effect with
    | .cw c => Mem.write s.coefBank (bankIndex c) ((operandA p (eramStep p e s) d.srcA).extractLsb' 16 8)
    | _ => s.coefBank := by
  simp only [macCycle, endCycle_coefBank, datapath_coefBank]; split <;> simp
@[simp] theorem nopCycle_coefBank : (nopCycle p e s).coefBank = s.coefBank := by simp [nopCycle]
@[simp] theorem macCycle_eram : (macCycle p cat e d s).eram = (eramStep p e s).eram := by simp [macCycle]
@[simp] theorem nopCycle_eram : (nopCycle p e s).eram = (eramStep p e s).eram := by simp [nopCycle]
@[simp] theorem macCycle_eramPos : (macCycle p cat e d s).eramPos = s.eramPos := by simp [macCycle]
@[simp] theorem nopCycle_eramPos : (nopCycle p e s).eramPos = s.eramPos := by simp [nopCycle]
@[simp] theorem macCycle_faults : (macCycle p cat e d s).faults = s.faults := by simp [macCycle]
@[simp] theorem nopCycle_faults : (nopCycle p e s).faults = s.faults := by simp [nopCycle]
@[simp] theorem macCycle_active : (macCycle p cat e d s).active = s.active := by simp [macCycle]
@[simp] theorem nopCycle_active : (nopCycle p e s).active = s.active := by simp [nopCycle]
@[simp] theorem macCycle_calls : (macCycle p cat e d s).calls = s.calls := by simp [macCycle]
@[simp] theorem nopCycle_calls : (nopCycle p e s).calls = s.calls := by simp [nopCycle]
@[simp] theorem macCycle_turn : (macCycle p cat e d s).turn = s.turn := by simp [macCycle]
@[simp] theorem nopCycle_turn : (nopCycle p e s).turn = s.turn := by simp [nopCycle]
@[simp] theorem macCycle_reply : (macCycle p cat e d s).reply = .ok := by simp [macCycle]
@[simp] theorem nopCycle_reply : (nopCycle p e s).reply = .ok := by simp [nopCycle]

theorem endCycle_core_of_active (c : CoreId) (h : c = s.active.other) :
    (endCycle p cat cond s).core c = s.core c := by
  subst h; simp

@[simp] theorem macCycle_core_other :
    (macCycle p cat e d s).core s.active.other = s.core s.active.other := by
  have h1 := datapath_core_other p (eramStep p e s) d
  rw [eramStep_active, eramStep_core_other] at h1
  rw [macCycle, endCycle_core_of_active _ _ _ _ _ (by simp), h1]

@[simp] theorem nopCycle_core_other :
    (nopCycle p e s).core s.active.other = s.core s.active.other := by
  rw [nopCycle, endCycle_core_of_active _ _ _ _ _ (by simp), eramStep_core_other]

/-! ### Taking the fault -/

section raise
variable (r : Reason)
@[simp] theorem raise_core0 : (raiseUnsupported r s).core0 = s.core0 := rfl
@[simp] theorem raise_core1 : (raiseUnsupported r s).core1 = s.core1 := rfl
@[simp] theorem raise_gram : (raiseUnsupported r s).gram = s.gram := rfl
@[simp] theorem raise_coefBank : (raiseUnsupported r s).coefBank = s.coefBank := rfl
@[simp] theorem raise_eram : (raiseUnsupported r s).eram = s.eram := rfl
@[simp] theorem raise_eramPos : (raiseUnsupported r s).eramPos = s.eramPos := rfl
@[simp] theorem raise_active : (raiseUnsupported r s).active = s.active := rfl
@[simp] theorem raise_calls : (raiseUnsupported r s).calls = s.calls := rfl
@[simp] theorem raise_turn : (raiseUnsupported r s).turn = s.turn := rfl
@[simp] theorem raise_me : (raiseUnsupported r s).me = s.me := rfl
@[simp] theorem raise_core (c : CoreId) : (raiseUnsupported r s).core c = s.core c := by
  cases c <;> rfl
@[simp] theorem raise_faults : (raiseUnsupported r s).faults =
    s.faults ++ [faultRecord r s] := rfl
@[simp] theorem raise_reply : (raiseUnsupported r s).reply =
    .fault (faultRecord r s) := rfl
end raise

end Sys2Proof.Machine
end

