-- ==== Sys2Proof/Laws/Decode.lean ====
section
/-! SUPPORT. For any valid layout (R8): the fields of an assembled word. For any operation map: the
`opf` an operation is written with, and how its word decodes. -/

namespace Sys2Proof

open Sys2Proof.Config (FieldLayout OpMap Encoding)

/-! ### Fields -/

/-- A field reads as what is placed at it. -/
theorem extract_placeField {n : Nat} (lo : Nat) (v : BitVec n) (h : lo + n ≤ 32) :
    (placeField lo v).extractLsb' lo n = v := by
  ext i hi
  simp only [placeField, BitVec.getElem_extractLsb', BitVec.getLsbD_shiftLeft, BitVec.getLsbD_setWidth]
  simp [show lo + i < 32 by omega, show i < 32 by omega, BitVec.getLsbD_eq_getElem hi]

/-- A field reads nothing of what is placed beside it. -/
theorem extract_placeField_disjoint {n : Nat} (lo m lo' : Nat) (v : BitVec n)
    (h : lo + m ≤ lo' ∨ lo' + n ≤ lo) : (placeField lo' v).extractLsb' lo m = 0 := by
  ext i hi
  simp only [placeField, BitVec.getElem_extractLsb', BitVec.getLsbD_shiftLeft, BitVec.getLsbD_setWidth,
    BitVec.ofNat_eq_ofNat, BitVec.getElem_zero]
  rcases h with h | h
  · simp [show lo + i < lo' by omega]
  · simp [BitVec.getLsbD_of_ge v (lo + i - lo') (by omega)]

/-- Each field of an assembled word reads as it was given, the reserved one as 0. -/
theorem assembled_fields (l : FieldLayout) (hl : l.Valid) (e opf : BitVec 5) (ss : BitVec 2)
    (mem coef : Byte) :
    let w := assemble l e opf ss mem coef
    eramCtrlOf l w = e ∧ rsvdOf l w = 0 ∧ opfOf l w = opf ∧ shiftSelOf l w = ss ∧ memOf l w = mem
      ∧ coefOf l w = coef := by
  obtain ⟨hin, hdis⟩ := hl
  simp only [FieldLayout.fields, List.mem_cons, List.not_mem_nil, or_false, forall_eq_or_imp,
    forall_eq, List.pairwise_cons, List.Pairwise.nil, and_true, false_implies, implies_true] at hin hdis
  simp only [assemble, eramCtrlOf, rsvdOf, opfOf, shiftSelOf, memOf, coefOf, BitVec.extractLsb'_or]
  refine ⟨?_, ?_, ?_, ?_, ?_, ?_⟩ <;>
    simp (disch := omega) [extract_placeField, extract_placeField_disjoint]

theorem fieldLayout_valid : fieldLayout.Valid := by decide

section
variable (e opf : BitVec 5) (ss : BitVec 2) (mem coef : Byte)
@[simp] theorem eramCtrlOf_assemble : eramCtrlOf fieldLayout (assemble fieldLayout e opf ss mem coef) = e :=
  (assembled_fields _ fieldLayout_valid ..).1
@[simp] theorem rsvdOf_assemble : rsvdOf fieldLayout (assemble fieldLayout e opf ss mem coef) = 0 :=
  (assembled_fields _ fieldLayout_valid ..).2.1
@[simp] theorem opfOf_assemble : opfOf fieldLayout (assemble fieldLayout e opf ss mem coef) = opf :=
  (assembled_fields _ fieldLayout_valid ..).2.2.1
@[simp] theorem shiftSelOf_assemble :
    shiftSelOf fieldLayout (assemble fieldLayout e opf ss mem coef) = ss :=
  (assembled_fields _ fieldLayout_valid ..).2.2.2.1
@[simp] theorem memOf_assemble : memOf fieldLayout (assemble fieldLayout e opf ss mem coef) = mem :=
  (assembled_fields _ fieldLayout_valid ..).2.2.2.2.1
@[simp] theorem coefOf_assemble : coefOf fieldLayout (assemble fieldLayout e opf ss mem coef) = coef :=
  (assembled_fields _ fieldLayout_valid ..).2.2.2.2.2
end

/-! ### The reference layout in numbers -/

theorem extract_toNat (w : Word) (lo n : Nat) :
    (w.extractLsb' lo n).toNat = w.toNat / 2 ^ lo % 2 ^ n := by
  simp [BitVec.extractLsb'_toNat, Nat.shiftRight_eq_div_pow]

theorem placeField_toNat {n : Nat} (lo : Nat) (v : BitVec n) (h : lo + n ≤ 32) :
    (placeField lo v).toNat = v.toNat * 2 ^ lo := by
  have hv : v.toNat * 2 ^ lo < 2 ^ 32 :=
    calc v.toNat * 2 ^ lo < 2 ^ n * 2 ^ lo := Nat.mul_lt_mul_of_pos_right v.isLt (Nat.two_pow_pos lo)
      _ = 2 ^ (n + lo) := (Nat.pow_add ..).symm
      _ ≤ 2 ^ 32 := Nat.pow_le_pow_right (by omega) (by omega)
  have hn : v.toNat < 2 ^ 32 := lt_of_le_of_lt (Nat.le_mul_of_pos_right _ (Nat.two_pow_pos lo)) hv
  rw [placeField, BitVec.toNat_shiftLeft, BitVec.toNat_setWidth, Nat.mod_eq_of_lt hn,
    Nat.shiftLeft_eq, Nat.mod_eq_of_lt hv]

theorem or_eq_add (a b n : Nat) (h : b < 2 ^ n) : a * 2 ^ n ||| b = a * 2 ^ n + b := by
  rw [← Nat.shiftLeft_eq, Nat.shiftLeft_add_eq_or_of_lt h]

theorem assemble_toNat (e opf : BitVec 5) (ss : BitVec 2) (mem coef : Byte) :
    (assemble fieldLayout e opf ss mem coef).toNat =
      e.toNat * 2 ^ 27 + opf.toNat * 2 ^ 18 + ss.toNat * 2 ^ 16 + mem.toNat * 2 ^ 8 + coef.toNat := by
  have := opf.isLt; have := ss.isLt; have := mem.isLt; have := coef.isLt
  simp (disch := decide) only [assemble, fieldLayout, BitVec.toNat_or, placeField_toNat, pow_zero,
    Nat.mul_one, Nat.or_assoc]
  rw [or_eq_add mem.toNat _ 8 (by omega), or_eq_add ss.toNat _ 16 (by omega),
    or_eq_add opf.toNat _ 18 (by omega), or_eq_add e.toNat _ 27 (by omega)]
  omega

theorem append_toNat {m n : Nat} (x : BitVec m) (y : BitVec n) :
    (x ++ y).toNat = x.toNat * 2 ^ n + y.toNat := by
  rw [BitVec.toNat_append, ← Nat.shiftLeft_add_eq_or_of_lt y.isLt, Nat.shiftLeft_eq]

/-- The assembled word as the concatenation R64 draws. -/
theorem assemble_eq_append (e opf : BitVec 5) (ss : BitVec 2) (mem coef : Byte) :
    assemble fieldLayout e opf ss mem coef = e ++ 0#4 ++ opf ++ ss ++ mem ++ coef := by
  apply BitVec.eq_of_toNat_eq
  rw [assemble_toNat]
  erw [append_toNat, append_toNat, append_toNat, append_toNat, append_toNat]
  simp only [BitVec.toNat_ofNat]
  omega

/-- A word with no reserved bit set is assembled from its fields: no bit is dropped. -/
theorem assemble_fields (w : Word) (h : rsvdOf fieldLayout w = 0) :
    assemble fieldLayout (eramCtrlOf fieldLayout w) (opfOf fieldLayout w) (shiftSelOf fieldLayout w)
      (memOf fieldLayout w) (coefOf fieldLayout w) = w := by
  have hr : w.toNat / 2 ^ 23 % 2 ^ 4 = 0 := by
    have := congrArg BitVec.toNat h
    rwa [rsvdOf, extract_toNat] at this
  have := w.isLt
  apply BitVec.eq_of_toNat_eq
  rw [assemble_toNat, eramCtrlOf, opfOf, shiftSelOf, memOf, coefOf]
  simp only [extract_toNat, fieldLayout]
  omega

/-- The machine's decoder, at the reference layout and map. -/
theorem decode_eq (w : Word) : decode w =
    if rsvdOf fieldLayout w = 0 then
      match opMap (opfOf fieldLayout w) with
      | some cat => instrOf cat (eramCtrlOf fieldLayout w) (shiftSelOf fieldLayout w)
          (memOf fieldLayout w) (coefOf fieldLayout w)
      | none => .ok (.unsupportedOp (eramCtrlOf fieldLayout w) (opfOf fieldLayout w)
          (shiftSelOf fieldLayout w) (memOf fieldLayout w) (coefOf fieldLayout w))
    else .error .reservedBits := rfl

/-! ### Admission in numbers -/

theorem admitsOperand_iff (mem : Byte) : admitsOperand mem = true ↔ mem.toNat < 0xC0 := decide_eq_true_iff
theorem admitsStore_iff (mem : Byte) :
    admitsStore mem = true ↔ 0x05 ≤ mem.toNat ∧ mem.toNat < 0xC0 := decide_eq_true_iff
theorem admitsLatch_iff (mem : Byte) : admitsLatch mem = true ↔ mem = 0 := decide_eq_true_iff

/-! ### Operations -/

theorem mem_allOpf (opf : BitVec 5) : opf ∈ allOpf :=
  List.mem_map.2 ⟨opf.toNat, List.mem_range.2 opf.isLt, by simp⟩

/-- An operation that some `opf` selects is written with an `opf` that selects it. -/
theorem opfFor_spec (map : OpMap) (cat : Category)
    (h : allOpf.any (fun opf => map opf == some cat) = true) : map (opfFor map cat) = some cat := by
  rw [List.any_eq_true, ← List.find?_isSome] at h
  obtain ⟨opf, ho⟩ := Option.isSome_iff_exists.1 h
  have := List.find?_some ho
  simpa [opfFor, ho] using this

/-- The machine's operation map reaches every category. -/
theorem opMap_opfFor (cat : Category) : opMap (opfFor opMap cat) = some cat := by
  cases cat <;> decide

/-- The word of an operation decodes to that operation with its fields. -/
theorem decodeWith_assembleOp (enc : Encoding) (hl : enc.layout.Valid) (cat : Category)
    (h : allOpf.any (fun opf => enc.opMap opf == some cat) = true) (e : BitVec 5) (ss : BitVec 2)
    (mem coef : Byte) : decodeWith enc (assembleOp enc cat e ss mem coef) = instrOf cat e ss mem coef := by
  have f := assembled_fields enc.layout hl e (opfFor enc.opMap cat) ss mem coef
  simp only at f
  simp [decodeWith, assembleOp, f, opfFor_spec _ _ h]

end Sys2Proof
end

