-- ==== Sys2Proof/Laws/Exec.lean ====
section
/-! SUPPORT. What `exec` answers, said once for all instructions: the row of R75 or R76 an instruction
runs, and the cycle or the fault it ends in. -/

namespace Sys2Proof.Machine

open Sys2Proof.Config (Params)

/-- The category a completed cycle records; `nop` stands for the words that have none and never
complete. -/
def categoryOf (i : Instr) : Category := i.category.getD .nop

/-- The row an instruction runs in step 4, if it runs one. -/
def rowOf : Instr → Option Mac
  | .nop .. => none
  | .lda _ ss mem coef => some ⟨.a, .assign, .memI mem, .coef coef, ss, .none⟩
  | .ldb _ ss mem coef => some ⟨.b, .assign, .memI mem, .coef coef, ss, .none⟩
  | .mulc _ ss mem coef => some ⟨.a, .assign, .memI mem, .coef coef, ss, .carry⟩
  | .aca _ ss mem coef => some ⟨.a, .accumulate, .memI mem, .coef coef, ss, .none⟩
  | .acb _ ss mem coef => some ⟨.b, .accumulate, .memI mem, .coef coef, ss, .none⟩
  | .acga _ ss mem coef => some ⟨.a, .accumulate, .memG mem, .coef coef, ss, .none⟩
  | .acgb _ ss mem coef => some ⟨.b, .accumulate, .memG mem, .coef coef, ss, .none⟩
  | .stia _ ss mem coef => some ⟨.a, .accumulate, .pipeSat .a, .coef coef, ss, .storeI mem⟩
  | .stib _ ss mem coef => some ⟨.b, .accumulate, .pipeSat .b, .coef coef, ss, .storeI mem⟩
  | .stga _ ss mem coef => some ⟨.a, .accumulate, .pipeSat .a, .coef coef, ss, .storeG mem⟩
  | .stgb _ ss mem coef => some ⟨.b, .accumulate, .pipeSat .b, .coef coef, ss, .storeG mem⟩
  | .erda _ ss _ coef => some ⟨.a, .accumulate, .rdLatch, .coef coef, ss, .none⟩
  | .erdb _ ss _ coef => some ⟨.b, .accumulate, .rdLatch, .coef coef, ss, .none⟩
  | .ctrlNop _ ss coef => some ⟨.a, .accumulate, .pipeSat .a, .coef coef, ss, .none⟩
  | .ctrlInv _ ss coef => some ⟨.a, .accumulate, .pipeSat .a, .notCoef coef, ss, .none⟩
  | .ctrlIntp _ ss _ => some ⟨.a, .accumulate, .pipeSat .a, .interp, ss, .none⟩
  | .ctrlIntpn _ ss _ => some ⟨.a, .accumulate, .pipeSat .a, .notInterp, ss, .none⟩
  | .ctrlCarry _ ss coef => some ⟨.a, .accumulate, .pipeSat .a, .carryOr coef, ss, .none⟩
  | .ctrlSeti _ ss coef => some ⟨.a, .accumulate, .pipeSat .a, .coef coef, ss, .seti⟩
  | .ctrlCond _ ss coef => some ⟨.a, .accumulate, .pipeSat .a, .coef coef, ss, .cond⟩
  | .ctrlRect _ ss coef => some ⟨.a, .accumulate, .rect, .coef coef, ss, .none⟩
  | .ctrlHost _ ss coef => some ⟨.a, .accumulate, .pipeRaw .a, .coef coef, ss, .host⟩
  | .ctrlWl _ ss coef => some ⟨.a, .accumulate, .pipeSat .a, .coef coef, ss, .wl⟩
  | .ctrlVo _ ss coef => some ⟨.a, .accumulate, .pipeSat .a, .coef coef, ss, .vo⟩
  | .ctrlCw _ ss coef => some ⟨.a, .accumulate, .pipeSat .a, .zero, ss, .cw coef⟩
  | .ctrlCr _ ss coef => some ⟨.a, .accumulate, .pipeSat .a, .bank coef, ss, .none⟩
  | .ctrlJmp .. | .ctrlJmpc .. | .ctrlMix .. | .unsupportedOp .. => none

/-- The whole cycle a legal instruction runs. -/
def cycleOf (p : Params) (i : Instr) (s : State) : State :=
  match rowOf i with
  | none => nopCycle p i.eramCtrl s
  | some d => macCycle p (categoryOf i) i.eramCtrl d s

/-! ### The cycle of any instruction -/

section cycleOf
variable (p : Params) (i : Instr) (s : State)
@[simp] theorem cycleOf_me_pc : (cycleOf p i s).me.pc = nextPc s.me.pc := by
  unfold cycleOf; split <;> simp
@[simp] theorem cycleOf_me_pram : (cycleOf p i s).me.pram = s.me.pram := by
  unfold cycleOf; split <;> simp
@[simp] theorem cycleOf_me_iramPos : (cycleOf p i s).me.iramPos = s.me.iramPos := by
  unfold cycleOf; split <;> simp
@[simp] theorem cycleOf_eramPos : (cycleOf p i s).eramPos = s.eramPos := by
  unfold cycleOf; split <;> simp
@[simp] theorem cycleOf_faults : (cycleOf p i s).faults = s.faults := by
  unfold cycleOf; split <;> simp
@[simp] theorem cycleOf_active : (cycleOf p i s).active = s.active := by
  unfold cycleOf; split <;> simp
@[simp] theorem cycleOf_calls : (cycleOf p i s).calls = s.calls := by
  unfold cycleOf; split <;> simp
@[simp] theorem cycleOf_turn : (cycleOf p i s).turn = s.turn := by
  unfold cycleOf; split <;> simp
@[simp] theorem cycleOf_reply : (cycleOf p i s).reply = .ok := by
  unfold cycleOf; split <;> simp
theorem cycleOf_me_nxt : (cycleOf p i s).me.nxt = (eramStep p i.eramCtrl s).me.nxt := by
  unfold cycleOf; split <;> simp
theorem cycleOf_me_cur : (cycleOf p i s).me.cur = (eramStep p i.eramCtrl s).me.cur := by
  unfold cycleOf; split <;> simp
theorem cycleOf_me_rdLatch : (cycleOf p i s).me.rdLatch = (eramStep p i.eramCtrl s).me.rdLatch := by
  unfold cycleOf; split <;> simp
theorem cycleOf_me_eramOverlap : (cycleOf p i s).me.eramOverlap = (eramStep p i.eramCtrl s).me.eramOverlap := by
  unfold cycleOf; split <;> simp
theorem cycleOf_eram : (cycleOf p i s).eram = (eramStep p i.eramCtrl s).eram := by
  unfold cycleOf; split <;> simp
@[simp] theorem cycleOf_core_other : (cycleOf p i s).core s.active.other = s.core s.active.other := by
  unfold cycleOf; split <;> simp
end cycleOf

/-- The reason an illegal instruction raises (R161). -/
def reasonOf : Instr → Reason
  | .unsupportedOp .. => .opcode
  | .ctrlJmp .. | .ctrlJmpc .. | .ctrlMix .. => .subcode
  | _ => .mem

theorem legalOr_eq (b : Bool) (r : Reason) (cycle : State → State) (s : State) :
    legalOr b r cycle s = .next (if b then cycle s else raiseUnsupported r s) := by
  cases b <;> rfl

/-- A legal instruction runs its cycle, an illegal one raises its reason; there is no third case. -/
theorem exec_eq (i : Instr) (s : State) :
    exec i s = .next (if i.legal then cycleOf Config.params i s
      else raiseUnsupported (reasonOf i) s) := by
  cases i <;> first | rfl | exact legalOr_eq ..

theorem exec_legal (i : Instr) (s : State) (h : i.legal = true) :
    exec i s = .next (cycleOf Config.params i s) := by simp [exec_eq, h]

theorem exec_illegal (i : Instr) (s : State) (h : i.legal = false) :
    exec i s = .next (raiseUnsupported (reasonOf i) s) := by simp [exec_eq, h]

/-- The inversion lemma of `exec`: everything it can do. -/
theorem exec_next (i : Instr) (s t : State) (h : exec i s = .next t) :
    (i.legal = true ∧ t = cycleOf Config.params i s) ∨
    (i.legal = false ∧ t = raiseUnsupported (reasonOf i) s) := by
  cases hl : i.legal
  · rw [exec_illegal i s hl] at h
    exact .inr ⟨rfl, by simpa using h.symm⟩
  · rw [exec_legal i s hl] at h
    exact .inl ⟨rfl, by simpa using h.symm⟩

/-- The inversion lemma of `stepCycle`, for any encoding: a legal word's cycle, or the fault. -/
theorem stepCycle_next (enc : Config.Encoding) (c : CoreId) (s t : State)
    (h : stepCycle enc c s = .next t) :
    (∃ i, decodeWith enc (fetch (s.core c)) = .ok i ∧ i.legal = true
      ∧ t = cycleOf Config.params i { s with active := c }) ∨
    ∃ r, t = raiseUnsupported r { s with active := c } := by
  unfold stepCycle at h
  split at h
  · rename_i i hd
    obtain ⟨hl, rfl⟩ | ⟨-, rfl⟩ := exec_next i _ _ h
    · exact .inl ⟨i, hd, hl, rfl⟩
    · exact .inr ⟨_, rfl⟩
  · exact .inr ⟨_, by simpa using h.symm⟩

end Sys2Proof.Machine
end

