-- ==== Sys2Proof/Laws/HostPort.lean ====
section
/-! SUPPORT. Issuing a call changes only the model's own fields. -/

namespace Sys2Proof.Machine

variable (s : State)

@[simp] theorem issueCall_core (c : CoreId) : (issueCall s).core c = s.core c := by
  simp only [issueCall]; split <;> cases c <;> rfl
@[simp] theorem issueCall_core0 : (issueCall s).core0 = s.core0 := by
  simp only [issueCall]; split <;> rfl
@[simp] theorem issueCall_core1 : (issueCall s).core1 = s.core1 := by
  simp only [issueCall]; split <;> rfl
@[simp] theorem issueCall_gram : (issueCall s).gram = s.gram := by
  simp only [issueCall]; split <;> rfl
@[simp] theorem issueCall_coefBank : (issueCall s).coefBank = s.coefBank := by
  simp only [issueCall]; split <;> rfl
@[simp] theorem issueCall_eram : (issueCall s).eram = s.eram := by
  simp only [issueCall]; split <;> rfl
@[simp] theorem issueCall_eramPos : (issueCall s).eramPos = s.eramPos := by
  simp only [issueCall]; split <;> rfl
@[simp] theorem issueCall_faults : (issueCall s).faults = s.faults := by
  simp only [issueCall]; split <;> rfl
@[simp] theorem issueCall_active : (issueCall s).active = s.active := by
  simp only [issueCall]; split <;> rfl

theorem issueCall_of_queued (call : HostCall) (rest : List HostCall) (h : s.calls = call :: rest) :
    issueCall s = { s with calls := rest } := by simp [issueCall, h]

theorem nextCall_of_queued (call : HostCall) (rest : List HostCall) (h : s.calls = call :: rest) :
    nextCall s = call := by simp [nextCall, h]

end Sys2Proof.Machine
end

