-- ==== Sys2Proof/Laws/Mem.lean ====
section
/-! SUPPORT. The laws of a space: a read after a write, the other cells, the canonical form. -/

namespace Sys2Proof.Machine

variable {w : Nat}

@[simp] theorem Mem.read_nil (a : Nat) : Mem.read ([] : Mem w) a = 0 := rfl

theorem Mem.read_cons (b : Nat) (v : BitVec w) (m : Mem w) (a : Nat) :
    Mem.read ((b, v) :: m) a = if b = a then v else Mem.read m a := rfl

/-- No entry has the address, so the cell reads 0. -/
theorem Mem.read_of_absent (m : Mem w) (a : Nat) (h : ∀ cell ∈ m, cell.1 ≠ a) :
    Mem.read m a = 0 := by
  induction m with
  | nil => rfl
  | cons head rest ih =>
    obtain ⟨b, v⟩ := head
    have hb : b ≠ a := h (b, v) (by simp)
    simp [Mem.read_cons, hb, ih (fun cell hc => h cell (by simp [hc]))]

theorem Mem.read_filter_other (m : Mem w) (a b : Nat) (h : b ≠ a) :
    Mem.read (m.filter (fun cell => cell.1 != a)) b = Mem.read m b := by
  induction m with
  | nil => rfl
  | cons head rest ih =>
    obtain ⟨x, v⟩ := head
    by_cases hx : x = a
    · subst hx; simp [Mem.read_cons, ih, Ne.symm h]
    · simp [hx, Mem.read_cons, ih]

theorem Mem.read_insertCell_other (m : Mem w) (a b : Nat) (v : BitVec w) (h : b ≠ a) :
    Mem.read (Mem.insertCell m a v) b = Mem.read m b := by
  induction m with
  | nil => simp [Mem.insertCell, Mem.read_cons, Ne.symm h]
  | cons head rest ih =>
    obtain ⟨x, u⟩ := head
    by_cases hx : a < x
    · simp [Mem.insertCell, hx, Mem.read_cons, Ne.symm h]
    · simp [Mem.insertCell, hx, Mem.read_cons, ih]

theorem Mem.read_insertCell_same (m : Mem w) (a : Nat) (v : BitVec w)
    (h : ∀ cell ∈ m, cell.1 ≠ a) : Mem.read (Mem.insertCell m a v) a = v := by
  induction m with
  | nil => simp [Mem.insertCell, Mem.read_cons]
  | cons head rest ih =>
    obtain ⟨x, u⟩ := head
    by_cases hx : a < x
    · simp [Mem.insertCell, hx, Mem.read_cons]
    · have hne : x ≠ a := h (x, u) (by simp)
      simp [Mem.insertCell, hx, Mem.read_cons, hne, ih (fun cell hc => h cell (by simp [hc]))]

theorem Mem.filter_absent (m : Mem w) (a : Nat) :
    ∀ cell ∈ m.filter (fun cell => cell.1 != a), cell.1 ≠ a := by
  intro cell h
  simpa using (List.mem_filter.mp h).2

/-- A read after a write to the same cell gives the value written. -/
@[simp] theorem Mem.read_write_same (m : Mem w) (a : Nat) (v : BitVec w) :
    Mem.read (Mem.write m a v) a = v := by
  by_cases hv : v = 0
  · simp only [Mem.write, hv, if_true]
    exact Mem.read_of_absent _ _ (Mem.filter_absent m a)
  · simp only [Mem.write, hv, if_false]
    exact Mem.read_insertCell_same _ _ _ (Mem.filter_absent m a)

/-- A write leaves every other cell alone. -/
theorem Mem.read_write_other (m : Mem w) (a b : Nat) (v : BitVec w) (h : b ≠ a) :
    Mem.read (Mem.write m a v) b = Mem.read m b := by
  by_cases hv : v = 0
  · simp only [Mem.write, hv, if_true]
    exact Mem.read_filter_other m a b h
  · simp only [Mem.write, hv, if_false]
    rw [Mem.read_insertCell_other _ _ _ _ h, Mem.read_filter_other m a b h]

/-! ### The canonical form -/

theorem Mem.wf_cons (a : Nat) (v : BitVec w) (m : Mem w) :
    Mem.wf ((a, v) :: m) = true ↔ v ≠ 0 ∧ (∀ cell ∈ m, a < cell.1) ∧ Mem.wf m = true := by
  simp [Mem.wf, and_assoc]

theorem Mem.wf_filter (m : Mem w) (keep : Nat × BitVec w → Bool) (h : Mem.wf m = true) :
    Mem.wf (m.filter keep) = true := by
  induction m with
  | nil => rfl
  | cons head rest ih =>
    obtain ⟨a, v⟩ := head
    obtain ⟨hv, hlt, hw⟩ := (Mem.wf_cons a v rest).mp h
    by_cases hk : keep (a, v)
    · rw [List.filter_cons_of_pos hk, Mem.wf_cons]
      exact ⟨hv, fun cell hc => hlt cell (List.mem_filter.mp hc).1, ih hw⟩
    · rw [List.filter_cons_of_neg (by simpa using hk)]
      exact ih hw

theorem Mem.mem_insertCell (m : Mem w) (a : Nat) (v : BitVec w) (cell : Nat × BitVec w) :
    cell ∈ Mem.insertCell m a v ↔ cell = (a, v) ∨ cell ∈ m := by
  induction m with
  | nil => simp [Mem.insertCell]
  | cons head rest ih =>
    obtain ⟨x, u⟩ := head
    by_cases hx : a < x
    · simp [Mem.insertCell, hx]
    · simp only [Mem.insertCell, hx, if_false, List.mem_cons, ih]
      tauto

theorem Mem.wf_insertCell (m : Mem w) (a : Nat) (v : BitVec w) (hv : v ≠ 0)
    (h : Mem.wf m = true) (ha : ∀ cell ∈ m, cell.1 ≠ a) :
    Mem.wf (Mem.insertCell m a v) = true := by
  induction m with
  | nil => simpa [Mem.insertCell, Mem.wf] using hv
  | cons head rest ih =>
    obtain ⟨x, u⟩ := head
    obtain ⟨hu, hlt, hw⟩ := (Mem.wf_cons x u rest).mp h
    have hxa : x ≠ a := ha (x, u) (by simp)
    by_cases hx : a < x
    · simp only [Mem.insertCell, hx, if_true]
      rw [Mem.wf_cons]
      refine ⟨hv, fun cell hc => ?_, h⟩
      rcases List.mem_cons.mp hc with rfl | hr
      · exact hx
      · exact hx.trans (hlt cell hr)
    · simp only [Mem.insertCell, hx, if_false]
      rw [Mem.wf_cons]
      refine ⟨hu, fun cell hc => ?_, ih hw (fun cell hc => ha cell (by simp [hc]))⟩
      rcases (Mem.mem_insertCell rest a v cell).mp hc with rfl | hr
      · exact lt_of_le_of_ne (not_lt.mp hx) hxa
      · exact hlt cell hr

/-- A write keeps the canonical form. -/
theorem Mem.wf_write (m : Mem w) (a : Nat) (v : BitVec w) (h : Mem.wf m = true) :
    Mem.wf (Mem.write m a v) = true := by
  by_cases hv : v = 0
  · simp only [Mem.write, hv, if_true]
    exact Mem.wf_filter m _ h
  · simp only [Mem.write, hv, if_false]
    exact Mem.wf_insertCell _ a v hv (Mem.wf_filter m _ h) (Mem.filter_absent m a)

/-- A write inside the space lists no address outside it. -/
theorem Mem.below_write (m : Mem w) (a : Nat) (v : BitVec w) (size : Nat) (ha : a < size)
    (h : Mem.below m size = true) : Mem.below (Mem.write m a v) size = true := by
  have h' : ∀ cell ∈ m, cell.1 < size := by simpa [Mem.below] using h
  have hf : ∀ cell ∈ m.filter (fun cell => cell.1 != a), cell.1 < size :=
    fun cell hc => h' cell (List.mem_filter.mp hc).1
  by_cases hv : v = 0
  · simp only [Mem.write, hv, if_true, Mem.below, List.all_eq_true, decide_eq_true_eq]
    exact hf
  · simp only [Mem.write, hv, if_false, Mem.below, List.all_eq_true, decide_eq_true_eq]
    intro cell hc
    rcases (Mem.mem_insertCell _ a v cell).mp hc with rfl | hr
    · exact ha
    · exact hf cell hr

/-- Two spaces in canonical form with equal cells are equal data. -/
theorem Mem.read_of_lt (m : Mem w) (a : Nat) (h : ∀ cell ∈ m, a < cell.1) : Mem.read m a = 0 :=
  Mem.read_of_absent m a (fun cell hc => (h cell hc).ne')

theorem Mem.ext_of_wf (m n : Mem w) (hm : Mem.wf m = true) (hn : Mem.wf n = true)
    (h : ∀ a, Mem.read m a = Mem.read n a) : m = n := by
  induction m generalizing n with
  | nil =>
    cases n with
    | nil => rfl
    | cons head rest =>
      obtain ⟨b, v⟩ := head
      obtain ⟨hv, _, _⟩ := (Mem.wf_cons b v rest).mp hn
      have := h b
      simp [Mem.read_cons] at this
      exact absurd this.symm hv
  | cons head rest ih =>
    obtain ⟨a, u⟩ := head
    obtain ⟨hu, hlt, hw⟩ := (Mem.wf_cons a u rest).mp hm
    cases n with
    | nil =>
      have := h a
      simp [Mem.read_cons] at this
      exact absurd this hu
    | cons head' rest' =>
      obtain ⟨b, v⟩ := head'
      obtain ⟨hv, hlt', hw'⟩ := (Mem.wf_cons b v rest').mp hn
      have hab : a = b := by
        rcases lt_trichotomy a b with hl | he | hg
        · have := h a
          rw [Mem.read_cons, if_pos rfl,
            Mem.read_of_lt _ a (by
              intro cell hc
              rcases List.mem_cons.mp hc with rfl | hr
              · exact hl
              · exact hl.trans (hlt' cell hr))] at this
          exact absurd this hu
        · exact he
        · have := h b
          rw [Mem.read_cons (b := b), if_pos rfl,
            Mem.read_of_lt ((a, u) :: rest) b (by
              intro cell hc
              rcases List.mem_cons.mp hc with rfl | hr
              · exact hg
              · exact hg.trans (hlt cell hr))] at this
          exact absurd this.symm hv
      subst hab
      have huv : u = v := by simpa [Mem.read_cons] using h a
      subst huv
      congr 1
      apply ih rest' hw hw'
      intro x
      by_cases hx : a = x
      · subst hx
        rw [Mem.read_of_lt rest a hlt, Mem.read_of_lt rest' a hlt']
      · simpa [Mem.read_cons, hx] using h x

end Sys2Proof.Machine
end

