-- ==== Sys2Proof/Laws/Operands.lean ====
section
/-! SUPPORT. The values of the operand forms as integers: program counter, addresses, operand A and B,
the bits an effect takes, the skipfield. -/

namespace Sys2Proof.Machine

open Sys2Proof.Config (Params)

variable (p : Params)

theorem pc_lt (pc : Pc) : pc.val < 768 := pc.isLt

theorem nextPc_val (pc : Pc) : (nextPc pc).val = (pc.val + 1) % 768 := by simp [nextPc, Fin.val_add]

theorem ea_eq (k : CoreState) (m : Byte) : ea k m = (m.toNat + k.iramPos.toNat) % 256 := by
  simp [ea, BitVec.toNat_add]

theorem ea_lt (k : CoreState) (m : Byte) : ea k m < 256 := (m + k.iramPos).isLt

/-- The classes of `mem` in numbers (R68). -/
theorem memOperand_eq (space : Mem 24) (k : CoreState) (m : Byte) : memOperand p space k m =
    if 5 ≤ m.toNat then Mem.read space (ea k m)
    else if 1 ≤ m.toNat ∧ m.toNat ≤ 4 then literal p m else 0 := rfl

theorem bankIndex_eq (coef : Byte) : bankIndex coef = coef.toNat % 8 := by simp [bankIndex]

theorem bankIndex_lt (coef : Byte) : bankIndex coef < 8 := (coef.extractLsb' 0 3).isLt

theorem clamp_eq_max_min (v lo hi : Int) (h : lo ≤ hi) : clamp v lo hi = max lo (min v hi) := by
  unfold clamp
  split
  · omega
  · split <;> omega

/-- Suppression sees only whether the skipfield is 0 (R116). -/
theorem operandA_toInt (s : State) (src : SourceA) :
    (operandA p s src).toInt = if s.me.skipfield = 0 then (sourceA p s src).toInt else 0 := by
  by_cases h : s.me.skipfield = 0 <;> simp [operandA, suppressed, h]

theorem toInt_not (v : Byte) : (~~~v).toInt = -1 - v.toInt := by
  have h1 := BitVec.toInt_eq_toNat_cond (x := v)
  have h2 := BitVec.toInt_eq_toNat_cond (x := ~~~v)
  have := v.isLt
  rw [h1, h2, BitVec.toNat_not]; split <;> split <;> omega

theorem toInt_high8 (v : Cell) : (v.extractLsb' 16 8).toInt = v.toInt / 2 ^ 16 := by
  have h1 := BitVec.toInt_eq_toNat_cond (x := v)
  have h2 := BitVec.toInt_eq_toNat_cond (x := v.extractLsb' 16 8)
  have := v.isLt
  rw [h1, h2, BitVec.extractLsb'_toNat, Nat.shiftRight_eq_div_pow]; split <;> split <;> omega

theorem toInt_high16 (v : Cell) : (v.extractLsb' 8 16).toInt = v.toInt / 2 ^ 8 := by
  have h1 := BitVec.toInt_eq_toNat_cond (x := v)
  have h2 := BitVec.toInt_eq_toNat_cond (x := v.extractLsb' 8 16)
  have := v.isLt
  rw [h1, h2, BitVec.extractLsb'_toNat, Nat.shiftRight_eq_div_pow]; split <;> split <;> omega

theorem skipN_eq : p.skipN = (p.skipN - 1) + 1 := by simp [Params.skipN]; omega

theorem shiftSkip_false (n : Nat) : shiftSkip p n false = n / 2 := by
  simp [shiftSkip, Nat.shiftRight_eq_div_pow]

theorem shiftSkip_true (n : Nat) (h : n < 2 ^ p.skipN) :
    shiftSkip p n true = n / 2 + 2 ^ (p.skipN - 1) := by
  have hlt : n / 2 < 2 ^ (p.skipN - 1) := by
    rw [skipN_eq, pow_succ] at h; omega
  have := Nat.two_pow_add_eq_or_of_lt hlt 1
  rw [shiftSkip, Nat.shiftRight_eq_div_pow, pow_one, if_pos rfl, Nat.one_shiftLeft, Nat.or_comm]
  simp only [Nat.mul_one] at this
  omega

/-- The skipfield keeps its width (R24). -/
theorem shiftSkip_lt (n : Nat) (cond : Bool) (h : n < 2 ^ p.skipN) :
    shiftSkip p n cond < 2 ^ p.skipN := by
  have h' := h
  rw [skipN_eq, pow_succ] at h'
  cases cond
  · rw [shiftSkip_false]; omega
  · rw [shiftSkip_true p n h]; rw [skipN_eq, pow_succ]; simp only [Nat.add_sub_cancel]; omega

end Sys2Proof.Machine
end

