-- ==== Sys2Proof/Laws/PerInstr.lean ====
section
/-! SUPPORT. Facts about every instruction as syntax, one lemma per constructor. -/

namespace Sys2Proof.Laws.Layout

/-- The word of an instruction has its reserved bits 0 (R73) and carries the instruction's eramCtrl
field (R72). -/
def Statement (i : Instr) : Prop := rsvdOf fieldLayout (encode i) = 0 ∧ eramCtrlOf fieldLayout (encode i) = i.eramCtrl

theorem nop (e : BitVec 5) (ss : BitVec 2) (mem coef : Byte) : Statement (.nop e ss mem coef) :=
  ⟨rsvdOf_assemble .., eramCtrlOf_assemble ..⟩
theorem lda (e : BitVec 5) (ss : BitVec 2) (mem coef : Byte) : Statement (.lda e ss mem coef) :=
  ⟨rsvdOf_assemble .., eramCtrlOf_assemble ..⟩
theorem ldb (e : BitVec 5) (ss : BitVec 2) (mem coef : Byte) : Statement (.ldb e ss mem coef) :=
  ⟨rsvdOf_assemble .., eramCtrlOf_assemble ..⟩
theorem mulc (e : BitVec 5) (ss : BitVec 2) (mem coef : Byte) : Statement (.mulc e ss mem coef) :=
  ⟨rsvdOf_assemble .., eramCtrlOf_assemble ..⟩
theorem aca (e : BitVec 5) (ss : BitVec 2) (mem coef : Byte) : Statement (.aca e ss mem coef) :=
  ⟨rsvdOf_assemble .., eramCtrlOf_assemble ..⟩
theorem acb (e : BitVec 5) (ss : BitVec 2) (mem coef : Byte) : Statement (.acb e ss mem coef) :=
  ⟨rsvdOf_assemble .., eramCtrlOf_assemble ..⟩
theorem acga (e : BitVec 5) (ss : BitVec 2) (mem coef : Byte) : Statement (.acga e ss mem coef) :=
  ⟨rsvdOf_assemble .., eramCtrlOf_assemble ..⟩
theorem acgb (e : BitVec 5) (ss : BitVec 2) (mem coef : Byte) : Statement (.acgb e ss mem coef) :=
  ⟨rsvdOf_assemble .., eramCtrlOf_assemble ..⟩
theorem stia (e : BitVec 5) (ss : BitVec 2) (mem coef : Byte) : Statement (.stia e ss mem coef) :=
  ⟨rsvdOf_assemble .., eramCtrlOf_assemble ..⟩
theorem stib (e : BitVec 5) (ss : BitVec 2) (mem coef : Byte) : Statement (.stib e ss mem coef) :=
  ⟨rsvdOf_assemble .., eramCtrlOf_assemble ..⟩
theorem stga (e : BitVec 5) (ss : BitVec 2) (mem coef : Byte) : Statement (.stga e ss mem coef) :=
  ⟨rsvdOf_assemble .., eramCtrlOf_assemble ..⟩
theorem stgb (e : BitVec 5) (ss : BitVec 2) (mem coef : Byte) : Statement (.stgb e ss mem coef) :=
  ⟨rsvdOf_assemble .., eramCtrlOf_assemble ..⟩
theorem erda (e : BitVec 5) (ss : BitVec 2) (mem coef : Byte) : Statement (.erda e ss mem coef) :=
  ⟨rsvdOf_assemble .., eramCtrlOf_assemble ..⟩
theorem erdb (e : BitVec 5) (ss : BitVec 2) (mem coef : Byte) : Statement (.erdb e ss mem coef) :=
  ⟨rsvdOf_assemble .., eramCtrlOf_assemble ..⟩
theorem ctrlNop (e : BitVec 5) (ss : BitVec 2) (coef : Byte) : Statement (.ctrlNop e ss coef) :=
  ⟨rsvdOf_assemble .., eramCtrlOf_assemble ..⟩
theorem ctrlInv (e : BitVec 5) (ss : BitVec 2) (coef : Byte) : Statement (.ctrlInv e ss coef) :=
  ⟨rsvdOf_assemble .., eramCtrlOf_assemble ..⟩
theorem ctrlIntp (e : BitVec 5) (ss : BitVec 2) (coef : Byte) : Statement (.ctrlIntp e ss coef) :=
  ⟨rsvdOf_assemble .., eramCtrlOf_assemble ..⟩
theorem ctrlIntpn (e : BitVec 5) (ss : BitVec 2) (coef : Byte) : Statement (.ctrlIntpn e ss coef) :=
  ⟨rsvdOf_assemble .., eramCtrlOf_assemble ..⟩
theorem ctrlCarry (e : BitVec 5) (ss : BitVec 2) (coef : Byte) : Statement (.ctrlCarry e ss coef) :=
  ⟨rsvdOf_assemble .., eramCtrlOf_assemble ..⟩
theorem ctrlSeti (e : BitVec 5) (ss : BitVec 2) (coef : Byte) : Statement (.ctrlSeti e ss coef) :=
  ⟨rsvdOf_assemble .., eramCtrlOf_assemble ..⟩
theorem ctrlCond (e : BitVec 5) (ss : BitVec 2) (coef : Byte) : Statement (.ctrlCond e ss coef) :=
  ⟨rsvdOf_assemble .., eramCtrlOf_assemble ..⟩
theorem ctrlRect (e : BitVec 5) (ss : BitVec 2) (coef : Byte) : Statement (.ctrlRect e ss coef) :=
  ⟨rsvdOf_assemble .., eramCtrlOf_assemble ..⟩
theorem ctrlJmp (e : BitVec 5) (ss : BitVec 2) (coef : Byte) : Statement (.ctrlJmp e ss coef) :=
  ⟨rsvdOf_assemble .., eramCtrlOf_assemble ..⟩
theorem ctrlJmpc (e : BitVec 5) (ss : BitVec 2) (coef : Byte) : Statement (.ctrlJmpc e ss coef) :=
  ⟨rsvdOf_assemble .., eramCtrlOf_assemble ..⟩
theorem ctrlHost (e : BitVec 5) (ss : BitVec 2) (coef : Byte) : Statement (.ctrlHost e ss coef) :=
  ⟨rsvdOf_assemble .., eramCtrlOf_assemble ..⟩
theorem ctrlWl (e : BitVec 5) (ss : BitVec 2) (coef : Byte) : Statement (.ctrlWl e ss coef) :=
  ⟨rsvdOf_assemble .., eramCtrlOf_assemble ..⟩
theorem ctrlVo (e : BitVec 5) (ss : BitVec 2) (coef : Byte) : Statement (.ctrlVo e ss coef) :=
  ⟨rsvdOf_assemble .., eramCtrlOf_assemble ..⟩
theorem ctrlCw (e : BitVec 5) (ss : BitVec 2) (coef : Byte) : Statement (.ctrlCw e ss coef) :=
  ⟨rsvdOf_assemble .., eramCtrlOf_assemble ..⟩
theorem ctrlCr (e : BitVec 5) (ss : BitVec 2) (coef : Byte) : Statement (.ctrlCr e ss coef) :=
  ⟨rsvdOf_assemble .., eramCtrlOf_assemble ..⟩
theorem ctrlMix (e : BitVec 5) (ss : BitVec 2) (coef : Byte) : Statement (.ctrlMix e ss coef) :=
  ⟨rsvdOf_assemble .., eramCtrlOf_assemble ..⟩
theorem unsupportedOp (e opf : BitVec 5) (ss : BitVec 2) (mem coef : Byte) :
    Statement (.unsupportedOp e opf ss mem coef) :=
  ⟨rsvdOf_assemble .., eramCtrlOf_assemble ..⟩

end Sys2Proof.Laws.Layout
end

