-- ==== Sys2Proof/Laws/Timing.lean ====
section
/-! SUPPORT. A completed cycle keeps the timing of the ERAM controller (R93, R99). -/

namespace Sys2Proof.Machine

open Sys2Proof.Config (Params)

theorem windowAge_eq (k : CoreState) :
    windowAge k = (k.pc.val + 768 - k.nxt.pcStart.val) % 768 := rfl

theorem commitIn_eq (k : CoreState) :
    commitIn k = (k.cur.pcCommit.val + 768 - k.pc.val) % 768 := rfl

/-- Outside the promotion cycle the sampling step leaves the committing transaction alone. -/
theorem eramSample_cur_of_not_full (e : BitVec 5) (k : CoreState)
    (h : ¬ (k.nxt.active = true ∧ k.nxt.w = 5)) : (eramSample e k).cur = k.cur := by
  by_cases ha : k.nxt.active = true
  · rw [eramSample_of_window e k ha (fun h5 => h ⟨ha, h5⟩)]; unfold eramWindow; split <;> rfl
  · rw [eramSample_of_idle e k (by simpa using ha)]; unfold eramStart; split <;> rfl

/-- The sampling step's transactions depend on the transactions and the pc alone. -/
theorem eramSample_congr (e : BitVec 5) (k l : CoreState) (hn : k.nxt = l.nxt) (hc : k.cur = l.cur)
    (hp : k.pc = l.pc) : (eramSample e k).nxt = (eramSample e l).nxt
      ∧ (eramSample e k).cur = (eramSample e l).cur := by
  unfold eramSample eramPromote
  rw [hn, hc]
  split
  · unfold eramStart eramWindow; simp only [Bool.false_eq_true, if_false]; rw [hp]; split <;> simp
  · simp only []; rw [hn]; split
    · unfold eramWindow; rw [hn]; split <;> simp [hn, hc]
    · unfold eramStart; rw [hp]; split <;> simp [hn, hc]

/-- A cycle that ends with the next pc and with the transactions the two controller steps leave keeps
the timing. -/
theorem eramTimed_cycle (e : BitVec 5) (k : CoreState) (ht : k.EramTimed) (k' : CoreState)
  (hpc : k'.pc = nextPc k.pc)
  (hn : k'.nxt = (eramSample e { k with cur := { k.cur with active := k.cur.active && !commitDue k } }).nxt)
  (hc : k'.cur = (eramSample e { k with cur := { k.cur with active := k.cur.active && !commitDue k } }).cur) : k'.EramTimed := by
  obtain ⟨h1, h2, h3⟩ := ht
  have p1 := pc_lt k.pc
  have p2 := pc_lt k.nxt.pcStart
  have p3 := pc_lt k.cur.pcCommit
  have hpv : k'.pc.val = (k.pc.val + 1) % 768 := by rw [hpc, nextPc_val]
  have w6 := k.nxt.w.isLt
  have due : commitDue k = true ↔ k.cur.active = true ∧ k.pc.val = k.cur.pcCommit.val := by
    simp [commitDue, Fin.ext_iff]
  simp only [windowAge_eq] at h1
  simp only [commitIn_eq] at h2 h3
  have lat : ∀ p : Pc, (p + eramLatency).val = (p.val + 10) % 768 := by intro p; simp [eramLatency, Fin.val_add]
  by_cases hA : k.nxt.active = true
  · obtain ⟨ha, hb⟩ := h1 hA
    by_cases h5 : k.nxt.w = 5
    · have h5' : k.nxt.w.val = 5 := by rw [h5]; rfl
      by_cases hs : e[4] = true
      · simp [eramSample, eramPromote, hA, h5, eramStart, hs] at hn hc
        constructor
        · intro _; rw [windowAge_eq]; rw [hn]; simp; omega
        · intro _; rw [commitIn_eq]; rw [hc]; simp only [lat]; omega
        · intro _ _; rw [commitIn_eq]; rw [hc, hn]; simp only [lat]; show _ + 1 ≤ 5;  omega
      · simp [eramSample, eramPromote, hA, h5, eramStart, hs] at hn hc
        constructor
        · rw [hn]; simp
        · intro _; rw [commitIn_eq]; rw [hc]; simp only [lat]; omega
        · rw [hn]; simp
    · have hw : 1 ≤ k.nxt.w.val ∧ k.nxt.w.val ≤ 4 := by
        have : k.nxt.w.val ≠ 5 := fun h => h5 (Fin.ext h)
        omega
      simp [eramSample, eramPromote, hA, h5, eramWindow, hw] at hn hc
      have v1 : (k.nxt.w + 1).val = k.nxt.w.val + 1 := by
        simp [Fin.val_add]; omega
      constructor
      · intro _; rw [windowAge_eq]; rw [hn]; simp only [v1]; omega
      · rw [hc]; simp only [Bool.and_eq_true, Bool.not_eq_true']
        rintro ⟨c1, c2⟩; have := h2 c1; rw [commitIn_eq]; rw [hc]; simp only []
        have : ¬ (k.pc.val = k.cur.pcCommit.val) := by intro h; simp [due.2 ⟨c1, h⟩] at c2
        omega
      · intro _; rw [hc]; simp only [Bool.and_eq_true, Bool.not_eq_true']
        rintro ⟨c1, c2⟩; have := h3 hA c1; rw [commitIn_eq]; rw [hc, hn]; simp only [v1]
        have : ¬ (k.pc.val = k.cur.pcCommit.val) := by intro h; simp [due.2 ⟨c1, h⟩] at c2
        omega
  · have hA' : k.nxt.active = false := by simpa using hA
    by_cases hs : e[4] = true
    · simp [eramSample, eramPromote, hA', eramStart, hs] at hn hc
      constructor
      · intro _; rw [windowAge_eq]; rw [hn]; simp; omega
      · rw [hc]; simp only [Bool.and_eq_true, Bool.not_eq_true']
        rintro ⟨c1, c2⟩; have := h2 c1; rw [commitIn_eq]; rw [hc]; simp only []
        have : ¬ (k.pc.val = k.cur.pcCommit.val) := by intro h; simp [due.2 ⟨c1, h⟩] at c2
        omega
      · intro _; rw [hc]; simp only [Bool.and_eq_true, Bool.not_eq_true']
        rintro ⟨c1, c2⟩; have := h2 c1; rw [commitIn_eq]; rw [hc, hn]; show _ + 1 ≤ 5; simp only []
        have : ¬ (k.pc.val = k.cur.pcCommit.val) := by intro h; simp [due.2 ⟨c1, h⟩] at c2
        omega
    · simp [eramSample, eramPromote, hA', eramStart, hs] at hn hc
      constructor
      · rw [hn]; simp [hA']
      · rw [hc]; simp only [Bool.and_eq_true, Bool.not_eq_true']
        rintro ⟨c1, c2⟩; have := h2 c1; rw [commitIn_eq]; rw [hc]; simp only []
        have : ¬ (k.pc.val = k.cur.pcCommit.val) := by intro h; simp [due.2 ⟨c1, h⟩] at c2
        omega
      · rw [hn]; simp [hA']

/-- Every legal instruction's cycle keeps the timing of the core that runs it. -/
theorem cycleOf_eramTimed (p : Params) (i : Instr) (s : State) (ht : s.me.EramTimed) :
    (cycleOf p i s).me.EramTimed := by
  have h := eramSample_congr i.eramCtrl (eramCommit p s).me
    { s.me with cur := { s.me.cur with active := s.me.cur.active && !commitDue s.me } }
    (by simp) (by simp) (by simp)
  refine eramTimed_cycle i.eramCtrl s.me ht _ (by simp) ?_ ?_
  · rw [cycleOf_me_nxt, eramStep_me]; exact h.1
  · rw [cycleOf_me_cur, eramStep_me]; exact h.2

end Sys2Proof.Machine
end

