-- ==== Sys2Proof/Tests/Slice0.lean ====
section
/-! SUPPORT. The model's own tests: well-formedness, decoding, one vector or two of spec/95_test_vectors.md
for each instruction, crunch, addresses, host calls; and, for every obligation with hypotheses, a witness
that they can be met. Expected values come from spec/, and each theorem names its source. -/

namespace Sys2Proof.Tests

open Sys2Proof.Machine Sys2Proof.Claims

/-! ### Helpers -/

/-- The reference values of R8, for the operations that take the parameters; LIT1, LIT3, LIT4, which have
none, are 0 here. -/
def refParams : Config.Params :=
  { lit1 := 0, lit3 := 0, lit4 := 0, eramExtra := 0, crunchT := ![8, 7, 6, 5, 4], skipExtra := 0
    setCond := fun x => x.slt 0 }

/-- Core 0 at reset. -/
def k0 : CoreState := State.reset.core0

/-- The reset state with core 0 replaced. -/
def on (k : CoreState) : State := { State.reset with core0 := k }

/-- `k` with A = `v`; with B = `v`. -/
def setA (v : Word) (k : CoreState) : CoreState := { k with a := { k.a with rawFull := v } }
def setB (v : Word) (k : CoreState) : CoreState := { k with b := { k.b with rawFull := v } }

/-- `k` with pipe(A) = `v`; with pipe(B) = `v`. -/
def pipeA (v : Word) (k : CoreState) : CoreState := { k with a := { k.a with hist := #v[v, 0, 0] } }
def pipeB (v : Word) (k : CoreState) : CoreState := { k with b := { k.b with hist := #v[v, 0, 0] } }

/-- The next state of an outcome. -/
def out (o : Host.Outcome State Fault Refusal) : State :=
  match o with
  | .next t => t
  | .fault f => nomatch f
  | .refused _ => State.reset

/-- The cycle of the word `w`, placed at pc of the core that `s` names. -/
def runWord (w : Word) (s : State) : State :=
  out (stepCycle referenceEncoding s.active (placeAtPc s.active w s))

/-! ### Well-formedness -/

/-- opf 4 has a category (R75), so no word is `unsupportedOp` with opf 4; opf 12, 16 and 31 have none. -/
theorem test_wellformed_rejects_mapped_opf :
    (Instr.unsupportedOp 0 4 0 0 0).wellFormed = false
    ∧ (Instr.unsupportedOp 0 13 0 0 0).wellFormed = false
    ∧ (Instr.unsupportedOp 0 15 0 0 0).wellFormed = false
    ∧ (Instr.unsupportedOp 0 12 0 0 0).wellFormed = true
    ∧ (Instr.unsupportedOp 0 16 0 0 0).wellFormed = true
    ∧ (Instr.unsupportedOp 0 31 0 0 0).wellFormed = true := by decide

/-- A layout whose fields overlap, or leave the word, is none that R8 admits. -/
theorem test_layout_must_be_disjoint :
    ¬ ({ fieldLayout with memLo := 7 } : Config.FieldLayout).Valid
    ∧ ¬ ({ fieldLayout with eramCtrlLo := 28 } : Config.FieldLayout).Valid := by decide

/-! ### Decoding: a word of every constructor, its fields written out by R64
(eramCtrl, reserved, opf, shiftSel, mem, coef) -/

theorem test_decode_mac_family :
    decode (0b01111#5 ++ 0b0000#4 ++ 0b00000#5 ++ 0b01#2 ++ 0b01100011#8 ++ 0b11110010#8)
      = .ok (.nop 15 1 0x63 0xF2)
    ∧ decode (0b00100#5 ++ 0b0000#4 ++ 0b00001#5 ++ 0b00#2 ++ 0b01111101#8 ++ 0b10000100#8)
      = .ok (.lda 4 0 0x7D 0x84)
    ∧ decode (0b01110#5 ++ 0b0000#4 ++ 0b00010#5 ++ 0b01#2 ++ 0b10111100#8 ++ 0b11110000#8)
      = .ok (.ldb 14 1 0xBC 0xF0)
    ∧ decode (0b11110#5 ++ 0b0000#4 ++ 0b00011#5 ++ 0b11#2 ++ 0b10101000#8 ++ 0b01001101#8)
      = .ok (.mulc 30 3 0xA8 0x4D)
    ∧ decode (0b01110#5 ++ 0b0000#4 ++ 0b00100#5 ++ 0b01#2 ++ 0b10001010#8 ++ 0b11000111#8)
      = .ok (.aca 14 1 0x8A 0xC7)
    ∧ decode (0b00000#5 ++ 0b0000#4 ++ 0b00101#5 ++ 0b00#2 ++ 0b00101101#8 ++ 0b00010101#8)
      = .ok (.acb 0 0 0x2D 0x15)
    ∧ decode (0b10011#5 ++ 0b0000#4 ++ 0b00110#5 ++ 0b00#2 ++ 0b01001001#8 ++ 0b11110010#8)
      = .ok (.acga 19 0 0x49 0xF2)
    ∧ decode (0b11000#5 ++ 0b0000#4 ++ 0b00111#5 ++ 0b11#2 ++ 0b01101010#8 ++ 0b11100011#8)
      = .ok (.acgb 24 3 0x6A 0xE3)
    ∧ decode (0b01000#5 ++ 0b0000#4 ++ 0b01110#5 ++ 0b10#2 ++ 0b00000000#8 ++ 0b00010010#8)
      = .ok (.erda 8 2 0x00 0x12)
    ∧ decode (0b01000#5 ++ 0b0000#4 ++ 0b01111#5 ++ 0b11#2 ++ 0b00000000#8 ++ 0b10000100#8)
      = .ok (.erdb 8 3 0x00 0x84) := by decide

theorem test_decode_store_family :
    decode (0b11011#5 ++ 0b0000#4 ++ 0b01000#5 ++ 0b10#2 ++ 0b01110000#8 ++ 0b11000101#8)
      = .ok (.stia 27 2 0x70 0xC5)
    ∧ decode (0b10110#5 ++ 0b0000#4 ++ 0b01001#5 ++ 0b11#2 ++ 0b10011010#8 ++ 0b01110110#8)
      = .ok (.stib 22 3 0x9A 0x76)
    ∧ decode (0b10101#5 ++ 0b0000#4 ++ 0b01010#5 ++ 0b00#2 ++ 0b01001100#8 ++ 0b01010011#8)
      = .ok (.stga 21 0 0x4C 0x53)
    ∧ decode (0b10100#5 ++ 0b0000#4 ++ 0b01011#5 ++ 0b00#2 ++ 0b10111011#8 ++ 0b01101100#8)
      = .ok (.stgb 20 0 0xBB 0x6C) := by decide

theorem test_decode_control_family :
    decode (0b10001#5 ++ 0b0000#4 ++ 0b01101#5 ++ 0b10#2 ++ 0b11000000#8 ++ 0b00111111#8)
      = .ok (.ctrlNop 17 2 0x3F)
    ∧ decode (0b00100#5 ++ 0b0000#4 ++ 0b01101#5 ++ 0b11#2 ++ 0b11000001#8 ++ 0b11110111#8)
      = .ok (.ctrlInv 4 3 0xF7)
    ∧ decode (0b00101#5 ++ 0b0000#4 ++ 0b01101#5 ++ 0b10#2 ++ 0b11000010#8 ++ 0b00100010#8)
      = .ok (.ctrlIntp 5 2 0x22)
    ∧ decode (0b11010#5 ++ 0b0000#4 ++ 0b01101#5 ++ 0b01#2 ++ 0b11000011#8 ++ 0b00001010#8)
      = .ok (.ctrlIntpn 26 1 0x0A)
    ∧ decode (0b10010#5 ++ 0b0000#4 ++ 0b01101#5 ++ 0b11#2 ++ 0b11000100#8 ++ 0b11010100#8)
      = .ok (.ctrlCarry 18 3 0xD4)
    ∧ decode (0b00111#5 ++ 0b0000#4 ++ 0b01101#5 ++ 0b00#2 ++ 0b11000101#8 ++ 0b00010111#8)
      = .ok (.ctrlSeti 7 0 0x17)
    ∧ decode (0b11000#5 ++ 0b0000#4 ++ 0b01101#5 ++ 0b10#2 ++ 0b11000110#8 ++ 0b10001110#8)
      = .ok (.ctrlCond 24 2 0x8E)
    ∧ decode (0b01111#5 ++ 0b0000#4 ++ 0b01101#5 ++ 0b00#2 ++ 0b11000111#8 ++ 0b10011110#8)
      = .ok (.ctrlRect 15 0 0x9E)
    ∧ decode (0b00000#5 ++ 0b0000#4 ++ 0b01101#5 ++ 0b00#2 ++ 0b11001000#8 ++ 0b00110111#8)
      = .ok (.ctrlJmp 0 0 0x37)
    ∧ decode (0b00010#5 ++ 0b0000#4 ++ 0b01101#5 ++ 0b01#2 ++ 0b11001001#8 ++ 0b11010000#8)
      = .ok (.ctrlJmpc 2 1 0xD0)
    ∧ decode (0b10010#5 ++ 0b0000#4 ++ 0b01101#5 ++ 0b10#2 ++ 0b11001010#8 ++ 0b01001111#8)
      = .ok (.ctrlHost 18 2 0x4F)
    ∧ decode (0b00010#5 ++ 0b0000#4 ++ 0b01101#5 ++ 0b10#2 ++ 0b11001011#8 ++ 0b10100000#8)
      = .ok (.ctrlWl 2 2 0xA0)
    ∧ decode (0b10111#5 ++ 0b0000#4 ++ 0b01101#5 ++ 0b01#2 ++ 0b11001100#8 ++ 0b11000001#8)
      = .ok (.ctrlVo 23 1 0xC1)
    ∧ decode (0b11000#5 ++ 0b0000#4 ++ 0b01101#5 ++ 0b11#2 ++ 0b11001101#8 ++ 0b11000101#8)
      = .ok (.ctrlCw 24 3 0xC5)
    ∧ decode (0b00110#5 ++ 0b0000#4 ++ 0b01101#5 ++ 0b10#2 ++ 0b11001110#8 ++ 0b11011100#8)
      = .ok (.ctrlCr 6 2 0xDC)
    ∧ decode (0b01111#5 ++ 0b0000#4 ++ 0b01101#5 ++ 0b10#2 ++ 0b11001111#8 ++ 0b11011111#8)
      = .ok (.ctrlMix 15 2 0xDF) := by decide

theorem test_decode_unsupported_op :
    decode (0b00001#5 ++ 0b0000#4 ++ 0b01100#5 ++ 0b10#2 ++ 0x12#8 ++ 0x34#8)
      = .ok (.unsupportedOp 1 12 2 0x12 0x34)
    ∧ decode (0b00001#5 ++ 0b0000#4 ++ 0b11111#5 ++ 0b10#2 ++ 0x12#8 ++ 0x34#8)
      = .ok (.unsupportedOp 1 31 2 0x12 0x34) := by decide

/-- 95_test_vectors.md 2.1, the rows the decoder rejects. -/
theorem test_decode_rejects_by_name :
    decode 0x00800000#32 = .error .reservedBits ∧ decode 0x07FC0000#32 = .error .reservedBits
    ∧ decode 0x00B4C800#32 = .error .reservedBits
    ∧ decode 0x0034BF00#32 = .error .mem ∧ decode 0x0034D000#32 = .error .mem := by decide

/-- 95_test_vectors.md 2.1: the outcome of each row, by its word. -/
theorem test_word_reasons :
    wordReason 0x00000000#32 = none ∧ wordReason 0xF800FFFF#32 = none
    ∧ wordReason 0x0004BF00#32 = none ∧ wordReason 0x0004C000#32 = some .mem
    ∧ wordReason 0x00200500#32 = none ∧ wordReason 0x00200400#32 = some .mem
    ∧ wordReason 0x00380000#32 = none ∧ wordReason 0x00380100#32 = some .mem
    ∧ wordReason 0x0034CA00#32 = none ∧ wordReason 0x0034C800#32 = some .subcode
    ∧ wordReason 0x0034C900#32 = some .subcode ∧ wordReason 0x0034CF00#32 = some .subcode
    ∧ wordReason 0x0034BF00#32 = some .mem ∧ wordReason 0x00300000#32 = some .opcode
    ∧ wordReason 0x00C00000#32 = some .reservedBits
    ∧ wordReason 0x00B4C800#32 = some .reservedBits := by decide

/-- R64, R81: a word as the table numbers it. -/
theorem test_decode_table_word :
    decodeTableWord 32 0x0011027F = some (.aca 0 1 0x02 0x7F) ∧ decodeTableWord 32 0x00800000 = none := by
  decide

/-! ### One cycle of each instruction (95_test_vectors.md 2.3 to 2.5; the family files' examples) -/

/-- M18. -/
theorem test_nop_start :
    (runWord 0x80000000#32 (on { k0 with pc := 7 })).me.nxt
      = { active := true, write := false, var := false, pcStart := 7, acc := 0, w := 1 } := by decide

/-- M19. -/
theorem test_nop_ignores_fields :
    let t := runWord 0xF800FFFF#32 (on (setA 5 k0))
    t.me.nxt = { active := true, write := true, var := true, pcStart := 0, acc := 0, w := 1 }
      ∧ t.me.a.rawFull = 5 ∧ t.me.iram = [] := by decide

/-- M2. -/
theorem test_lda_literal :
    (runWord 0x00040280#32 (on k0)).me.a.rawFull = 0xFFFFFC00#32 := by decide

/-- M16. -/
theorem test_lda_suppressed :
    let t := runWord 0x0004027F#32 (on { setA 0x1234 k0 with skipfield := 1 })
    t.me.a.rawFull = 0 ∧ t.me.skipfield = 0 := by decide

/-- M7. -/
theorem test_ldb_smallest_product :
    (runWord 0x000B1080#32 (on { k0 with iram := [(0x10, 0x7FFFFF)] })).me.b.rawFull = 0xF8000010#32 := by decide

/-- R131's example. -/
theorem test_ldb_example :
    (runWord 0x00081080#32 (on { k0 with iram := [(0x10, 0x123456)] })).me.b.rawFull = 0xFFEDCBAA#32 := by decide

/-- M9. -/
theorem test_mulc_carry :
    let t := runWord 0x000F2080#32 (on { k0 with iram := [(0x20, 0x7FFFFF)] })
    t.me.a.rawFull = 0xF8000010#32 ∧ t.me.carry = 0x80#8 ∧ t.me.prevOp = .mulc := by decide

/-- M8. -/
theorem test_mulc_floor :
    let t := runWord 0x000C2001#32 (on { k0 with iram := [(0x20, 0xFFFFFF)] })
    t.me.a.rawFull = 0xFFFFFFFF#32 ∧ t.me.carry = 0xFF#8 := by decide

/-- M10. -/
theorem test_aca_wraps_up :
    (runWord 0x00101001#32 (on { setA 0x1FFFFFFF k0 with iram := [(0x10, 0x80)] })).me.a.rawFull
      = 0xE0000000#32 := by decide

/-- M11. -/
theorem test_aca_wraps_down :
    (runWord 0x00101001#32 (on { setA 0xE0000000 k0 with iram := [(0x10, 0xFFFFFF)] })).me.a.rawFull
      = 0x1FFFFFFF#32 := by decide

/-- M12. -/
theorem test_acb :
    (runWord 0x00150240#32 (on (setB 0x100 k0))).me.b.rawFull = 0x500#32 := by decide

/-- R134's example. -/
theorem test_acb_example :
    (runWord 0x00170501#32 (on { setB 0x100 k0 with iram := [(0x05, 0xFFFFFF)] })).me.b.rawFull = 0xFF#32 := by decide

/-- M13. -/
theorem test_acga_position :
    (runWord 0x001A3310#32 { on { k0 with iramPos := 0xF0 } with gram := [(0x23, 0x10)] }).me.a.rawFull
      = 0x8#32 := by decide

/-- M14. -/
theorem test_acgb_reads_gram :
    (runWord 0x001C407F#32 { on { k0 with iram := [(0x40, 0x7FFFFF)] } with gram := [(0x40, 0x100)] }).me.b.rawFull
      = 0xFE#32 := by decide

/-- M15. -/
theorem test_erda :
    (runWord 0x00390040#32 (on { k0 with rdLatch := 0x800000 })).me.a.rawFull = 0xFF800000#32 := by decide

/-- E25. -/
theorem test_erda_after_commit :
    let k := { k0 with pc := 10, cur := { active := true, write := false, var := false, pcCommit := 10, off := 0 } }
    let t := runWord 0x00390040#32 { on k with eram := [(0, 0x123)] }
    t.me.rdLatch = 0x123 ∧ t.me.a.rawFull = 0x123 ∧ t.me.cur.active = false := by decide

/-- R138's example. -/
theorem test_erdb_example :
    (runWord 0x003C007F#32 (on { k0 with rdLatch := 0xFFFFF0 })).me.b.rawFull = 0xFFFFFFF0#32 := by decide

/-- S1. -/
theorem test_stia_saturates :
    let t := runWord 0x00201000#32 (on (pipeA 0x00900000 (setA 5 k0)))
    t.me.iram = [(0x10, 0x7FFFFF)] ∧ t.me.a.rawFull = 5 := by decide

/-- S6. -/
theorem test_stia_suppressed :
    let t := runWord 0x00201000#32 (on { pipeA 0x123 k0 with skipfield := 1, iram := [(0x10, 0x777)] })
    t.me.iram = [] ∧ t.me.skipfield = 0 := by decide

/-- S3. -/
theorem test_stib :
    (runWord 0x00240500#32 (on (pipeB 0xFF000000 k0))).me.iram = [(0x05, 0x800000)] := by decide

/-- S4. -/
theorem test_stga_position :
    (runWord 0x00280500#32 (on { pipeA 0x123 k0 with iramPos := 0xFE })).gram = [(0x03, 0x123)] := by decide

/-- S7. -/
theorem test_stga_core1 :
    let k := { pipeA 0x42 k0 with iramPos := 0x01 }
    (runWord 0x00284000#32 { State.reset with core1 := k, active := .core1 }).gram = [(0x41, 0x42)] := by decide

/-- S5. -/
theorem test_stgb :
    (runWord 0x002CBF00#32 (on { pipeB 0xFFFFFFFF k0 with iramPos := 0x80 })).gram = [(0x3F, 0xFFFFFF)] := by decide

/-- C1. -/
theorem test_ctrl_nop :
    (runWord 0x0035C040#32 (on (pipeA 0x01000000 k0))).me.a.rawFull = 0x007FFFFF#32 := by decide

/-- C2. -/
theorem test_ctrl_inv :
    (runWord 0x0034C100#32 (on (pipeA 0x100 k0))).me.a.rawFull = 0xFFFFFFFE#32 := by decide

/-- C3. -/
theorem test_ctrl_inv_negative :
    (runWord 0x0034C180#32 (on (pipeA 0x100 k0))).me.a.rawFull = 0xFE#32 := by decide

/-- C4. -/
theorem test_ctrl_intp :
    (runWord 0x0034C200#32 (on { pipeA 0x100 k0 with interp := 0x80 })).me.a.rawFull = 0xFFFFFF00#32 := by decide

/-- C5. -/
theorem test_ctrl_intpn :
    (runWord 0x0034C300#32 (on { pipeA 0x100 k0 with interp := 0x80 })).me.a.rawFull = 0xFE#32 := by decide

/-- C6. -/
theorem test_ctrl_carry_unpaired :
    (runWord 0x0034C405#32 (on { pipeA 0x100 k0 with carry := 0xAF })).me.a.rawFull = 0xA#32 := by decide

/-- C7. -/
theorem test_ctrl_carry_paired :
    (runWord 0x0034C405#32 (on { pipeA 0x100 (setA 7 k0) with prevOp := .mulc })).me.a.rawFull = 7#32 := by decide

/-- C8. -/
theorem test_ctrl_seti :
    let t := runWord 0x0034C500#32 (on (pipeA 0xFFFFFF00 (setA 9 k0)))
    t.me.interp = 0xFF#8 ∧ t.me.a.rawFull = 9 := by decide

/-- C9. -/
theorem test_ctrl_seti_saturated :
    (runWord 0x0034C500#32 (on (pipeA 0x01000000 k0))).me.interp = 0x7F#8 := by decide

/-- C13. -/
theorem test_ctrl_rect :
    (runWord 0x0034C701#32 (on (pipeA 0x00900000 k0))).me.a.rawFull = 0xFFFF#32 := by decide

/-- C14. -/
theorem test_ctrl_host :
    let t := runWord 0x0035CA40#32 (on (pipeA 0x00123456 k0))
    t.me.host = 0x00123456#32 ∧ t.me.a.rawFull = 0x00123456#32 := by decide

/-- C15. -/
theorem test_ctrl_host_raw :
    (runWord 0x0034CA00#32 (on (pipeA 0x00FFFFFF k0))).me.host = 0xFFFFFFFF#32 := by decide

/-- C17. -/
theorem test_ctrl_wl :
    (runWord 0x0034CB00#32 (on (pipeA 0xFFFFFFFB k0))).me.wrLatch = 0xFFFFFB#24 := by decide

/-- C18. -/
theorem test_ctrl_vo :
    (runWord 0x0034CC00#32 (on (pipeA 0xFFFFFF00 k0))).me.varOfs = 0xFFFF#16 := by decide

/-- C19. -/
theorem test_ctrl_cw :
    let t := runWord 0x0034CD0F#32 (on (pipeA 0xFF000000 (setA 9 k0)))
    t.coefBank = [(7, 0x80)] ∧ t.me.a.rawFull = 9 := by decide

/-- C20. -/
theorem test_ctrl_cr :
    (runWord 0x0034CEFB#32 { on (pipeA 0x100 k0) with coefBank := [(3, 0x80)] }).me.a.rawFull = 0xFFFFFF00#32 := by decide

/-- C21. -/
theorem test_ctrl_jmp :
    let s := placeAtPc .core0 0x0034C800#32 (on { k0 with pc := 5 })
    runWord 0x0034C800#32 s =
      { s with faults := [⟨.core0, 5, 0x0034C800, .subcode⟩], reply := .fault ⟨.core0, 5, 0x0034C800, .subcode⟩ } := by decide

/-- R153. -/
theorem test_ctrl_jmpc :
    (runWord 0x0034C900#32 (on k0)).faults = [⟨.core0, 0, 0x0034C900, .subcode⟩] := by decide

/-- C22. -/
theorem test_ctrl_mix :
    let t := runWord 0x0034CF00#32 (on k0)
    t.faults = [⟨.core0, 0, 0x0034CF00, .subcode⟩]
      ∧ t.core0 = { k0 with pram := [(0, 0x0034CF00)] } := by decide

/-- F1. -/
theorem test_unsupported_op :
    let s := on { k0 with pc := 5 }
    (runWord 0x00300000#32 s).faults = [⟨.core0, 5, 0x00300000, .opcode⟩] ∧ (runWord 0x00300000#32 s).me.pc = 5 := by decide

/-! ### What needs the reference parameters: CTRL.COND, crunch, addresses -/

/-- C10 to C12: the condition of the operand, and its place in the skipfield. -/
theorem test_ctrl_cond :
    condOf refParams .cond (operandA refParams (on (pipeA 0 k0)) (.pipeSat .a)) = false
    ∧ condOf refParams .cond (operandA refParams (on (pipeA 0xFF000000 k0)) (.pipeSat .a)) = true
    ∧ condOf refParams .cond
        (operandA refParams (on { pipeA 0xFF000000 k0 with skipfield := 1 }) (.pipeSat .a)) = false
    ∧ shiftSkip refParams 0 true = 1 ∧ shiftSkip refParams 1 false = 0 := by decide

/-- E1, E3 to E9. -/
theorem test_crunch_wide :
    crunch refParams 0x7FFFFF = 0x7FFF00 ∧ crunch refParams 0x800000 = 0x800000
    ∧ crunch refParams 0xBFFFFF = 0xBFFF00 ∧ crunch refParams 0x3FFFFF = 0x3FFF80
    ∧ crunch refParams 0xC00001 = 0xC00000 ∧ crunch refParams 0x123456 = 0x123440
    ∧ crunch refParams 0xE7FFFF = 0xE7FFC0 ∧ crunch refParams 0x0FFFFF = 0x0FFFE0 := by decide

/-- E2, E10 to E14. -/
theorem test_crunch_narrow :
    crunch refParams 0x400000 = 0x400000 ∧ crunch refParams 0xF80000 = 0xF80000
    ∧ crunch refParams 0x07FFFF = 0x07FFF0 ∧ crunch refParams 0x0003F8 = 0x0003F0
    ∧ crunch refParams 0xFFFFFF = 0xFFFFF0 ∧ crunch refParams 0 = 0 := by decide

/-- E15 to E19. -/
theorem test_eram_addresses :
    plainAddr refParams 0x7FFF 0x0002 = 0x0001 ∧ plainAddr refParams 0 0x0010 = 0x0010
    ∧ varAddr refParams 0x4005 0x3FF0 0x0010 = 0x4005
    ∧ varAddr refParams 0x0010 0x0010 0x3FF8 = 0x0018
    ∧ varAddr refParams 0x4000 0xFFFF 0x0000 = 0x7FFF := by decide

/-- E24: the commit uses the latch as it stands before the datapath. -/
theorem test_write_commit_precedes_ctrl_wl :
    let k := { pipeA 0x200 k0 with
      pc := 10, wrLatch := 0x100
      cur := { active := true, write := true, var := false, pcCommit := 10, off := 0 } }
    let t := macCycle refParams .ctrl 0 ⟨.a, .accumulate, .pipeSat .a, .coef 0, 0, .wl⟩ (on k)
    t.eram = [(0, 0x100)] ∧ t.me.wrLatch = 0x200 := by decide

/-- E22: a START in the promotion cycle sets the diagnostic; E23: one in the commit cycle does not. -/
theorem test_eram_overlap :
    (eramStep refParams 0b10000
      (on { k0 with pc := 5, nxt := { active := true, write := false, var := false, pcStart := 0, acc := 0, w := 5 } })).me.eramOverlap
        = true
    ∧ (eramStep refParams 0b10000
      (on { k0 with pc := 10, cur := { active := true, write := false, var := false, pcCommit := 10, off := 0 } })).me.eramOverlap
        = false := by decide

/-! ### Samples, host calls, steps -/

/-- T1, T3: the sample strobe from reset. -/
theorem test_step_sample :
    let t := stepSample refParams State.reset
    t.core0.iramPos = 0xFF ∧ t.core1.iramPos = 0xFF ∧ t.eramPos = 0x7FFF ∧ ea t.core0 0x05 = 0x04 := by
  decide

/-- H1 to H3: the L1-1 word, byte by byte. -/
theorem test_program_writes :
    (writeProgramByte .core0 0 1 0x02 (writeCoefficientOnly .core0 0 0x7F
      (writeProgramByte .core0 0 2 0x11 State.reset))).core0.pram = [(0, 0x0011027F)] := by decide

/-- H4, H5. -/
theorem test_read_host_register :
    (readHostRegister .core1 State.reset).reply = .hostRegister 0
    ∧ (readHostRegister .core0 (on { k0 with host := 0xFFFFFFFF })).reply = .hostRegister 0xFFFFFFFF := by
  decide

/-- M1 through the whole step: the first word after reset runs on core 0, then core 1 is next. -/
theorem test_step_runs_placed_word :
    let t := out (step (State.reset.withFetchWord 32 0x0004027F))
    t.core0.a.rawFull = 0x3F8 ∧ t.core0.pc = 1 ∧ nextCall t = .stepCycle .core1 := by decide

/-- F6: a word the decoder rejects raises its reason in the step. -/
theorem test_step_raises_rejected_word :
    (out (step (State.reset.withFetchWord 32 0x00B4C800))).faults
      = [⟨.core0, 0, 0x00B4C800, .reservedBits⟩] := by decide

/-- Where the next call is no cycle, the placed word still runs at once. -/
theorem test_fetch_word_with_sample_queued :
    let t := out (step (({ State.reset with calls := [.stepSample] }).withFetchWord 32 0x0004027F))
    t.core0.a.rawFull = 0x3F8 ∧ t.calls = [.stepSample] := by decide

/-- A2 to A8: the accumulator primitives. -/
theorem test_accumulator_primitives :
    ((setA 0x1FFFFFFF k0).a.accumulate 1).rawFull = 0xE0000000
    ∧ ((setA 0xE0000000 k0).a.accumulate (-1)).rawFull = 0x1FFFFFFF
    ∧ readSat24 0x00900000 = 0x7FFFFF ∧ readSat24 0xFF000000 = 0x800000
    ∧ readSat24 0xFFFFFF00 = 0xFFFF00
    ∧ readRaw24 0x00FFFFFF = 0xFFFFFF ∧ readRaw24 0x01800000 = 0x800000 := by decide

/-! ### Witnesses: the hypotheses of each obligation can be met together, clause by clause -/

/-- Every instruction answers a next state in every state, so the frames' hypothesis is met. -/
theorem exec_answers (i : Instr) (s : State) : ∃ t, exec i s = .next t := ⟨_, exec_eq i s⟩

/-- A NOP with the given eramCtrl, an illegal LDA, and a legal one. -/
def nopE (e : BitVec 5) : Instr := .nop e 0 0 0
def badLda : Instr := .lda 0 0 0xC0 0

/-- Core 0 about to commit a read or a write; with a window that is full; with one that has run `w` cycles. -/
def committing (write : Bool) : State :=
  on { k0 with pc := 10, cur := { active := true, write := write, var := false, pcCommit := 10, off := 3 } }
def windowed (w : Fin 6) : State :=
  on { k0 with pc := 5, nxt := { active := true, write := true, var := false, pcStart := 0, acc := 0xFFFF, w := w } }

/-- A state whose next call is `call`. -/
def calling (call : HostCall) : State := { State.reset with calls := [call] }

theorem witness_DecodeOfEncodeIsIdentity :
    (Instr.unsupportedOp 31 16 3 0xFF 0xFF).wellFormed = true ∧ (Instr.lda 31 3 0xFF 0xFF).wellFormed = true := by
  decide

theorem witness_EncodeOfDecodeIsIdentity :
    decode 0xF83FFFFF#32 = .ok (.erdb 31 3 0xFF 0xFF) := by decide

theorem witness_ZeroOpfWordsAreNops : (0xF803FFFF#32).toNat / 2 ^ 18 % 2 ^ 9 = 0 := by decide

theorem witness_StepRunsDecodedInstruction :
    nextCall State.reset = .stepCycle .core0
    ∧ decode (Mem.read State.reset.core0.pram State.reset.core0.pc.val) = .ok (.nop 0 0 0 0)
    ∧ decode (Mem.read [(767, 0x07800000#32)] 767) = .error .reservedBits
    ∧ nextCall (calling (.stepCycle .core1)) = .stepCycle .core1 := by decide

theorem witness_IllegalWordsFaultByPriority :
    nextCall State.reset = .stepCycle .core0
    ∧ wordReason (Mem.read State.reset.core0.pram 0) = none
    ∧ wordReason (Mem.read [(0, 0x00300000#32)] 0) = some .opcode := by decide

/-- Between the two cycles: the other core's cycle, a sample, a write to the other core's same word, a
write to another word of this core, and a faulting cycle of this core. -/
theorem witness_FaultRepeatsWithSameRecord :
    ∃ t u x : State, ∃ r : FaultRecord,
      let s : State :=
        { on { k0 with pram := [(0, 0x00300000)] } with
          calls := [.stepCycle .core0, .stepCycle .core1, .stepSample, .writeProgramByte .core1 0 0 1,
            .writeCoefficientOnly .core0 1 2, .stepCycle .core0, .stepCycle .core0] }
      nextCall s = .stepCycle .core0 ∧ step s = .next t ∧ t.reply = .fault r
        ∧ (∀ k < 5, ∀ v, runSteps k t = some v → writesWord .core0 (s.core .core0).pc (nextCall v) = false)
        ∧ runSteps 5 t = some u ∧ nextCall u = .stepCycle .core0 ∧ step u = .next x := by
  refine ⟨_, _, _, _, rfl, rfl, rfl, ?_, rfl, rfl, rfl⟩
  intro k hk v hv
  interval_cases k <;> cases hv <;> rfl

theorem witness_RefusedCodesAlwaysRaise :
    ((12#5).toNat = 12 ∨ 16 ≤ (12#5).toNat) ∧ ((16#5).toNat = 12 ∨ 16 ≤ (16#5).toNat)
    ∧ ((31#5).toNat = 12 ∨ 16 ≤ (31#5).toNat) := by decide

/-- For LDA, LDB, MULC, ACA, ACB, ACGA, ACGB: the ends of the admitted range, and of the refused one. -/
theorem witness_operand_codes :
    (0x00#8).toNat < 0xC0 ∧ (0xBF#8).toNat < 0xC0 ∧ 0xC0 ≤ (0xC0#8).toNat ∧ 0xC0 ≤ (0xFF#8).toNat := by
  decide

/-- For STIA, STIB, STGA, STGB: the ends of the admitted range, and of the two refused ones. -/
theorem witness_store_codes :
    (0x05 ≤ (0x05#8).toNat ∧ (0x05#8).toNat < 0xC0) ∧ (0x05 ≤ (0xBF#8).toNat ∧ (0xBF#8).toNat < 0xC0)
    ∧ ((0x04#8).toNat < 0x05 ∨ 0xC0 ≤ (0x04#8).toNat) ∧ ((0xC0#8).toNat < 0x05 ∨ 0xC0 ≤ (0xC0#8).toNat) := by
  decide

/-- For ERDA, ERDB. -/
theorem witness_latch_codes : (0x00#8) = 0 ∧ (0x01#8) ≠ 0 := by decide

theorem witness_NopChangesOnlyBookkeeping :
    State.reset.me.nxt.active = false ∧ (0b10000#5)[4] = true
    ∧ (windowed 1).me.nxt.active = true ∧ 1 ≤ (windowed 1).me.nxt.w.val ∧ (windowed 1).me.nxt.w.val ≤ 4
    ∧ 1 ≤ (windowed 4).me.nxt.w.val ∧ (windowed 4).me.nxt.w.val ≤ 4 := by decide

theorem witness_CtrlCondShiftsConditionIn :
    (on { k0 with skipfield := 1 }).me.skipfield < 2 ^ Config.params.skipN :=
  Nat.one_lt_two_pow (by simp [Config.Params.skipN])

theorem witness_CtrlBankWriteAndRead :
    fits30 (on (setA 0x1FFFFFFF k0)).me.a.rawFull ∧ fits30 (on (setA 0xE0000000 k0)).me.a.rawFull := by
  decide

theorem witness_AccumulatorFrame :
    (∃ t, exec (.ldb 0 0 0xBF 1) (on (setA 5 k0)) = .next t) ∧ writesA (.ldb 0 0 0xBF 1) = false
    ∧ (∃ t, exec (.lda 0 0 0xBF 1) (on (setB 5 k0)) = .next t) ∧ writesB (.lda 0 0 0xBF 1) = false :=
  ⟨exec_answers .., rfl, exec_answers .., rfl⟩

theorem witness_DataMemoryFrame :
    (∃ t, exec (.stia 0 0 0x05 0) State.reset = .next t) ∧ 0x06 ≠ ea State.reset.me 0x05
    ∧ (∃ t, exec (.stga 0 0 0xBF 0) State.reset = .next t) ∧ 0xC0 ≠ ea State.reset.me 0xBF
    ∧ (∃ t, exec (.ctrlCw 0 0 7) State.reset = .next t) ∧ 0 ≠ bankIndex 7
    ∧ (∃ t, exec (nopE 0) State.reset = .next t) :=
  ⟨exec_answers .., by decide, exec_answers .., by decide, exec_answers .., by decide, exec_answers ..⟩

theorem witness_AuxRegisterFrame :
    (∃ t, exec (.ctrlSeti 0 0 0) State.reset = .next t) ∧ (∃ t, exec (.mulc 0 0 5 1) State.reset = .next t)
    ∧ (∃ t, exec (nopE 0) State.reset = .next t) :=
  ⟨exec_answers .., exec_answers .., exec_answers ..⟩

theorem witness_EramFrame :
    (∃ t, exec badLda (windowed 5) = .next t) ∧ badLda.legal = false
    ∧ (∃ t, exec (nopE 0) State.reset = .next t) ∧ ¬ Commits State.reset ∧ ¬ WindowFull State.reset
    ∧ (∃ t, exec (nopE 0) (committing false) = .next t) ∧ (committing false).me.cur.write = false
    ∧ (∃ t, exec (nopE 0) (committing true) = .next t) ∧ (committing true).me.cur.write = true :=
  ⟨exec_answers .., rfl, exec_answers .., by decide, by decide, exec_answers .., rfl, exec_answers .., rfl⟩

/-- For the statements whose one hypothesis is that the instruction answers a next state, legal or not. -/
theorem witness_exec_next :
    (∃ t, exec (.ctrlCr 31 3 0xFF) (windowed 4) = .next t) ∧ (Instr.ctrlCr 31 3 0xFF).legal = true
    ∧ isCond (.ctrlCr 31 3 0xFF) = false
    ∧ (∃ t, exec badLda (on { k0 with pc := 767 }) = .next t) ∧ badLda.legal = false :=
  ⟨exec_answers .., rfl, rfl, exec_answers .., rfl⟩

theorem witness_CycleReadsOwnCoreAndShared :
    let s := State.reset
    let s' := { State.reset with core1 := setA 5 k0, faults := [⟨.core1, 0, 0, .opcode⟩] }
    s ≠ s' ∧ s.active = s'.active ∧ s.me = s'.me ∧ s.gram = s'.gram ∧ s.coefBank = s'.coefBank
      ∧ s.eram = s'.eram ∧ s.eramPos = s'.eramPos
      ∧ (∃ t, exec (.aca 0 0 5 1) s = .next t) ∧ (∃ t, exec (.aca 0 0 5 1) s' = .next t) :=
  ⟨by decide, rfl, rfl, rfl, rfl, rfl, rfl, exec_answers .., exec_answers ..⟩

theorem witness_PipelinedReadIsThreeCyclesOld :
    ∃ t u v, exec (.lda 0 0 2 1) State.reset = .next t ∧ exec (nopE 0) t = .next u
      ∧ exec (nopE 0) u = .next v ∧ (Instr.lda 0 0 2 1).legal = true ∧ (nopE 0).legal = true :=
  ⟨_, _, _, exec_eq .., exec_eq .., exec_eq .., rfl, rfl⟩

theorem witness_ConditionSuppressesSkipNCycles :
    ∃ t u, (on { k0 with skipfield := 1 }).me.skipfield < 2
      ∧ exec (.ctrlCond 0 0 0) (on { k0 with skipfield := 1 }) = .next t
      ∧ (∀ i ∈ [nopE 0], i.legal = true ∧ isCond i = false) ∧ runCycles [nopE 0] t = some u :=
  ⟨_, _, by decide, exec_eq .., by decide, rfl⟩

theorem witness_EramStartSampledWhenFree :
    State.reset.me.nxt.active = false ∧ WindowFull (windowed 5)
    ∧ (nopE 0b10011).legal = true ∧ (nopE 0b10011).eramCtrl[4] = true ∧ (nopE 0b01111).eramCtrl[4] = false
    ∧ (∃ t, exec (nopE 0b10011) (windowed 5) = .next t) ∧ (∃ t, exec (nopE 0b01111) (windowed 5) = .next t) :=
  ⟨rfl, by decide, rfl, rfl, rfl, exec_answers .., exec_answers ..⟩

theorem witness_EramWindowTakesNibble :
    (windowed 1).me.nxt.active = true ∧ 1 ≤ (windowed 1).me.nxt.w.val ∧ (windowed 1).me.nxt.w.val ≤ 4
    ∧ (windowed 4).me.nxt.active = true ∧ 1 ≤ (windowed 4).me.nxt.w.val ∧ (windowed 4).me.nxt.w.val ≤ 4
    ∧ (nopE 31).legal = true ∧ (∃ t, exec (nopE 31) (windowed 4) = .next t) :=
  ⟨rfl, by decide, by decide, rfl, by decide, by decide, rfl, exec_answers ..⟩

theorem witness_EramPromotionFillsCur :
    WindowFull (windowed 5) ∧ (nopE 0).legal = true ∧ (∃ t, exec (nopE 0) (windowed 5) = .next t) :=
  ⟨by decide, rfl, exec_answers ..⟩

theorem witness_EramReadCommitLoadsLatch :
    Commits (committing false) ∧ (committing false).me.cur.write = false ∧ ¬ WindowFull (committing false)
    ∧ (nopE 0).legal = true ∧ (∃ t, exec (nopE 0) (committing false) = .next t) :=
  ⟨by decide, rfl, by decide, rfl, exec_answers ..⟩

theorem witness_EramWriteCommitStoresCrunch :
    Commits (committing true) ∧ (committing true).me.cur.write = true ∧ ¬ WindowFull (committing true)
    ∧ (nopE 0).legal = true ∧ (∃ t, exec (nopE 0) (committing true) = .next t) :=
  ⟨by decide, rfl, by decide, rfl, exec_answers ..⟩

/-- From pc 764, so that the window and the commit wrap with the pc. -/
theorem witness_EramCommitDueTenCyclesAfterStart :
    ∃ t, runCycles [nopE 0b10001, nopE 0, nopE 0, nopE 0, nopE 2, nopE 0, nopE 0, nopE 0, nopE 0, nopE 0]
        (on { k0 with pc := 764 }) = some t
      ∧ (on { k0 with pc := 764 }).me.nxt.active = false ∧ (nopE 0b10001).eramCtrl[4] = true :=
  ⟨_, rfl, rfl, rfl⟩

/-- A window that is full while `Cur` commits; a transaction still to commit, three cycles on. -/
def handingOver : State :=
  on { k0 with
    pc := 5, nxt := { active := true, write := true, var := false, pcStart := 0, acc := 0, w := 5 }
    cur := { active := true, write := false, var := false, pcCommit := 5, off := 0 } }
def pending : State :=
  on { k0 with pc := 7, cur := { active := true, write := false, var := false, pcCommit := 10, off := 0 } }

/-- Each clause: the promotion cycle of a state the timing allows; a START that sets the diagnostic. -/
theorem witness_PromotionNeverOverwritesPending :
    (handingOver.me.EramTimed ∧ WindowFull handingOver ∧ handingOver.me.cur.active = true
      ∧ ∃ t, exec (nopE 0) handingOver = .next t)
    ∧ pending.me.EramTimed ∧ pending.me.eramOverlap = false
      ∧ ∃ t, exec (nopE 0b10000) pending = .next t ∧ t.me.eramOverlap = true :=
  ⟨⟨⟨by decide, by decide, by decide⟩, by decide, rfl, exec_answers ..⟩,
    ⟨by decide, by decide, by decide⟩, rfl, _, exec_eq .., rfl⟩

theorem witness_EramAddressesInRange (p : Config.Params) :
    0x3FFF < p.eramWords ∧ 0x3FFF < 0x4000 ∧ 0x4000 < p.eramWords ∧ 0x4000 ≤ 0x4000 := by
  have := eramWords_ge p
  omega

theorem witness_EramReadbackIsCrunched :
    ∃ t v, Commits (committing true) ∧ (committing true).me.cur.write = true
      ∧ exec (nopE 0) (committing true) = .next t
      ∧ Commits { committing false with eram := t.eram }
      ∧ ({ committing false with eram := t.eram } : State).me.cur.write = false
      ∧ commitAddress { committing false with eram := t.eram } = commitAddress (committing true)
      ∧ exec (nopE 0) { committing false with eram := t.eram } = .next v :=
  ⟨_, _, by decide, rfl, exec_eq .., by decide, rfl, rfl, exec_eq ..⟩

theorem witness_SampleMovesPositionsOnly :
    nextCall (calling .stepSample) = .stepSample ∧ (calling .stepSample).eramPos < Config.params.eramWords :=
  ⟨rfl, eramWords_pos _⟩

theorem witness_ProgramByteWriteReplacesLane :
    nextCall (calling (.writeProgramByte .core1 767 3 0xFF)) = .writeProgramByte .core1 767 3 0xFF := rfl

theorem witness_CoefficientWriteKeepsLegality :
    nextCall (calling (.writeCoefficientOnly .core0 767 0xFF)) = .writeCoefficientOnly .core0 767 0xFF
    ∧ wordReason (Mem.read (calling (.writeCoefficientOnly .core0 767 0xFF)).core0.pram 767) = none := by
  decide

theorem witness_HostReadReturnsRegister :
    nextCall (calling (.readHostRegister .core1)) = .readHostRegister .core1 := rfl

theorem witness_DelayLineShiftsOneCodePerSample :
    (0x05#8).toNat + 0xBA ≤ 0xBF ∧ (0xBF#8).toNat + 0 ≤ 0xBF := by decide

theorem witness_ReferenceTickAlternatesCores :
    State.reset.calls = [] ∧ ∃ t, runSteps 2 State.reset = some t := by
  refine ⟨rfl, _, rfl⟩

/-- The layout turned about, and the map with 1 added to every `opf`: another encoding that R8 admits. -/
def otherEncoding : Config.Encoding :=
  { layout := { coefLo := 24, memLo := 16, shiftSelLo := 14, opfLo := 9, rsvdLo := 5, eramCtrlLo := 0 }
    opMap := fun opf => opMap (opf - 1) }

/-- Each clause: the layout is valid; the word of ACA there, opf 5, written out from its top down as
coef, mem, shiftSel, opf, reserved, eramCtrl; a call that is no cycle. -/
theorem witness_AnyEncodingRunsTheSameMeanings :
    otherEncoding.layout.Valid ∧ (Instr.aca 3 1 2 0x7F).wellFormedIn otherEncoding.opMap = true
    ∧ (Instr.unsupportedOp 3 0 1 2 0x7F).wellFormedIn otherEncoding.opMap = true
    ∧ encodeWith otherEncoding (.aca 3 1 2 0x7F) = 0x7F#8 ++ 0x02#8 ++ 1#2 ++ 5#5 ++ 0#4 ++ 3#5
    ∧ nextCall (placeAtPc .core0 (encodeWith otherEncoding (.aca 3 1 2 0x7F)) State.reset) = .stepCycle .core0
    ∧ Mem.read (placeAtPc .core0 (encodeWith otherEncoding (.aca 3 1 2 0x7F)) State.reset).core0.pram 0
        = encodeWith otherEncoding (.aca 3 1 2 0x7F)
    ∧ referenceEncoding.layout.Valid ∧ nextCall (calling .stepSample) = .stepSample := by decide

/-- The invariant holds of a state that no memory being empty makes trivial, and it takes a step. -/
theorem witness_EveryStepKeepsInvariant :
    let k := { setA 0xE0000000 k0 with
      pc := 4, iram := [(0xFF, 1)], skipfield := 1
      nxt := { active := true, write := true, var := false, pcStart := 0, acc := 0, w := 4 }
      cur := { active := true, write := false, var := true, pcCommit := 5, off := 0 } }
    let s := { on k with gram := [(0, 5)], eram := [(0x7FFF, 1)], coefBank := [(7, 0x80)] }
    s.Inv Config.params ∧ ∃ t, step s = .next t := by
  have h1 : 1 < 2 ^ Config.params.skipN := Nat.one_lt_two_pow (by simp [Config.Params.skipN])
  have h2 := eramWords_ge Config.params
  refine ⟨⟨⟨?_, ?_, ?_, ?_, ?_, ?_, ?_, h1, ⟨?_, ?_, ?_⟩⟩, ⟨?_, ?_, ?_, ?_, ?_, ?_, ?_, ?_, ⟨?_, ?_, ?_⟩⟩,
    ?_, ?_, ?_, ?_, ?_, ?_, ?_, ?_⟩, _, rfl⟩
  all_goals first
    | decide
    | exact Nat.two_pow_pos _
    | simp [Mem.below]; omega

end Sys2Proof.Tests
end

section
/-! Proofs about the accumulator pipeline (40_accumulator_pipeline.md): what any completed cycle does to
either accumulator, and the two 24-bit views of a history entry. -/

namespace Sys2Proof.Machine

open Sys2Proof.Config (Params)

/-- An accumulator write sets `rawFull` and leaves the ring (R83, R84). -/
theorem macWrite_eq (x : Acc) (m : Mode) (v : Int) :
    x.macWrite m v = { x with rawFull := (x.macWrite m v).rawFull } := by
  cases m <;> rfl

/-- The cycle of a row stores each accumulator once, after the write to the row's destination (R87). -/
theorem macCycle_me_acc (p : Params) (cat : Category) (e : BitVec 5) (d : Mac) (s : State) (x : AccId) :
    (macCycle p cat e d s).me.acc x =
      (if d.dst = x then (s.me.acc x).macWrite d.mode (macShifted p d (eramStep p e s))
        else s.me.acc x).storePipeline := by
  cases x
  case a => simp [macCycle_me_a]
  case b => simp [macCycle_me_b]

theorem nopCycle_me_acc (p : Params) (e : BitVec 5) (s : State) (x : AccId) :
    (nopCycle p e s).me.acc x = (s.me.acc x).storePipeline := by
  cases x <;> simp

/-- Whatever a completed cycle writes, each accumulator ends as the old ring with the new `rawFull`,
stored once (R87). -/
theorem cycleOf_me_acc (p : Params) (i : Instr) (s : State) (x : AccId) :
    (cycleOf p i s).me.acc x =
      Acc.storePipeline { s.me.acc x with rawFull := ((cycleOf p i s).me.acc x).rawFull } := by
  unfold cycleOf
  split
  case h_1 => simp only [nopCycle_me_acc, storePipeline_rawFull]
  case h_2 d _ =>
    rw [macCycle_me_acc, storePipeline_rawFull]
    by_cases hd : d.dst = x
    · simp only [if_pos hd, ← macWrite_eq]
    · simp only [if_neg hd]

/-- `storePipeline` in the words of R87: the head moves on modulo 3, the old head's entry takes
`rawFull`, the other entries stay. -/
theorem storePipeline_spec (x : Acc) :
    x.storePipeline.head.val = (x.head.val + 1) % 3
    ∧ x.storePipeline.hist[x.head] = x.rawFull
    ∧ ∀ j : Fin 3, j ≠ x.head → x.storePipeline.hist[j] = x.hist[j] := by
  refine ⟨?_, ?_, fun j hj => ?_⟩
  · rw [storePipeline_head, Fin.val_add]; rfl
  · rw [storePipeline_hist_get, if_pos rfl]
  · rw [storePipeline_hist_get, if_neg hj]

/-- Settles O34: a legal instruction runs its cycle, which stores each accumulator's old ring with the
new `rawFull`; an illegal one raises its reason and leaves the core. -/
theorem everyCycleStoresBothPipelines : Obligations.EveryCycleStoresBothPipelines := by
  unfold Obligations.EveryCycleStoresBothPipelines
  intro i s t h
  obtain ⟨hl, rfl⟩ | ⟨hl, rfl⟩ := exec_next i s t h
  · refine ⟨fun _ x => ?_, fun hf => absurd hl (by simp [hf])⟩
    have hx := storePipeline_spec
      { s.me.acc x with rawFull := ((cycleOf Config.params i s).me.acc x).rawFull }
    rwa [← cycleOf_me_acc] at hx
  · exact ⟨fun ht => absurd hl (by simp [ht]), fun _ => ⟨by rw [raise_me], by rw [raise_me]⟩⟩

/-- Settles O36: the clamp is the spec's nested minimum and maximum, and the low 24 bits read as a signed
number are the balanced remainder modulo 2^24. -/
theorem saturatedAndRawReads : Obligations.SaturatedAndRawReads := by
  unfold Obligations.SaturatedAndRawReads
  intro r
  have hsat : (readSat24 r).toInt = Claims.sat24 r.toInt := by
    rw [readSat24_toInt, clamp_eq_max_min _ _ _ (by decide)]
    rfl
  exact ⟨hsat, readRaw24_toInt r⟩

end Sys2Proof.Machine
end

section
/-! Proofs about the MAC family (43_mac_family.md). First what any row of R75 or R76 leaves, in the
words of the statements; then each category is its row. -/

namespace Sys2Proof.Machine

open Sys2Proof.Config (Params)
open Sys2Proof.Claims

/-! ### The encoding and the fault -/

/-- A word drawn as R64 draws it decodes to the category its `opf` selects, with the word's fields. -/
theorem decode_word (e opf : BitVec 5) (ss : BitVec 2) (mem coef : Byte) (cat : Category)
    (h : opMap opf = some cat) : decode (word e opf ss mem coef) = instrOf cat e ss mem coef := by
  rw [word, ← assemble_eq_append, decode_eq]
  simp [h]

/-- An illegal instruction raises the reason R161 gives it, with the record R160 names. -/
theorem exec_raises (i : Instr) (s : State) (h : i.legal = false) :
    exec i s = .next (raised (reasonOf i) s) := exec_illegal i s h

theorem admitsOperand_eq_false (mem : Byte) (h : 0xC0 ≤ mem.toNat) : admitsOperand mem = false :=
  decide_eq_false (Nat.not_lt.2 h)

theorem admitsLatch_eq_false (mem : Byte) (h : mem ≠ 0) : admitsLatch mem = false :=
  decide_eq_false h

/-! ### The operands -/

/-- The shift table is the spec's (R66). -/
theorem shiftOf_eq_shiftAmount (ss : BitVec 2) : shiftOf ss = shiftAmount ss := by
  revert ss; decide

theorem asr_product_eq_mulShift (opA : Cell) (opB : Byte) (ss : BitVec 2) :
    asr (product opA opB) (shiftOf ss) = mulShift opA.toInt opB.toInt ss := by
  rw [shiftOf_eq_shiftAmount]; rfl

/-- The value of every `mem` code (R68, R69, R115): zero, the four literals, the address codes. -/
theorem memOperand_toInt (space : Mem 24) (k : CoreState) (m : Byte) :
    (memOperand Config.params space k m).toInt = memValue space k m := by
  by_cases h5 : 5 ≤ m.toNat
  · have hm : ∀ n : Byte, n.toNat < 5 → m ≠ n := fun n hn he => by subst he; omega
    rw [memOperand_eq, if_pos h5, ea_eq, memValue, if_neg (hm 0 (by decide)),
      if_neg (hm 1 (by decide)), if_neg (hm 2 (by decide)), if_neg (hm 3 (by decide)),
      if_neg (hm 4 (by decide))]
  · have hm : m = 0 ∨ m = 1 ∨ m = 2 ∨ m = 3 ∨ m = 4 := by bv_omega
    rcases hm with rfl | rfl | rfl | rfl | rfl <;> rfl

/-- Suppression in the statements' words (R116). -/
theorem operandA_toInt_eq_unsuppressed (p : Params) (s : State) (src : SourceA) :
    (operandA p s src).toInt = unsuppressed s (sourceA p s src).toInt := operandA_toInt p s src

theorem operandA_memI_toInt (e : BitVec 5) (s : State) (m : Byte) :
    (operandA Config.params (eramStep Config.params e s) (.memI m)).toInt
      = unsuppressed s (memValue s.me.iram s.me m) := by
  rw [operandA_eramStep _ _ _ _ (by simp), operandA_toInt_eq_unsuppressed, sourceA, memOperand_toInt]

theorem operandA_memG_toInt (e : BitVec 5) (s : State) (m : Byte) :
    (operandA Config.params (eramStep Config.params e s) (.memG m)).toInt
      = unsuppressed s (memValue s.gram s.me m) := by
  rw [operandA_eramStep _ _ _ _ (by simp), operandA_toInt_eq_unsuppressed, sourceA, memOperand_toInt]

/-- A commit's address is that of R100 and R103. -/
theorem commitAddr_eq_commitAddress (s : State) :
    commitAddr Config.params s.eramPos s.me = commitAddress s := rfl

/-- The latch the datapath reads is the one this cycle's commit step leaves (R94). -/
theorem eramStep_rdLatch_toInt (e : BitVec 5) (s : State) :
    (eramStep Config.params e s).me.rdLatch.toInt = latchValue s := by
  have hc : (commitDue s.me && !s.me.cur.write) = true ↔ Commits s ∧ s.me.cur.write = false := by
    simp [commitDue, and_assoc]
  rw [eramStep_me_rdLatch, eramCommit_me_rdLatch, apply_ite BitVec.toInt, latchValue,
    commitAddr_eq_commitAddress]
  simp only [hc]

theorem operandA_rdLatch_toInt (e : BitVec 5) (s : State) :
    (operandA Config.params (eramStep Config.params e s) .rdLatch).toInt
      = unsuppressed s (latchValue s) := by
  rw [operandA_toInt_eq_unsuppressed, sourceA, eramStep_rdLatch_toInt, unsuppressed,
    eramStep_me_skipfield, unsuppressed]

/-! ### What the cycle of a row leaves -/

section macCycle
variable (p : Params) (cat : Category) (e : BitVec 5) (d : Mac) (s : State)

theorem macCycle_completed : Completed cat s (macCycle p cat e d s) :=
  ⟨macCycle_active .., macCycle_reply .., macCycle_faults .., by rw [macCycle_me_pc, nextPc_val],
    macCycle_me_prevOp ..⟩

theorem macCycle_noSideEffect (h : d.effect = .none) : NoSideEffect s (macCycle p cat e d s) := by
  simp [NoSideEffect, macCycle_me_iram, macCycle_gram, macCycle_coefBank, macCycle_me_interp,
    macCycle_me_carry, macCycle_me_host, macCycle_me_wrLatch, macCycle_me_varOfs, h]

/-- The destination's new `rawFull` (R120), the operands read after the controller's steps. -/
theorem macCycle_rawFull_dst : ((macCycle p cat e d s).me.acc d.dst).rawFull =
    ((s.me.acc d.dst).macWrite d.mode (macShifted p d (eramStep p e s))).rawFull := by
  rw [macCycle_me_acc, if_pos rfl, storePipeline_rawFull]

theorem macShifted_eramStep_eq_mulShift : macShifted p d (eramStep p e s) =
    mulShift (operandA p (eramStep p e s) d.srcA).toInt (operandB s d.srcB).toInt d.ss := by
  rw [macShifted, macProduct, asr_product_eq_mulShift, operandB_eramStep]

/-- A row that assigns leaves the shifted product itself: it needs no wrap (R83). -/
theorem macCycle_assigns (h : d.mode = .assign) : Assigns (macCycle p cat e d s) d.dst
    (operandA p (eramStep p e s) d.srcA).toInt (operandB s d.srcB).toInt d.ss := by
  rw [Assigns, macCycle_rawFull_dst, ← macShifted_eramStep_eq_mulShift, h]
  exact assign_rawFull_toInt ..

/-- A row that accumulates leaves the old value plus the shifted product, wrapped (R84). -/
theorem macCycle_accumulates (h : d.mode = .accumulate) : Accumulates s (macCycle p cat e d s) d.dst
    (operandA p (eramStep p e s) d.srcA).toInt (operandB s d.srcB).toInt d.ss := by
  rw [Accumulates, macCycle_rawFull_dst, ← macShifted_eramStep_eq_mulShift, h]
  exact accumulate_rawFull_toInt ..

theorem carryByte_toNat (prod : Int) : ((carryByte prod).toNat : Int) = prod % 256 := by
  rw [carryByte, BitVec.toNat_ofInt]
  omega

/-- The row with the effect `carry` latches the low byte of the unshifted product (R123). -/
theorem macCycle_carry_toNat (h : d.effect = .carry) : ((macCycle p cat e d s).me.carry.toNat : Int) =
    (operandA p (eramStep p e s) d.srcA).toInt * (operandB s d.srcB).toInt % 256 := by
  rw [macCycle_me_carry, h, ← operandB_eramStep p e s]
  exact carryByte_toNat _

end macCycle

/-! ### The legal instruction of a row -/

section row
variable (i : Instr) (d : Mac) (s : State) (hl : i.legal = true) (hd : rowOf i = some d)
include hl hd

/-- A legal instruction that has a row runs that row's cycle. -/
theorem exec_row : exec i s = .next (macCycle Config.params (categoryOf i) i.eramCtrl d s) := by
  rw [exec_legal i s hl, cycleOf, hd]

theorem exec_assigns {opA : Int} (he : d.effect = .none) (hm : d.mode = .assign)
    (hA : (operandA Config.params (eramStep Config.params i.eramCtrl s) d.srcA).toInt = opA) :
    ∃ t, exec i s = .next t ∧ Completed (categoryOf i) s t ∧ NoSideEffect s t
      ∧ Assigns t d.dst opA (operandB s d.srcB).toInt d.ss :=
  ⟨_, exec_row i d s hl hd, macCycle_completed .., macCycle_noSideEffect _ _ _ _ _ he,
    hA ▸ macCycle_assigns _ _ _ _ _ hm⟩

theorem exec_accumulates {opA : Int} (he : d.effect = .none) (hm : d.mode = .accumulate)
    (hA : (operandA Config.params (eramStep Config.params i.eramCtrl s) d.srcA).toInt = opA) :
    ∃ t, exec i s = .next t ∧ Completed (categoryOf i) s t ∧ NoSideEffect s t
      ∧ Accumulates s t d.dst opA (operandB s d.srcB).toInt d.ss :=
  ⟨_, exec_row i d s hl hd, macCycle_completed .., macCycle_noSideEffect _ _ _ _ _ he,
    hA ▸ macCycle_accumulates _ _ _ _ _ hm⟩

end row

/-! ### The obligations -/

/-- Settles O11: each word decodes by its `opf`; a legal LDA or LDB runs a row that assigns and has no
effect, its operand A named by `mem`; an illegal one raises MEM. -/
theorem loadsAssignShiftedProduct : Obligations.LoadsAssignShiftedProduct := by
  unfold Obligations.LoadsAssignShiftedProduct
  intro e ss mem coef s
  have hA := operandA_memI_toInt e s mem
  refine ⟨decode_word _ _ _ _ _ .lda rfl, fun h => ?_, fun h => ?_,
    decode_word _ _ _ _ _ .ldb rfl, fun h => ?_, fun h => ?_⟩
  · exact exec_assigns (.lda e ss mem coef) _ s ((admitsOperand_iff mem).2 h) rfl rfl rfl hA
  · exact exec_raises (.lda e ss mem coef) s (admitsOperand_eq_false mem h)
  · exact exec_assigns (.ldb e ss mem coef) _ s ((admitsOperand_iff mem).2 h) rfl rfl rfl hA
  · exact exec_raises (.ldb e ss mem coef) s (admitsOperand_eq_false mem h)

/-- Settles O12: MULC's row assigns A as LDA's does, and its effect is the carry latch. -/
theorem mulcAssignsAndLatchesCarry : Obligations.MulcAssignsAndLatchesCarry := by
  unfold Obligations.MulcAssignsAndLatchesCarry
  intro e ss mem coef s
  refine ⟨decode_word _ _ _ _ _ .mulc rfl, fun h => ?_, fun h => ?_⟩
  · rw [← operandA_memI_toInt e s mem]
    exact ⟨_, exec_row (.mulc e ss mem coef) _ s ((admitsOperand_iff mem).2 h) rfl,
      macCycle_completed .., macCycle_assigns _ _ _ _ _ rfl, macCycle_carry_toNat _ _ _ _ _ rfl⟩
  · exact exec_raises (.mulc e ss mem coef) s (admitsOperand_eq_false mem h)

/-- Settles O13: the rows of ACA and ACB accumulate and have no effect; `mem` names a literal, zero or an
IRAM cell. -/
theorem iramAccumulates : Obligations.IramAccumulates := by
  unfold Obligations.IramAccumulates
  intro e ss mem coef s
  have hA := operandA_memI_toInt e s mem
  refine ⟨decode_word _ _ _ _ _ .aca rfl, fun h => ?_, fun h => ?_,
    decode_word _ _ _ _ _ .acb rfl, fun h => ?_, fun h => ?_⟩
  · exact exec_accumulates (.aca e ss mem coef) _ s ((admitsOperand_iff mem).2 h) rfl rfl rfl hA
  · exact exec_raises (.aca e ss mem coef) s (admitsOperand_eq_false mem h)
  · exact exec_accumulates (.acb e ss mem coef) _ s ((admitsOperand_iff mem).2 h) rfl rfl rfl hA
  · exact exec_raises (.acb e ss mem coef) s (admitsOperand_eq_false mem h)

/-- Settles O14: as O13, the address codes in GRAM. -/
theorem gramAccumulates : Obligations.GramAccumulates := by
  unfold Obligations.GramAccumulates
  intro e ss mem coef s
  have hA := operandA_memG_toInt e s mem
  refine ⟨decode_word _ _ _ _ _ .acga rfl, fun h => ?_, fun h => ?_,
    decode_word _ _ _ _ _ .acgb rfl, fun h => ?_, fun h => ?_⟩
  · exact exec_accumulates (.acga e ss mem coef) _ s ((admitsOperand_iff mem).2 h) rfl rfl rfl hA
  · exact exec_raises (.acga e ss mem coef) s (admitsOperand_eq_false mem h)
  · exact exec_accumulates (.acgb e ss mem coef) _ s ((admitsOperand_iff mem).2 h) rfl rfl rfl hA
  · exact exec_raises (.acgb e ss mem coef) s (admitsOperand_eq_false mem h)

/-- Settles O15: the rows of ERDA and ERDB accumulate from the latch, which the commit step of the same
cycle has already loaded where a read commits. -/
theorem readLatchAccumulates : Obligations.ReadLatchAccumulates := by
  unfold Obligations.ReadLatchAccumulates
  intro e ss mem coef s
  have hA := operandA_rdLatch_toInt e s
  refine ⟨decode_word _ _ _ _ _ .erda rfl, fun h => ?_, fun h => ?_,
    decode_word _ _ _ _ _ .erdb rfl, fun h => ?_, fun h => ?_⟩
  · exact exec_accumulates (.erda e ss mem coef) _ s ((admitsLatch_iff mem).2 h) rfl rfl rfl hA
  · exact exec_raises (.erda e ss mem coef) s (admitsLatch_eq_false mem h)
  · exact exec_accumulates (.erdb e ss mem coef) _ s ((admitsLatch_iff mem).2 h) rfl rfl rfl hA
  · exact exec_raises (.erdb e ss mem coef) s (admitsLatch_eq_false mem h)

end Sys2Proof.Machine
end

section
/-! Proofs about the store family (44_store_family.md). A store's row accumulates the operand it stores:
the delayed, saturated, unsuppressed accumulator. The four stores differ in the accumulator and in the
space their effect writes. -/

namespace Sys2Proof.Machine

open Sys2Proof.Config (Params)
open Sys2Proof.Claims

/-! ### The operand and the admitted codes -/

theorem admitsStore_eq_false (mem : Byte) (h : mem.toNat < 0x05 ∨ 0xC0 ≤ mem.toNat) :
    admitsStore mem = false := by
  rw [Bool.eq_false_iff, Ne, admitsStore_iff]
  omega

/-- The source PIPE_SAT(x) gives the delayed, saturated accumulator, or 0 under suppression (R89, R116). -/
theorem operandA_pipeSat_toInt (p : Params) (e : BitVec 5) (s : State) (x : AccId) :
    (operandA p (eramStep p e s) (.pipeSat x)).toInt = pipeSat s x := by
  have hsat : (readSat24 (s.me.acc x).pipe).toInt = sat24 (delayed (s.me.acc x)) :=
    (saturatedAndRawReads (s.me.acc x).pipe).1
  rw [operandA_eramStep _ _ _ _ (by simp), operandA_toInt_eq_unsuppressed, sourceA, hsat, pipeSat]

/-- The same operand as the 24 bits a store writes (R121). -/
theorem operandA_pipeSat_eq_bits24 (p : Params) (e : BitVec 5) (s : State) (x : AccId) :
    operandA p (eramStep p e s) (.pipeSat x) = bits24 (pipeSat s x) := by
  rw [← operandA_pipeSat_toInt p e, bits24, BitVec.ofInt_toInt]

/-! ### The cell a store's cycle leaves -/

section macCycle
variable (p : Params) (cat : Category) (e : BitVec 5) (d : Mac) (s : State) (m : Byte)

theorem macCycle_read_iram_of_storeI (h : d.effect = .storeI m) :
    Mem.read (macCycle p cat e d s).me.iram ((m.toNat + s.me.iramPos.toNat) % 256)
      = operandA p (eramStep p e s) d.srcA := by
  rw [macCycle_me_iram, h, ← ea_eq]
  exact Mem.read_write_same ..

theorem macCycle_read_gram_of_storeG (h : d.effect = .storeG m) :
    Mem.read (macCycle p cat e d s).gram ((m.toNat + s.me.iramPos.toNat) % 256)
      = operandA p (eramStep p e s) d.srcA := by
  rw [macCycle_gram, h, ← ea_eq]
  exact Mem.read_write_same ..

end macCycle

/-! ### The legal store -/

section store
variable (i : Instr) (s : State) (x : AccId) (mem coef : Byte) (ss : BitVec 2)

/-- A row that accumulates PIPE_SAT(x) into x, whatever its effect. -/
theorem macCycle_accumulates_pipeSat (p : Params) (cat : Category) (e : BitVec 5) (eff : Effect) :
    Accumulates s (macCycle p cat e ⟨x, .accumulate, .pipeSat x, .coef coef, ss, eff⟩ s) x
      (pipeSat s x) coef.toInt ss := by
  rw [← operandA_pipeSat_toInt p e]
  exact macCycle_accumulates p cat e ⟨x, .accumulate, .pipeSat x, .coef coef, ss, eff⟩ s rfl

theorem exec_stores_iram (hl : i.legal = true)
    (hd : rowOf i = some ⟨x, .accumulate, .pipeSat x, .coef coef, ss, .storeI mem⟩) :
    ∃ t, exec i s = .next t ∧ Completed (categoryOf i) s t
      ∧ Mem.read t.me.iram ((mem.toNat + s.me.iramPos.toNat) % 256) = bits24 (pipeSat s x)
      ∧ Accumulates s t x (pipeSat s x) coef.toInt ss :=
  ⟨_, exec_row i _ s hl hd, macCycle_completed ..,
    (macCycle_read_iram_of_storeI _ _ _ _ _ _ rfl).trans (operandA_pipeSat_eq_bits24 ..),
    macCycle_accumulates_pipeSat ..⟩

theorem exec_stores_gram (hl : i.legal = true)
    (hd : rowOf i = some ⟨x, .accumulate, .pipeSat x, .coef coef, ss, .storeG mem⟩) :
    ∃ t, exec i s = .next t ∧ Completed (categoryOf i) s t
      ∧ Mem.read t.gram ((mem.toNat + s.me.iramPos.toNat) % 256) = bits24 (pipeSat s x)
      ∧ Accumulates s t x (pipeSat s x) coef.toInt ss :=
  ⟨_, exec_row i _ s hl hd, macCycle_completed ..,
    (macCycle_read_gram_of_storeG _ _ _ _ _ _ rfl).trans (operandA_pipeSat_eq_bits24 ..),
    macCycle_accumulates_pipeSat ..⟩

end store

/-! ### The obligations -/

/-- Settles O16: each word decodes by its `opf`; a legal STIA or STIB writes the operand it accumulates
to IRAM; `mem` outside the address codes raises MEM. -/
theorem iramStoresDelayedAccumulator : Obligations.IramStoresDelayedAccumulator := by
  unfold Obligations.IramStoresDelayedAccumulator
  intro e ss mem coef s
  refine ⟨decode_word _ _ _ _ _ .stia rfl, fun h => ?_, fun h => ?_,
    decode_word _ _ _ _ _ .stib rfl, fun h => ?_, fun h => ?_⟩
  · exact exec_stores_iram (.stia e ss mem coef) s .a mem coef ss ((admitsStore_iff mem).2 h) rfl
  · exact exec_raises (.stia e ss mem coef) s (admitsStore_eq_false mem h)
  · exact exec_stores_iram (.stib e ss mem coef) s .b mem coef ss ((admitsStore_iff mem).2 h) rfl
  · exact exec_raises (.stib e ss mem coef) s (admitsStore_eq_false mem h)

/-- Settles O17: as O16, the cell in GRAM at the running core's own position. -/
theorem gramStoresDelayedAccumulator : Obligations.GramStoresDelayedAccumulator := by
  unfold Obligations.GramStoresDelayedAccumulator
  intro e ss mem coef s
  refine ⟨decode_word _ _ _ _ _ .stga rfl, fun h => ?_, fun h => ?_,
    decode_word _ _ _ _ _ .stgb rfl, fun h => ?_, fun h => ?_⟩
  · exact exec_stores_gram (.stga e ss mem coef) s .a mem coef ss ((admitsStore_iff mem).2 h) rfl
  · exact exec_raises (.stga e ss mem coef) s (admitsStore_eq_false mem h)
  · exact exec_stores_gram (.stgb e ss mem coef) s .b mem coef ss ((admitsStore_iff mem).2 h) rfl
  · exact exec_raises (.stgb e ss mem coef) s (admitsStore_eq_false mem h)

end Sys2Proof.Machine
end

section
/-! Proofs about the control-register family (45_control_family.md). Every admitted sub-code accumulates
into A (R143); the sub-codes differ in operand B, in the register or cell they write, and CTRL.RECT in
operand A. -/

namespace Sys2Proof.Machine

open Sys2Proof.Config (Params)
open Sys2Proof.Claims

/-! ### The encoding -/

/-- A CTRL word is the word of operation 13 whose `mem` is the control code of its sub-code (R71, R143). -/
theorem ctrlWord_eq_word (sub : BitVec 4) (e : BitVec 5) (ss : BitVec 2) (coef : Byte) :
    ctrlWord sub e ss coef = word e 13 ss (0xC#4 ++ sub) coef :=
  congrArg (· ++ coef) (BitVec.append_assoc (x₁ := e ++ 0#4 ++ 13#5 ++ ss) (x₂ := 0xC#4) (x₃ := sub))

/-- The high nibble 0xC makes a control code, whatever the sub-code (R68). -/
theorem isControlCode_append (sub : BitVec 4) : isControlCode (0xC#4 ++ sub) = true := by
  revert sub; decide

theorem decode_ctrlWord (sub : BitVec 4) (e : BitVec 5) (ss : BitVec 2) (coef : Byte) :
    decode (ctrlWord sub e ss coef) = .ok (ctrlOf sub e ss coef) := by
  have hsub : (0xC#4 ++ sub).extractLsb' 0 4 = sub := by revert sub; decide
  rw [ctrlWord_eq_word, decode_word _ _ _ _ _ .ctrl rfl, instrOf, if_pos (isControlCode_append sub), hsub]

/-! ### The operands -/

/-- Operand B of CTRL.CARRY (R148). -/
theorem operandB_carryOr_toInt (s : State) (c : Byte) :
    (operandB s (.carryOr c)).toInt = if s.me.prevOp = .mulc then s.me.carry.toInt else c.toInt := by
  simp only [operandB, carryPaired, decide_eq_true_eq, apply_ite BitVec.toInt]

/-- Operand B of CTRL.CR (R158). -/
theorem operandB_bank (s : State) (c : Byte) :
    operandB s (.bank c) = Mem.read s.coefBank (c.toNat % 8) := by
  rw [operandB, bankIndex_eq]

/-- Operand A of CTRL.RECT (R151, R116). -/
theorem operandA_rect_toInt (p : Params) (e : BitVec 5) (s : State) :
    (operandA p (eramStep p e s) .rect).toInt
      = unsuppressed s (min (|sat24 (delayed s.me.a)|) 0x7FFFFF) := by
  have hsat : (readSat24 s.me.a.pipe).toInt = sat24 (delayed s.me.a) :=
    (saturatedAndRawReads s.me.a.pipe).1
  rw [operandA_eramStep _ _ _ _ (by simp), operandA_toInt_eq_unsuppressed, sourceA, rectify_toInt, hsat]

/-! ### What a CTRL cycle accumulates and writes -/

/-- Adding a product with 0 leaves a 30-bit accumulator as it is (R157, R19). -/
theorem rawFull_eq_of_accumulates_zero {s t : State} {x : AccId} {opA : Int} {ss : BitVec 2}
    (h : Accumulates s t x opA 0 ss) (hf : fits30 (s.me.acc x).rawFull) :
    (t.me.acc x).rawFull = (s.me.acc x).rawFull := by
  obtain ⟨hlo, hhi⟩ := (fits30_iff _).1 hf
  apply BitVec.eq_of_toInt_eq
  rw [h, mulShift, mul_zero, Int.zero_ediv, add_zero, wrapped, ← wrap30_toInt,
    wrap30_toInt_of_lt _ hlo hhi]

section macCycle
variable (p : Params) (cat : Category) (e : BitVec 5) (d : Mac) (s : State)
  (hA : d.srcA = .pipeSat .a)
include hA

theorem macCycle_interp_toInt_of_seti (h : d.effect = .seti) :
    (macCycle p cat e d s).me.interp.toInt = pipeSat s .a / 2 ^ 16 := by
  rw [macCycle_me_interp, h, hA, ← operandA_pipeSat_toInt p e]
  exact toInt_high8 _

theorem macCycle_wrLatch_toInt_of_wl (h : d.effect = .wl) :
    (macCycle p cat e d s).me.wrLatch.toInt = pipeSat s .a := by
  rw [macCycle_me_wrLatch, h, hA, ← operandA_pipeSat_toInt p e]

theorem macCycle_varOfs_toInt_of_vo (h : d.effect = .vo) :
    (macCycle p cat e d s).me.varOfs.toInt = pipeSat s .a / 2 ^ 8 := by
  rw [macCycle_me_varOfs, h, hA, ← operandA_pipeSat_toInt p e]
  exact toInt_high16 _

theorem macCycle_read_coefBank_of_cw (c : Byte) (h : d.effect = .cw c) :
    (Mem.read (macCycle p cat e d s).coefBank (c.toNat % 8)).toInt = pipeSat s .a / 2 ^ 16 := by
  rw [macCycle_coefBank, h, hA, ← operandA_pipeSat_toInt p e, ← bankIndex_eq]
  exact (congrArg BitVec.toInt (Mem.read_write_same ..)).trans (toInt_high8 _)

end macCycle

/-! ### The obligations -/

/-- Settles O18: the four rows accumulate PIPE_SAT(A) and have no effect; their operands B are the
coefficient and the interpolation register, each plain and complemented. -/
theorem ctrlMacsDelayedA : Obligations.CtrlMacsDelayedA := by
  unfold Obligations.CtrlMacsDelayedA
  intro e ss coef s
  have hA := operandA_pipeSat_toInt Config.params e s .a
  rw [← toInt_not coef, ← toInt_not s.me.interp]
  refine ⟨⟨decode_ctrlWord .., ?_⟩, ⟨decode_ctrlWord .., ?_⟩, ⟨decode_ctrlWord .., ?_⟩,
    ⟨decode_ctrlWord .., ?_⟩⟩
  · exact exec_accumulates (.ctrlNop e ss coef) _ s rfl rfl rfl rfl hA
  · exact exec_accumulates (.ctrlInv e ss coef) _ s rfl rfl rfl rfl hA
  · exact exec_accumulates (.ctrlIntp e ss coef) _ s rfl rfl rfl rfl hA
  · exact exec_accumulates (.ctrlIntpn e ss coef) _ s rfl rfl rfl rfl hA

/-- Settles O19: the row's operand B is the carry latch exactly where the previous cycle was a MULC. -/
theorem ctrlCarryUsesLatchAfterMulc : Obligations.CtrlCarryUsesLatchAfterMulc := by
  unfold Obligations.CtrlCarryUsesLatchAfterMulc
  intro e ss coef s
  have hA := operandA_pipeSat_toInt Config.params e s .a
  rw [← operandB_carryOr_toInt]
  exact ⟨decode_ctrlWord .., exec_accumulates (.ctrlCarry e ss coef) _ s rfl rfl rfl rfl hA⟩

/-- Settles O20: the three rows accumulate as CTRL.NOP's does, and each effect writes its register with
its bits of operand A. -/
theorem ctrlWritesAuxRegisters : Obligations.CtrlWritesAuxRegisters := by
  unfold Obligations.CtrlWritesAuxRegisters
  intro e ss coef s
  refine ⟨⟨decode_ctrlWord .., ?_⟩, ⟨decode_ctrlWord .., ?_⟩, ⟨decode_ctrlWord .., ?_⟩⟩
  · exact ⟨_, exec_row (.ctrlSeti e ss coef) _ s rfl rfl, macCycle_completed ..,
      macCycle_accumulates_pipeSat .., macCycle_interp_toInt_of_seti _ _ _ _ _ rfl rfl⟩
  · exact ⟨_, exec_row (.ctrlWl e ss coef) _ s rfl rfl, macCycle_completed ..,
      macCycle_accumulates_pipeSat .., macCycle_wrLatch_toInt_of_wl _ _ _ _ _ rfl rfl⟩
  · exact ⟨_, exec_row (.ctrlVo e ss coef) _ s rfl rfl, macCycle_completed ..,
      macCycle_accumulates_pipeSat .., macCycle_varOfs_toInt_of_vo _ _ _ _ _ rfl rfl⟩

/-- Settles O23: the row's operand A is the rectified PIPE_SAT(A); it has no effect. -/
theorem ctrlRectMacsAbsoluteValue : Obligations.CtrlRectMacsAbsoluteValue := by
  unfold Obligations.CtrlRectMacsAbsoluteValue
  intro e ss coef s
  have hA := operandA_rect_toInt Config.params e s
  exact ⟨decode_ctrlWord .., exec_accumulates (.ctrlRect e ss coef) _ s rfl rfl rfl rfl hA⟩

/-- Settles O24: CTRL.CW's operand B is 0 and its effect writes the entry; CTRL.CR's operand B is the
entry. -/
theorem ctrlBankWriteAndRead : Obligations.CtrlBankWriteAndRead := by
  unfold Obligations.CtrlBankWriteAndRead
  intro e ss coef s
  have hA := operandA_pipeSat_toInt Config.params e s .a
  refine ⟨⟨decode_ctrlWord .., ?_⟩, ⟨decode_ctrlWord .., ?_⟩⟩
  · have hacc := macCycle_accumulates Config.params .ctrl e
      ⟨.a, .accumulate, .pipeSat .a, .zero, ss, .cw coef⟩ s rfl
    rw [hA] at hacc
    exact ⟨_, exec_row (.ctrlCw e ss coef) _ s rfl rfl, macCycle_completed .., hacc,
      rawFull_eq_of_accumulates_zero hacc, macCycle_read_coefBank_of_cw _ _ _ _ _ rfl _ rfl⟩
  · rw [← operandB_bank]
    exact exec_accumulates (.ctrlCr e ss coef) _ s rfl rfl rfl rfl hA

end Sys2Proof.Machine
end

section
/-! Proofs about the encoding (30_encoding.md): the word of every instruction decodes to it, under any
valid layout and any map, and every accepted word is the word of what it decodes to. -/

namespace Sys2Proof

open Sys2Proof.Config (OpMap Encoding)
open Sys2Proof.Machine Sys2Proof.Claims

/-! ### The word of an instruction decodes to it -/

/-- The high nibble 0xC makes `mem` a control code (R68, R143). -/
theorem controlCode_eq_append (sub : BitVec 4) :
    BitVec.ofNat 8 (memControlMin + sub.toNat) = 0xC#4 ++ sub := by
  revert sub; decide

theorem instrOf_ctrl_append (sub : BitVec 4) (e : BitVec 5) (ss : BitVec 2) (coef : Byte) :
    instrOf .ctrl e ss (0xC#4 ++ sub) coef = .ok (ctrlOf sub e ss coef) := by
  have hsub : (0xC#4 ++ sub).extractLsb' 0 4 = sub := by revert sub; decide
  rw [instrOf, if_pos (isControlCode_append sub), hsub]

section anyEncoding
variable (enc : Encoding) (hl : enc.layout.Valid) (e opf : BitVec 5) (ss : BitVec 2) (mem coef : Byte)
include hl

theorem decodeWith_assembleCtrl (sub : BitVec 4)
    (h : allOpf.any (fun opf => enc.opMap opf == some .ctrl) = true) :
    decodeWith enc (assembleCtrl enc sub e ss coef) = .ok (ctrlOf sub e ss coef) := by
  rw [assembleCtrl, controlCode_eq_append, decodeWith_assembleOp enc hl .ctrl h, instrOf_ctrl_append]

theorem decodeWith_assemble_of_unmapped (h : enc.opMap opf = none) :
    decodeWith enc (assemble enc.layout e opf ss mem coef) = .ok (.unsupportedOp e opf ss mem coef) := by
  have f := assembled_fields enc.layout hl e opf ss mem coef
  simp only at f
  simp [decodeWith, f, h]

/-- Under a valid layout the word of a well-formed instruction decodes to it (R8, R65). -/
theorem decodeWith_encodeWith (i : Instr) (h : i.wellFormedIn enc.opMap = true) :
    decodeWith enc (encodeWith enc i) = .ok i := by
  cases i
  case unsupportedOp => exact decodeWith_assemble_of_unmapped enc hl _ _ _ _ _ (eq_of_beq h)
  case ctrlNop | ctrlInv | ctrlIntp | ctrlIntpn | ctrlCarry | ctrlSeti | ctrlCond | ctrlRect | ctrlJmp
    | ctrlJmpc | ctrlHost | ctrlWl | ctrlVo | ctrlCw | ctrlCr | ctrlMix =>
    exact decodeWith_assembleCtrl enc hl _ _ _ _ h
  case nop | lda | ldb | mulc | aca | acb | acga | acgb | stia | stib | stga | stgb | erda | erdb =>
    exact decodeWith_assembleOp enc hl _ h ..

end anyEncoding

/-- Settles O1: the general round trip at the reference layout, which is valid. -/
theorem decodeOfEncodeIsIdentity : Obligations.DecodeOfEncodeIsIdentity := by
  unfold Obligations.DecodeOfEncodeIsIdentity
  exact decodeWith_encodeWith referenceEncoding fieldLayout_valid

/-! ### A step of a block with any encoding -/

/-- A step whose call is a cycle of core `c` is that cycle on the state with the call issued. -/
theorem stepIn_of_cycle (enc : Encoding) (s : State) (c : CoreId) (h : nextCall s = .stepCycle c) :
    stepIn enc s = stepCycle enc c (issueCall s) := by
  rw [stepIn, h, takeCall]

theorem stepCycle_of_ok (enc : Encoding) (c : CoreId) (s : State) (i : Instr)
    (h : decodeWith enc (fetch (s.core c)) = .ok i) :
    stepCycle enc c s = exec i { s with active := c } := by
  simp only [stepCycle, h]

theorem stepCycle_of_error (enc : Encoding) (c : CoreId) (s : State) (r : Reason)
    (h : decodeWith enc (fetch (s.core c)) = .error r) :
    stepCycle enc c s = .next (raised r { s with active := c }) := by
  simp only [stepCycle, h]; rfl

/-- Only a cycle reads a word, so only a cycle depends on the encoding. -/
theorem takeCall_eq_of_not_cycle (enc enc' : Encoding) (call : HostCall) (s : State)
    (h : ∀ c, call ≠ .stepCycle c) : takeCall enc call s = takeCall enc' call s := by
  cases call
  case stepCycle c => exact absurd rfl (h c)
  case stepSample | writeProgramByte | writeCoefficientOnly | readHostRegister => rfl

/-- Settles O60: the round trip; the fetch finds the word, so the cycle is the instruction's; the other
calls do not depend on the encoding. -/
theorem anyEncodingRunsTheSameMeanings : Obligations.AnyEncodingRunsTheSameMeanings := by
  unfold Obligations.AnyEncodingRunsTheSameMeanings
  intro enc i hl hw
  have hround := decodeWith_encodeWith enc hl i hw
  refine ⟨hround, fun s c hc hword => ?_, fun s hs => takeCall_eq_of_not_cycle _ _ _ _ hs⟩
  rw [stepIn_of_cycle enc s c hc]
  exact stepCycle_of_ok enc c _ i (by rw [issueCall_core, fetch, hword, hround])

/-! ### An accepted word is the word of its instruction -/

/-- The reference map gives each category one `opf`, the one the encoder writes (R75). -/
theorem opfFor_opMap (opf : BitVec 5) (cat : Category) (h : opMap opf = some cat) :
    opfFor opMap cat = opf := by
  revert opf; cases cat <;> decide

/-- The word of every control sub-code (R76). -/
theorem encodeWith_ctrlOf (enc : Encoding) (sub : BitVec 4) (e : BitVec 5) (ss : BitVec 2)
    (coef : Byte) : encodeWith enc (ctrlOf sub e ss coef) = assembleCtrl enc sub e ss coef := by
  obtain ⟨n, hn⟩ := sub
  interval_cases n <;> rfl

theorem category_ctrlOf (sub : BitVec 4) (e : BitVec 5) (ss : BitVec 2) (coef : Byte) :
    (ctrlOf sub e ss coef).category = some .ctrl := by
  unfold ctrlOf; split <;> rfl

/-- A control code is 0xC0 plus its sub-code (R68, R71). -/
theorem controlCode_of_sub (mem : Byte) (h : isControlCode mem = true) :
    BitVec.ofNat 8 (memControlMin + (mem.extractLsb' 0 4).toNat) = mem := by
  obtain ⟨hlo, hhi⟩ : 0xC0 ≤ mem.toNat ∧ mem.toNat < 0xD0 := of_decide_eq_true h
  apply BitVec.eq_of_toNat_eq
  rw [BitVec.toNat_ofNat, BitVec.extractLsb'_toNat, Nat.shiftRight_eq_div_pow]
  simp only [memControlMin]
  omega

/-- What `instrOf` gives is written with the fields it was given, and has the category it was given. -/
theorem instrOf_ok (enc : Encoding) (cat : Category) (e : BitVec 5) (ss : BitVec 2) (mem coef : Byte)
    (i : Instr) (h : instrOf cat e ss mem coef = .ok i) :
    encodeWith enc i = assembleOp enc cat e ss mem coef ∧ i.category = some cat := by
  cases cat
  case ctrl =>
    rw [instrOf] at h
    split at h
    case isTrue hc =>
      cases h
      rw [encodeWith_ctrlOf, assembleCtrl, controlCode_of_sub mem hc]
      exact ⟨rfl, category_ctrlOf ..⟩
    case isFalse => cases h
  all_goals cases h; exact ⟨rfl, rfl⟩

/-- An instruction whose category some `opf` selects is well-formed. -/
theorem wellFormedIn_of_category (map : OpMap) (i : Instr) (opf : BitVec 5) (cat : Category)
    (hc : i.category = some cat) (h : map opf = some cat) : i.wellFormedIn map = true := by
  have hany : allOpf.any (fun o => map o == i.category) = true :=
    List.any_eq_true.2 ⟨opf, mem_allOpf opf, by simp [h, hc]⟩
  cases i
  case unsupportedOp => cases hc
  all_goals exact hany

/-- Settles O2: a word the decoder accepts has its reserved bits 0, so it is assembled from the fields
read; its `opf` is the one the encoder writes for the category. -/
theorem encodeOfDecodeIsIdentity : Obligations.EncodeOfDecodeIsIdentity := by
  unfold Obligations.EncodeOfDecodeIsIdentity
  intro w i h
  rw [decode_eq] at h
  split at h
  case isFalse => cases h
  case isTrue hr =>
    split at h
    case h_1 cat hm =>
      obtain ⟨hw, hc⟩ := instrOf_ok referenceEncoding cat _ _ _ _ i h
      refine ⟨?_, wellFormedIn_of_category opMap i _ cat hc hm⟩
      rw [encode, hw, assembleOp]
      exact (congrArg (assemble fieldLayout _ · _ _ _) (opfFor_opMap _ _ hm)).trans
        (assemble_fields w hr)
    case h_2 hm =>
      cases h
      exact ⟨assemble_fields w hr, beq_iff_eq.2 hm⟩

/-! ### The layout in bits -/

section layout
variable {e opf : BitVec 5} {ss : BitVec 2} {mem coef : Byte}

theorem assembleOp_eq_word {cat : Category} (h : opMap opf = some cat) :
    assembleOp referenceEncoding cat e ss mem coef = word e opf ss mem coef := by
  rw [← opfFor_opMap opf cat h]
  exact assemble_eq_append ..

theorem assembleCtrl_eq_ctrlWord {sub : BitVec 4} :
    assembleCtrl referenceEncoding sub e ss coef = ctrlWord sub e ss coef := by
  rw [ctrlWord_eq_word, assembleCtrl, controlCode_eq_append, assembleOp_eq_word (opf := 13) rfl]

end layout

/-- Settles O3: every word is assembled, with the `opf` of its category; a CTRL word with the control
code of its sub-code. -/
theorem wordLayoutOfEveryInstruction : Obligations.WordLayoutOfEveryInstruction := by
  unfold Obligations.WordLayoutOfEveryInstruction
  intro e opf ss mem coef
  exact ⟨assembleOp_eq_word rfl, assembleOp_eq_word rfl, assembleOp_eq_word rfl,
    assembleOp_eq_word rfl, assembleOp_eq_word rfl, assembleOp_eq_word rfl, assembleOp_eq_word rfl,
    assembleOp_eq_word rfl, assembleOp_eq_word rfl, assembleOp_eq_word rfl, assembleOp_eq_word rfl,
    assembleOp_eq_word rfl, assembleOp_eq_word rfl, assembleOp_eq_word rfl,
    assembleCtrl_eq_ctrlWord, assembleCtrl_eq_ctrlWord, assembleCtrl_eq_ctrlWord,
    assembleCtrl_eq_ctrlWord, assembleCtrl_eq_ctrlWord, assembleCtrl_eq_ctrlWord,
    assembleCtrl_eq_ctrlWord, assembleCtrl_eq_ctrlWord, assembleCtrl_eq_ctrlWord,
    assembleCtrl_eq_ctrlWord, assembleCtrl_eq_ctrlWord, assembleCtrl_eq_ctrlWord,
    assembleCtrl_eq_ctrlWord, assembleCtrl_eq_ctrlWord, assembleCtrl_eq_ctrlWord,
    assembleCtrl_eq_ctrlWord, assemble_eq_append ..⟩

/-- Settles O4: the decoder run on the eleven words. -/
theorem specTableWordsDecode : Obligations.SpecTableWordsDecode := by
  unfold Obligations.SpecTableWordsDecode
  decide

/-- Settles O5: bits 26:18 are the reserved bits and `opf`, and `opf` 0 is the category NOP. -/
theorem zeroOpfWordsAreNops : Obligations.ZeroOpfWordsAreNops := by
  unfold Obligations.ZeroOpfWordsAreNops
  refine ⟨by decide, fun w hw => ?_⟩
  have hr : rsvdOf fieldLayout w = 0 := by
    apply BitVec.eq_of_toNat_eq
    rw [rsvdOf, extract_toNat]
    simp only [fieldLayout, BitVec.ofNat_eq_ofNat, BitVec.toNat_ofNat]
    omega
  have ho : opfOf fieldLayout w = 0 := by
    apply BitVec.eq_of_toNat_eq
    rw [opfOf, extract_toNat]
    simp only [fieldLayout, BitVec.ofNat_eq_ofNat, BitVec.toNat_ofNat]
    omega
  have he : eramCtrlOf fieldLayout w = BitVec.ofNat 5 (w.toNat / 2 ^ 27) := by
    apply BitVec.eq_of_toNat_eq
    rw [eramCtrlOf, extract_toNat, BitVec.toNat_ofNat]
    rfl
  have hm : opMap 0 = some .nop := rfl
  refine ⟨shiftSelOf fieldLayout w, memOf fieldLayout w, coefOf fieldLayout w, ?_⟩
  rw [decode_eq, if_pos hr, ho, hm, he]
  rfl

end Sys2Proof
end

section
/-! What the cycle of any legal instruction does (42_core_cycle.md), said once: its memories, auxiliary
registers, accumulators and skipfield, by the side effect and the destination of the row it runs. -/

namespace Sys2Proof.Machine

open Sys2Proof.Config (Params)
open Sys2Proof.Claims

/-! ### The side effect of an instruction (R121) -/

/-- The side effect of the row an instruction runs, if it runs one. -/
def effectOf (i : Instr) : Effect :=
  match rowOf i with
  | some d => d.effect
  | none => .none

theorem effectOf_of_row (i : Instr) {d : Mac} (h : rowOf i = some d) : effectOf i = d.effect := by
  simp only [effectOf, h]

/-- The one instruction, or two, with each side effect. -/
theorem storeI_of_effectOf {i : Instr} {m : Byte} (h : effectOf i = .storeI m) :
    (∃ e ss coef, i = .stia e ss m coef) ∨ ∃ e ss coef, i = .stib e ss m coef := by
  cases i <;> cases h
  · exact .inl ⟨_, _, _, rfl⟩
  · exact .inr ⟨_, _, _, rfl⟩

theorem storeG_of_effectOf {i : Instr} {m : Byte} (h : effectOf i = .storeG m) :
    (∃ e ss coef, i = .stga e ss m coef) ∨ ∃ e ss coef, i = .stgb e ss m coef := by
  cases i <;> cases h
  · exact .inl ⟨_, _, _, rfl⟩
  · exact .inr ⟨_, _, _, rfl⟩

theorem ctrlCw_of_effectOf {i : Instr} {c : Byte} (h : effectOf i = .cw c) :
    ∃ e ss, i = .ctrlCw e ss c := by
  cases i <;> cases h
  exact ⟨_, _, rfl⟩

theorem ctrlSeti_of_effectOf {i : Instr} (h : effectOf i = .seti) :
    ∃ e ss coef, i = .ctrlSeti e ss coef := by
  cases i <;> cases h
  exact ⟨_, _, _, rfl⟩

theorem mulc_of_effectOf {i : Instr} (h : effectOf i = .carry) :
    ∃ e ss mem coef, i = .mulc e ss mem coef := by
  cases i <;> cases h
  exact ⟨_, _, _, _, rfl⟩

theorem ctrlHost_of_effectOf {i : Instr} (h : effectOf i = .host) :
    ∃ e ss coef, i = .ctrlHost e ss coef := by
  cases i <;> cases h
  exact ⟨_, _, _, rfl⟩

theorem ctrlWl_of_effectOf {i : Instr} (h : effectOf i = .wl) :
    ∃ e ss coef, i = .ctrlWl e ss coef := by
  cases i <;> cases h
  exact ⟨_, _, _, rfl⟩

theorem ctrlVo_of_effectOf {i : Instr} (h : effectOf i = .vo) :
    ∃ e ss coef, i = .ctrlVo e ss coef := by
  cases i <;> cases h
  exact ⟨_, _, _, rfl⟩

/-- The row with the effect `cond` is CTRL.COND's, whose operand A is PIPE_SAT(A) (R150). -/
theorem rowOf_cond {i : Instr} {d : Mac} (h : rowOf i = some d) :
    isCond i = decide (d.effect = .cond) ∧ (d.effect = .cond → d.srcA = .pipeSat .a) := by
  cases i <;> cases h <;> exact ⟨rfl, by simp⟩

theorem isCond_of_no_row {i : Instr} (h : rowOf i = none) : isCond i = false := by
  cases i <;> cases h <;> rfl

section cycle
variable (p : Params) (i : Instr) (s : State)

theorem cycleOf_pc_val : (cycleOf p i s).me.pc.val = (s.me.pc.val + 1) % 768 := by
  rw [cycleOf_me_pc, nextPc_val]

/-! ### Memories -/

/-- IRAM after a cycle: as before, or with one cell written by a store. -/
theorem cycleOf_me_iram : (cycleOf p i s).me.iram = s.me.iram
    ∨ ∃ m v, effectOf i = .storeI m
      ∧ (cycleOf p i s).me.iram = Mem.write s.me.iram (ea s.me m) v := by
  unfold cycleOf
  split
  case h_1 => exact .inl (nopCycle_me_iram ..)
  case h_2 d hd =>
    rw [macCycle_me_iram, effectOf_of_row i hd]
    split
    case h_1 m hm => exact .inr ⟨m, _, hm, rfl⟩
    case h_2 => exact .inl rfl

/-- GRAM after a cycle: as before, or with one cell written by a store. -/
theorem cycleOf_gram : (cycleOf p i s).gram = s.gram
    ∨ ∃ m v, effectOf i = .storeG m ∧ (cycleOf p i s).gram = Mem.write s.gram (ea s.me m) v := by
  unfold cycleOf
  split
  case h_1 => exact .inl (nopCycle_gram ..)
  case h_2 d hd =>
    rw [macCycle_gram, effectOf_of_row i hd]
    split
    case h_1 m hm => exact .inr ⟨m, _, hm, rfl⟩
    case h_2 => exact .inl rfl

/-- The coefficient bank after a cycle: as before, or with one entry written by CTRL.CW. -/
theorem cycleOf_coefBank : (cycleOf p i s).coefBank = s.coefBank
    ∨ ∃ c v, effectOf i = .cw c
      ∧ (cycleOf p i s).coefBank = Mem.write s.coefBank (bankIndex c) v := by
  unfold cycleOf
  split
  case h_1 => exact .inl (nopCycle_coefBank ..)
  case h_2 d hd =>
    rw [macCycle_coefBank, effectOf_of_row i hd]
    split
    case h_1 c hc => exact .inr ⟨c, _, hc, rfl⟩
    case h_2 => exact .inl rfl

/-! ### Auxiliary registers -/

theorem cycleOf_me_interp (h : effectOf i ≠ .seti) : (cycleOf p i s).me.interp = s.me.interp := by
  unfold cycleOf
  split
  case h_1 => exact nopCycle_me_interp ..
  case h_2 d hd =>
    rw [effectOf_of_row i hd] at h
    rw [macCycle_me_interp]
    split
    case h_1 he => exact absurd he h
    case h_2 => rfl

theorem cycleOf_me_carry (h : effectOf i ≠ .carry) : (cycleOf p i s).me.carry = s.me.carry := by
  unfold cycleOf
  split
  case h_1 => exact nopCycle_me_carry ..
  case h_2 d hd =>
    rw [effectOf_of_row i hd] at h
    rw [macCycle_me_carry]
    split
    case h_1 he => exact absurd he h
    case h_2 => rfl

theorem cycleOf_me_host (h : effectOf i ≠ .host) : (cycleOf p i s).me.host = s.me.host := by
  unfold cycleOf
  split
  case h_1 => exact nopCycle_me_host ..
  case h_2 d hd =>
    rw [effectOf_of_row i hd] at h
    rw [macCycle_me_host]
    split
    case h_1 he => exact absurd he h
    case h_2 => rfl

theorem cycleOf_me_wrLatch (h : effectOf i ≠ .wl) : (cycleOf p i s).me.wrLatch = s.me.wrLatch := by
  unfold cycleOf
  split
  case h_1 => exact nopCycle_me_wrLatch ..
  case h_2 d hd =>
    rw [effectOf_of_row i hd] at h
    rw [macCycle_me_wrLatch]
    split
    case h_1 he => exact absurd he h
    case h_2 => rfl

theorem cycleOf_me_varOfs (h : effectOf i ≠ .vo) : (cycleOf p i s).me.varOfs = s.me.varOfs := by
  unfold cycleOf
  split
  case h_1 => exact nopCycle_me_varOfs ..
  case h_2 d hd =>
    rw [effectOf_of_row i hd] at h
    rw [macCycle_me_varOfs]
    split
    case h_1 he => exact absurd he h
    case h_2 => rfl

/-! ### Accumulators and skipfield -/

/-- `rawFull` changes only in the destination of the row (R92). -/
theorem cycleOf_rawFull_of_not_dst (x : AccId) (h : ∀ d, rowOf i = some d → d.dst ≠ x) :
    ((cycleOf p i s).me.acc x).rawFull = (s.me.acc x).rawFull := by
  unfold cycleOf
  split
  case h_1 => rw [nopCycle_me_acc, storePipeline_rawFull]
  case h_2 d hd => rw [macCycle_me_acc, storePipeline_rawFull, if_neg (h d hd)]

/-- A cycle leaves `rawFull` or writes a wrapped value (R83, R84). -/
theorem cycleOf_rawFull_fits (x : AccId) (h : fits30 (s.me.acc x).rawFull) :
    fits30 ((cycleOf p i s).me.acc x).rawFull := by
  unfold cycleOf
  split
  case h_1 => rwa [nopCycle_me_acc]
  case h_2 d _ =>
    rw [macCycle_me_acc, storePipeline_rawFull]
    split
    · exact macWrite_fits30 ..
    · exact h

theorem cycleOf_acc_fits (x : AccId) (h : (s.me.acc x).fits) : ((cycleOf p i s).me.acc x).fits := by
  rw [cycleOf_me_acc]
  exact storePipeline_fits _ ⟨cycleOf_rawFull_fits p i s x h.1, h.2⟩

theorem cycleOf_acc_head (x : AccId) : ((cycleOf p i s).me.acc x).head = (s.me.acc x).head + 1 := by
  rw [cycleOf_me_acc, storePipeline_head]

/-- The skipfield shifts; the predicate of a CTRL.COND enters at the top, 0 otherwise (R124). -/
theorem cycleOf_me_skipfield : (cycleOf p i s).me.skipfield =
    shiftSkip p s.me.skipfield (isCond i && p.setCond (bits24 (pipeSat s .a))) := by
  unfold cycleOf
  split
  case h_1 hd =>
    rw [nopCycle_me_skipfield, isCond_of_no_row hd, Bool.false_and]
  case h_2 d hd =>
    obtain ⟨hi, hA⟩ := rowOf_cond hd
    rw [macCycle_me_skipfield, datapathCond_eq, hi]
    by_cases hc : d.effect = .cond
    · rw [hA hc, operandA_pipeSat_eq_bits24]
    · simp only [hc, decide_false, Bool.false_and]

end cycle

end Sys2Proof.Machine
end

section
/-! Proofs about launch and the invariant: what each host call keeps (10_state.md, 20_memory.md,
41_eram_controller.md). The invariant of the whole state is split into each core's and the shared
part's; each call then moves a core's part or a shared field. -/

namespace Sys2Proof.Machine

open Sys2Proof.Config (Params)

/-! ### Launch -/

/-- Settles O57: the launch state is written out. -/
theorem launchRegisterValues : Obligations.LaunchRegisterValues := by
  unfold Obligations.LaunchRegisterValues
  intro img c
  have hacc : Acc.reset.rawFull = 0 ∧ (∀ j : Fin 3, Acc.reset.hist[j] = 0) ∧ Acc.reset.head = 0 := by
    decide
  cases c
  all_goals
    exact ⟨rfl, fun x => by cases x <;> exact hacc, rfl, rfl, rfl, rfl, rfl, rfl, rfl, rfl, rfl, rfl,
      rfl, rfl, fun _ => rfl, rfl, rfl, rfl, rfl, rfl, rfl, rfl, rfl⟩

/-- A core launched with empty images meets its invariant. -/
theorem launch_inv (p : Params) : (CoreState.launch [] []).Inv p where
  pramWf := rfl
  pramBelow := rfl
  iramWf := rfl
  iramBelow := rfl
  aFits := by decide
  bFits := by decide
  heads := rfl
  skip := Nat.two_pow_pos _
  timed := ⟨nofun, nofun, nofun⟩

/-- Settles O58: both cores are launched empty, and so are the shared memories. -/
theorem invariantAtReset : Obligations.InvariantAtReset := by
  unfold Obligations.InvariantAtReset
  exact ⟨launch_inv _, launch_inv _, rfl, rfl, rfl, rfl, rfl, rfl, eramWords_pos _, rfl⟩

/-! ### The invariant, core by core -/

section inv
variable {p : Params} {s t : State}

theorem State.Inv.core (h : s.Inv p) (c : CoreId) : (s.core c).Inv p := by
  cases c
  · exact h.core0
  · exact h.core1

theorem State.Inv.me (h : s.Inv p) : s.me.Inv p := h.core s.active

/-- The part of the invariant that speaks of no core. -/
structure State.SharedInv (p : Params) (s : State) : Prop where
  gramWf : s.gram.wf = true
  gramBelow : s.gram.below gramWords = true
  bankWf : s.coefBank.wf = true
  bankBelow : s.coefBank.below coefBankEntries = true
  eramWf : s.eram.wf = true
  eramBelow : s.eram.below p.eramWords = true
  eramPos : s.eramPos < p.eramWords

theorem State.Inv.shared (h : s.Inv p) : s.SharedInv p :=
  ⟨h.gramWf, h.gramBelow, h.bankWf, h.bankBelow, h.eramWf, h.eramBelow, h.eramPos⟩

/-- A change of one core that keeps the core's invariant, its position and the other core keeps the
invariant, if it keeps the shared part. -/
theorem State.Inv.of_core (c : CoreId) (h : s.Inv p) (hc : (t.core c).Inv p)
    (ho : t.core c.other = s.core c.other) (hpos : (t.core c).iramPos = (s.core c).iramPos)
    (hs : t.SharedInv p) : t.Inv p := by
  obtain ⟨gw, gb, bw, bb, ew, eb, ep⟩ := hs
  cases c
  case core0 =>
    change t.core1 = s.core1 at ho
    exact ⟨hc, ho ▸ h.core1, gw, gb, bw, bb, ew, eb, ep, by rw [ho]; exact hpos.trans h.positions⟩
  case core1 =>
    change t.core0 = s.core0 at ho
    exact ⟨ho ▸ h.core0, hc, gw, gb, bw, bb, ew, eb, ep, by rw [ho]; exact h.positions.trans hpos.symm⟩

/-- The invariant sees the cores and the shared part, and none of the model's own fields. -/
theorem State.Inv.congr (h : s.Inv p) (h0 : t.core0 = s.core0) (h1 : t.core1 = s.core1)
    (hg : t.gram = s.gram) (hb : t.coefBank = s.coefBank) (he : t.eram = s.eram)
    (hp : t.eramPos = s.eramPos) : t.Inv p := by
  obtain ⟨c0, c1, gw, gb, bw, bb, ew, eb, ep, po⟩ := h
  constructor <;> simp only [h0, h1, hg, hb, he, hp] <;> assumption

theorem issueCall_inv (h : s.Inv p) : (issueCall s).Inv p :=
  h.congr (by simp) (by simp) (by simp) (by simp) (by simp) (by simp)

theorem raiseUnsupported_inv (h : s.Inv p) (r : Reason) (c : CoreId) :
    (raiseUnsupported r { s with active := c }).Inv p := h.congr rfl rfl rfl rfl rfl rfl

end inv

/-! ### A completed cycle -/

section cycle
variable (p : Params) (i : Instr) (s : State)

theorem cycleOf_me_inv (h : s.me.Inv p) : (cycleOf p i s).me.Inv p where
  pramWf := by rw [cycleOf_me_pram]; exact h.pramWf
  pramBelow := by rw [cycleOf_me_pram]; exact h.pramBelow
  iramWf := by
    obtain he | ⟨m, v, -, he⟩ := cycleOf_me_iram p i s <;> rw [he]
    · exact h.iramWf
    · exact Mem.wf_write _ _ _ h.iramWf
  iramBelow := by
    obtain he | ⟨m, v, -, he⟩ := cycleOf_me_iram p i s <;> rw [he]
    · exact h.iramBelow
    · exact Mem.below_write _ _ _ _ (ea_lt s.me m) h.iramBelow
  aFits := cycleOf_acc_fits p i s .a h.aFits
  bFits := cycleOf_acc_fits p i s .b h.bFits
  heads := by
    have ha := cycleOf_acc_head p i s .a
    have hb := cycleOf_acc_head p i s .b
    simp only [CoreState.acc_a, CoreState.acc_b] at ha hb
    rw [ha, hb, h.heads]
  skip := by
    rw [cycleOf_me_skipfield]
    exact shiftSkip_lt p _ _ h.skip
  timed := cycleOf_eramTimed p i s h.timed

theorem cycleOf_sharedInv (h : s.SharedInv p) : (cycleOf p i s).SharedInv p where
  gramWf := by
    obtain he | ⟨m, v, -, he⟩ := cycleOf_gram p i s <;> rw [he]
    · exact h.gramWf
    · exact Mem.wf_write _ _ _ h.gramWf
  gramBelow := by
    obtain he | ⟨m, v, -, he⟩ := cycleOf_gram p i s <;> rw [he]
    · exact h.gramBelow
    · exact Mem.below_write _ _ _ _ (ea_lt s.me m) h.gramBelow
  bankWf := by
    obtain he | ⟨c, v, -, he⟩ := cycleOf_coefBank p i s <;> rw [he]
    · exact h.bankWf
    · exact Mem.wf_write _ _ _ h.bankWf
  bankBelow := by
    obtain he | ⟨c, v, -, he⟩ := cycleOf_coefBank p i s <;> rw [he]
    · exact h.bankBelow
    · exact Mem.below_write _ _ _ _ (bankIndex_lt c) h.bankBelow
  eramWf := by
    rw [cycleOf_eram, eramStep_eram, eramCommit_eram]
    split
    · exact Mem.wf_write _ _ _ h.eramWf
    · exact h.eramWf
  eramBelow := by
    rw [cycleOf_eram, eramStep_eram, eramCommit_eram]
    split
    · exact Mem.below_write _ _ _ _ (commitAddr_lt p s.me s.eramPos) h.eramBelow
    · exact h.eramBelow
  eramPos := by rw [cycleOf_eramPos]; exact h.eramPos

/-- A completed cycle keeps the invariant: it moves the running core and the shared part only. -/
theorem cycleOf_inv (h : s.Inv p) : (cycleOf p i s).Inv p := by
  refine State.Inv.of_core s.active h ?_ (cycleOf_core_other p i s) ?_ (cycleOf_sharedInv p i s h.shared)
  · rw [← cycleOf_active p i s]
    exact cycleOf_me_inv p i s h.me
  · have hpos := cycleOf_me_iramPos p i s
    rwa [State.me, cycleOf_active] at hpos

end cycle

/-! ### The other calls -/

section calls
variable {p : Params} {s : State} (c : CoreId)

/-- A write to a program keeps the invariant: it moves one PRAM, inside it. -/
theorem updateProgram_inv (i : Pc) (f : Word → Word) (h : s.Inv p) : (updateProgram c i f s).Inv p := by
  obtain ⟨pw, pb, iw, ib, af, bf, hd, sk, ti⟩ := h.core c
  refine State.Inv.of_core c h ?_ (State.core_setCore_other ..) ?_ ?_
  · rw [updateProgram, State.core_setCore_same]
    exact ⟨Mem.wf_write _ _ _ pw, Mem.below_write _ _ _ _ i.isLt pb, iw, ib, af, bf, hd, sk,
      ⟨ti.window, ti.commit, ti.both⟩⟩
  · rw [updateProgram, State.core_setCore_same]
  · obtain ⟨gw, gb, bw, bb, ew, eb, ep⟩ := h.shared
    constructor <;> simpa [updateProgram]

theorem setReply_inv (r : Reply) (h : s.Inv p) : (s.setReply r).Inv p := h.congr rfl rfl rfl rfl rfl rfl

/-- The sample strobe moves both positions alike and reduces `eramPos` (R174). -/
theorem stepSample_inv (h : s.Inv p) : (stepSample p s).Inv p := by
  obtain ⟨c0, c1, gw, gb, bw, bb, ew, eb, -, po⟩ := h
  have moved : ∀ k : CoreState, k.Inv p → CoreState.Inv p { k with iramPos := k.iramPos - 1 } :=
    fun k ⟨pw, pb, iw, ib, af, bf, hd, sk, ti⟩ =>
      ⟨pw, pb, iw, ib, af, bf, hd, sk, ⟨ti.window, ti.commit, ti.both⟩⟩
  exact ⟨moved _ c0, moved _ c1, gw, gb, bw, bb, ew, eb, Nat.mod_lt _ (eramWords_pos p),
    congrArg (· - 1) po⟩

end calls

/-- Every call keeps the invariant, whatever the encoding. -/
theorem takeCall_inv (enc : Config.Encoding) (call : HostCall) (s t : State)
    (h : s.Inv Config.params) (hn : takeCall enc call s = .next t) : t.Inv Config.params := by
  cases call
  case stepCycle c =>
    have ha : ({ s with active := c } : State).Inv Config.params := h.congr rfl rfl rfl rfl rfl rfl
    obtain ⟨i, -, -, rfl⟩ | ⟨r, rfl⟩ := stepCycle_next enc c s t hn
    · exact cycleOf_inv _ i _ ha
    · exact raiseUnsupported_inv h r c
  case stepSample => cases hn; exact stepSample_inv h
  case writeProgramByte => cases hn; exact setReply_inv _ (updateProgram_inv _ _ _ h)
  case writeCoefficientOnly => cases hn; exact setReply_inv _ (updateProgram_inv _ _ _ h)
  case readHostRegister => cases hn; exact setReply_inv _ h

/-- Settles O59: issuing a call keeps the invariant, and so does taking it. -/
theorem everyStepKeepsInvariant : Obligations.EveryStepKeepsInvariant := by
  unfold Obligations.EveryStepKeepsInvariant
  intro s t h hn
  exact takeCall_inv _ _ _ t (issueCall_inv h) hn

end Sys2Proof.Machine
end

section
/-! Proofs about what an instruction leaves unchanged (42_core_cycle.md, 10_state.md). An instruction
that raises changes no core and no memory, so each frame is the frame of a cycle. -/

namespace Sys2Proof.Machine

open Sys2Proof.Config (Params)
open Sys2Proof.Claims

/-! ### What an answered instruction leaves -/

/-- What neither the cycle of an instruction nor the fault changes, the instruction leaves. -/
theorem exec_keeps {α : Type} (f : State → α) {i : Instr} {s t : State} (h : exec i s = .next t)
    (hr : ∀ r, f (raiseUnsupported r s) = f s) (hc : f (cycleOf Config.params i s) = f s) :
    f t = f s := by
  obtain ⟨-, rfl⟩ | ⟨-, rfl⟩ := exec_next i s t h
  · exact hc
  · exact hr _

section cell
variable {i : Instr} {s t : State} (h : exec i s = .next t) (a : Nat)
include h

theorem exec_read_iram (ha : ∀ m, effectOf i = .storeI m → a ≠ ea s.me m) :
    Mem.read t.me.iram a = Mem.read s.me.iram a := by
  refine exec_keeps (fun t => Mem.read t.me.iram a) h (fun _ => rfl) ?_
  obtain he | ⟨m, v, hm, he⟩ := cycleOf_me_iram Config.params i s <;> simp only [he]
  exact Mem.read_write_other _ _ _ _ (ha m hm)

theorem exec_read_gram (ha : ∀ m, effectOf i = .storeG m → a ≠ ea s.me m) :
    Mem.read t.gram a = Mem.read s.gram a := by
  refine exec_keeps (fun t => Mem.read t.gram a) h (fun _ => rfl) ?_
  obtain he | ⟨m, v, hm, he⟩ := cycleOf_gram Config.params i s <;> simp only [he]
  exact Mem.read_write_other _ _ _ _ (ha m hm)

theorem exec_read_coefBank (ha : ∀ c, effectOf i = .cw c → a ≠ bankIndex c) :
    Mem.read t.coefBank a = Mem.read s.coefBank a := by
  refine exec_keeps (fun t => Mem.read t.coefBank a) h (fun _ => rfl) ?_
  obtain he | ⟨c, v, hc, he⟩ := cycleOf_coefBank Config.params i s <;> simp only [he]
  exact Mem.read_write_other _ _ _ _ (ha c hc)

end cell

/-! ### The frames -/

/-- The categories that write an accumulator are those whose row has it as destination (R92). -/
theorem writes_eq_dst {i : Instr} {d : Mac} (h : rowOf i = some d) :
    writesA i = decide (d.dst = .a) ∧ writesB i = decide (d.dst = .b) := by
  cases i <;> cases h <;> exact ⟨rfl, rfl⟩

/-- Settles O26: an instruction's row has one destination, the accumulator its category writes. -/
theorem accumulatorFrame : Obligations.AccumulatorFrame := by
  unfold Obligations.AccumulatorFrame
  intro i s t h
  refine ⟨fun hw => exec_keeps (·.me.a.rawFull) h (fun _ => rfl) ?_,
    fun hw => exec_keeps (·.me.b.rawFull) h (fun _ => rfl) ?_⟩
  · refine cycleOf_rawFull_of_not_dst _ i s .a fun d hd => ?_
    rwa [(writes_eq_dst hd).1, decide_eq_false_iff_not] at hw
  · refine cycleOf_rawFull_of_not_dst _ i s .b fun d hd => ?_
    rwa [(writes_eq_dst hd).2, decide_eq_false_iff_not] at hw

/-- Settles O27: each memory has one side effect that writes it, in one cell, and each such effect
belongs to the instructions named. -/
theorem dataMemoryFrame : Obligations.DataMemoryFrame := by
  unfold Obligations.DataMemoryFrame
  intro i s t h
  refine ⟨?_, ?_, ?_⟩
  · split
    case h_1 => exact fun a ha => exec_read_iram h a (by rintro m ⟨⟩; exact ha)
    case h_2 => exact fun a ha => exec_read_iram h a (by rintro m ⟨⟩; exact ha)
    case h_3 hstia hstib =>
      refine fun a => exec_read_iram h a fun m hm => ?_
      obtain ⟨_, _, _, hi⟩ | ⟨_, _, _, hi⟩ := storeI_of_effectOf hm
      · exact (hstia _ _ _ _ hi).elim
      · exact (hstib _ _ _ _ hi).elim
  · split
    case h_1 => exact fun a ha => exec_read_gram h a (by rintro m ⟨⟩; exact ha)
    case h_2 => exact fun a ha => exec_read_gram h a (by rintro m ⟨⟩; exact ha)
    case h_3 hstga hstgb =>
      refine fun a => exec_read_gram h a fun m hm => ?_
      obtain ⟨_, _, _, hi⟩ | ⟨_, _, _, hi⟩ := storeG_of_effectOf hm
      · exact (hstga _ _ _ _ hi).elim
      · exact (hstgb _ _ _ _ hi).elim
  · split
    case h_1 => exact fun a ha => exec_read_coefBank h a (by rintro c ⟨⟩; exact ha)
    case h_2 hcw =>
      refine fun a => exec_read_coefBank h a fun c hc => ?_
      obtain ⟨_, _, hi⟩ := ctrlCw_of_effectOf hc
      exact (hcw _ _ _ hi).elim

/-- Settles O28: each auxiliary register has one side effect that writes it, in one instruction. -/
theorem auxRegisterFrame : Obligations.AuxRegisterFrame := by
  unfold Obligations.AuxRegisterFrame
  intro i s t h
  refine ⟨?_, ?_, ?_, ?_, ?_⟩
  · split
    case h_1 => trivial
    case h_2 hn =>
      refine exec_keeps (·.me.interp) h (fun _ => rfl) (cycleOf_me_interp _ i s fun he => ?_)
      obtain ⟨_, _, _, hi⟩ := ctrlSeti_of_effectOf he
      exact hn _ _ _ hi
  · split
    case h_1 => trivial
    case h_2 hn =>
      refine exec_keeps (·.me.carry) h (fun _ => rfl) (cycleOf_me_carry _ i s fun he => ?_)
      obtain ⟨_, _, _, _, hi⟩ := mulc_of_effectOf he
      exact hn _ _ _ _ hi
  · split
    case h_1 => trivial
    case h_2 hn =>
      refine exec_keeps (·.me.host) h (fun _ => rfl) (cycleOf_me_host _ i s fun he => ?_)
      obtain ⟨_, _, _, hi⟩ := ctrlHost_of_effectOf he
      exact hn _ _ _ hi
  · split
    case h_1 => trivial
    case h_2 hn =>
      refine exec_keeps (·.me.wrLatch) h (fun _ => rfl) (cycleOf_me_wrLatch _ i s fun he => ?_)
      obtain ⟨_, _, _, hi⟩ := ctrlWl_of_effectOf he
      exact hn _ _ _ hi
  · split
    case h_1 => trivial
    case h_2 hn =>
      refine exec_keeps (·.me.varOfs) h (fun _ => rfl) (cycleOf_me_varOfs _ i s fun he => ?_)
      obtain ⟨_, _, _, hi⟩ := ctrlVo_of_effectOf he
      exact hn _ _ _ hi

/-- Settles O30: no step of a cycle writes these, and a fault writes only its record. -/
theorem noInstructionWritesThese : Obligations.NoInstructionWritesThese := by
  unfold Obligations.NoInstructionWritesThese
  intro i s t h
  obtain ⟨-, rfl⟩ | ⟨-, rfl⟩ := exec_next i s t h
  · exact ⟨cycleOf_active .., cycleOf_me_pram .., cycleOf_me_iramPos .., cycleOf_eramPos ..,
      cycleOf_core_other .., cycleOf_calls .., cycleOf_turn ..⟩
  · exact ⟨raise_active .., rfl, rfl, raise_eramPos .., raise_core .., raise_calls .., raise_turn ..⟩

/-! ### Noninterference (R127) -/

/-- Two states that agree on the running core and the shared state: all that a cycle may read. -/
structure SameView (s s' : State) : Prop where
  active : s.active = s'.active
  me : s.me = s'.me
  gram : s.gram = s'.gram
  coefBank : s.coefBank = s'.coefBank
  eram : s.eram = s'.eram
  eramPos : s.eramPos = s'.eramPos

namespace SameView
variable {s s' : State} (h : SameView s s')
include h

theorem setMe (k : CoreState) : SameView (s.setMe k) (s'.setMe k) :=
  ⟨by simp [h.active], by simp, by simp [h.gram], by simp [h.coefBank], by simp [h.eram],
    by simp [h.eramPos]⟩

theorem setGram (m : Mem 24) : SameView (s.setGram m) (s'.setGram m) :=
  ⟨h.active, h.me, rfl, h.coefBank, h.eram, h.eramPos⟩

theorem setCoefBank (m : Mem 8) : SameView (s.setCoefBank m) (s'.setCoefBank m) :=
  ⟨h.active, h.me, h.gram, rfl, h.eram, h.eramPos⟩

theorem setEram (m : Mem 24) : SameView (s.setEram m) (s'.setEram m) :=
  ⟨h.active, h.me, h.gram, h.coefBank, rfl, h.eramPos⟩

theorem setReply (r : Reply) : SameView (s.setReply r) (s'.setReply r) :=
  ⟨h.active, h.me, h.gram, h.coefBank, h.eram, h.eramPos⟩

theorem eramCommit (p : Params) : SameView (eramCommit p s) (eramCommit p s') := by
  simp only [Machine.eramCommit, h.me, h.eramPos, h.eram]
  split
  · split
    · exact (h.setEram _).setMe _
    · exact h.setMe _
  · exact h

theorem eramStep (p : Params) (e : BitVec 5) : SameView (eramStep p e s) (eramStep p e s') := by
  have hc := h.eramCommit p
  simp only [Machine.eramStep, hc.me]
  exact hc.setMe _

theorem operandA_eq (p : Params) (src : SourceA) : operandA p s src = operandA p s' src := by
  cases src <;> simp only [operandA, sourceA, h.me, h.gram]

theorem operandB_eq (src : SourceB) : operandB s src = operandB s' src := by
  cases src <;> simp only [operandB, h.me, h.coefBank]

theorem applyEffect (eff : Effect) (opA : Cell) (prod : Int) :
    SameView (applyEffect eff opA prod s) (applyEffect eff opA prod s') := by
  cases eff <;> simp only [Machine.applyEffect, h.me, h.gram, h.coefBank]
  case none | cond => exact h
  case storeG => exact h.setGram _
  case cw => exact h.setCoefBank _
  case carry | storeI | seti | host | wl | vo => exact h.setMe _

theorem macCycle (p : Params) (cat : Category) (e : BitVec 5) (d : Mac) :
    SameView (macCycle p cat e d s) (macCycle p cat e d s') := by
  have he := h.eramStep p e
  have hd := (he.setMe (macAccumulators p d (Machine.eramStep p e s'))).applyEffect d.effect
    (operandA p (Machine.eramStep p e s') d.srcA) (macProduct p d (Machine.eramStep p e s'))
  simp only [Machine.macCycle, endCycle, datapath, datapathCond, macAccumulators, macShifted, macProduct,
    he.me, he.operandA_eq, he.operandB_eq]
  simp only [macAccumulators, macShifted, macProduct] at hd
  rw [hd.me]
  exact (hd.setMe _).setReply _

theorem nopCycle (p : Params) (e : BitVec 5) : SameView (nopCycle p e s) (nopCycle p e s') := by
  have he := h.eramStep p e
  simp only [Machine.nopCycle, endCycle, he.me]
  exact (he.setMe _).setReply _

theorem cycleOf (p : Params) (i : Instr) : SameView (cycleOf p i s) (cycleOf p i s') := by
  unfold Machine.cycleOf
  split
  · exact h.nopCycle p _
  · exact h.macCycle p _ _ _

end SameView

/-- Settles O31: every part of a cycle takes states of the same view to states of the same view; a fault
changes nothing of the view, and its record is made of it. -/
theorem cycleReadsOwnCoreAndShared : Obligations.CycleReadsOwnCoreAndShared := by
  unfold Obligations.CycleReadsOwnCoreAndShared
  intro i s s' t t' ha hm hg hb he hp h h'
  have hv : SameView s s' := ⟨ha, hm, hg, hb, he, hp⟩
  cases hl : i.legal
  case true =>
    rw [exec_legal i _ hl] at h h'
    cases h
    cases h'
    obtain ⟨-, vm, vg, vb, ve, vp⟩ := hv.cycleOf Config.params i
    exact ⟨vm, vg, vb, ve, vp, by rw [cycleOf_reply, cycleOf_reply]⟩
  case false =>
    rw [exec_illegal i _ hl] at h h'
    cases h
    cases h'
    exact ⟨hm, hg, hb, he, hp, by rw [raise_reply, raise_reply, faultRecord, faultRecord, ha, hm]⟩

end Sys2Proof.Machine
end

section
/-! Proofs about the cycle around the datapath (42_core_cycle.md section 4, 40_accumulator_pipeline.md):
the program counter, the skipfield and what it suppresses, the delay of the pipeline; and the two CTRL
words whose results rest on them. -/

namespace Sys2Proof.Machine

open Sys2Proof.Config (Params)
open Sys2Proof.Claims

/-! ### The program counter, the accumulator primitives -/

/-- Settles O32: a cycle ends with the next pc, a fault leaves the core. -/
theorem pcAdvancesUnlessFault : Obligations.PcAdvancesUnlessFault := by
  unfold Obligations.PcAdvancesUnlessFault
  intro i s t h
  obtain ⟨hl, rfl⟩ | ⟨hl, rfl⟩ := exec_next i s t h
  · exact ⟨fun _ => cycleOf_pc_val .., fun hf => absurd (hl.symm.trans hf) (by decide)⟩
  · exact ⟨fun ht => absurd (hl.symm.trans ht) (by decide), fun _ => by rw [raise_me]⟩

/-- Settles O35: both primitives write `wrap_30` of their sum. -/
theorem assignAndAccumulateWrap : Obligations.AssignAndAccumulateWrap := by
  unfold Obligations.AssignAndAccumulateWrap
  exact fun x v => ⟨wrap30_toInt v, assign_hist x v, assign_head x v, wrap30_toInt _,
    accumulate_hist x v, accumulate_head x v⟩

/-! ### The skipfield -/

/-- The shift of R124 as the statement writes it, the condition a proposition. -/
theorem shiftSkip_eq (p : Params) (n : Nat) (b : Bool) (P : Prop) [Decidable P] (h : b = true ↔ P) :
    shiftSkip p n b = (n >>> 1) ||| ((if P then 1 else 0) <<< (p.skipN - 1)) := by
  unfold shiftSkip
  by_cases hP : P
  · rw [if_pos (h.2 hP), if_pos hP]
  · rw [if_neg (mt h.1 hP), if_neg hP, Nat.zero_shiftLeft]

/-- Settles O33: the bit a cycle shifts in is the predicate in a CTRL.COND, 0 elsewhere. -/
theorem skipfieldShiftsEveryCycle : Obligations.SkipfieldShiftsEveryCycle := by
  unfold Obligations.SkipfieldShiftsEveryCycle
  intro i s t h
  obtain ⟨hl, rfl⟩ | ⟨hl, rfl⟩ := exec_next i s t h
  · refine ⟨fun _ => ?_, fun hf => absurd (hl.symm.trans hf) (by decide)⟩
    rw [cycleOf_me_skipfield]
    exact shiftSkip_eq _ _ _ _ (by rw [Bool.and_eq_true])
  · exact ⟨fun ht => absurd (hl.symm.trans ht) (by decide), fun _ => by rw [raise_me]⟩

/-- A cycle without a CTRL.COND halves the skipfield. -/
theorem exec_skipfield_of_not_cond {i : Instr} {s t : State} (h : exec i s = .next t)
    (hl : i.legal = true) (hc : isCond i = false) : t.me.skipfield = s.me.skipfield / 2 := by
  rw [exec_legal i s hl] at h
  cases h
  rw [cycleOf_me_skipfield, hc, Bool.false_and, shiftSkip_false]

/-- Cycles without a CTRL.COND halve the skipfield once each. -/
theorem runCycles_skipfield (is : List Instr) (s u : State)
    (hi : ∀ i ∈ is, i.legal = true ∧ isCond i = false) (h : runCycles is s = some u) :
    u.me.skipfield = s.me.skipfield / 2 ^ is.length := by
  induction is generalizing s with
  | nil =>
    cases h
    rw [List.length_nil, pow_zero, Nat.div_one]
  | cons i rest ih =>
    obtain ⟨⟨hl, hc⟩, hrest⟩ := List.forall_mem_cons.1 hi
    have hx := exec_legal i s hl
    rw [runCycles, hx] at h
    rw [ih _ hrest h, exec_skipfield_of_not_cond hx hl hc, Nat.div_div_eq_div_mul, List.length_cons,
      pow_succ']

/-- The top bit of an n-bit register takes n - 1 halvings to reach bit 0, and one more to leave. -/
theorem two_pow_div_two_pow_ne_zero (m n : Nat) : 2 ^ m / 2 ^ n ≠ 0 ↔ n ≤ m := by
  rw [Nat.div_ne_zero_iff, Nat.pow_le_pow_iff_right (by decide)]
  exact and_iff_right (Nat.two_pow_pos n).ne'

/-- Settles O38: the CTRL.COND leaves the skipfield 0 or with only its top bit set, and each later cycle
halves it. -/
theorem conditionSuppressesSkipNCycles : Obligations.ConditionSuppressesSkipNCycles := by
  unfold Obligations.ConditionSuppressesSkipNCycles
  intro e ss coef is s t u hs h hi hu
  rw [exec_legal (.ctrlCond e ss coef) s rfl] at h
  cases h
  have hN := skipN_eq Config.params
  have hlt : s.me.skipfield < 2 ^ Config.params.skipN :=
    lt_of_lt_of_le hs (by rw [hN, pow_succ]; exact Nat.le_mul_of_pos_left 2 (Nat.two_pow_pos _))
  have h0 : s.me.skipfield / 2 = 0 := Nat.div_eq_of_lt hs
  rw [suppressed, bne_iff_ne, runCycles_skipfield is _ u hi hu, cycleOf_me_skipfield, isCond,
    Bool.true_and]
  cases Config.params.setCond (bits24 (pipeSat s .a))
  case false =>
    rw [shiftSkip_false, h0, Nat.zero_div]
    simp
  case true =>
    rw [shiftSkip_true _ _ hlt, h0, Nat.zero_add, two_pow_div_two_pow_ne_zero, eq_self, true_and]
    omega

/-! ### The pipeline's delay -/

theorem pipe_of_head {x : Acc} {j : Fin 3} (h : x.head = j) : x.pipe = x.hist[j] := by
  subst h
  rfl

/-- Settles O37: the first cycle stores at its head, the next two store at the two other entries, and the
head is back. -/
theorem pipelinedReadIsThreeCyclesOld : Obligations.PipelinedReadIsThreeCyclesOld := by
  unfold Obligations.PipelinedReadIsThreeCyclesOld
  intro i j l s t u v hi hj hl ht hu hv x
  obtain ⟨head1, stored, -⟩ := (everyCycleStoresBothPipelines i s t ht).1 hi x
  obtain ⟨head2, -, kept2⟩ := (everyCycleStoresBothPipelines j t u hu).1 hj x
  obtain ⟨head3, -, kept3⟩ := (everyCycleStoresBothPipelines l u v hv).1 hl x
  have hlt : (s.me.acc x).head.val < 3 := (s.me.acc x).head.isLt
  have hv0 : (v.me.acc x).head = (s.me.acc x).head := Fin.ext (by omega)
  have ht0 : (s.me.acc x).head ≠ (t.me.acc x).head := fun he => by rw [← he] at head1; omega
  have hu0 : (s.me.acc x).head ≠ (u.me.acc x).head := fun he => by rw [← he] at head2; omega
  rw [pipe_of_head hv0, kept3 _ hu0, kept2 _ ht0, stored]

/-! ### CTRL.HOST and CTRL.COND -/

/-- The source PIPE_RAW(A) gives the low 24 bits of the delayed A, or 0 under suppression (R86, R116). -/
theorem operandA_pipeRaw_toInt (p : Params) (e : BitVec 5) (s : State) :
    (operandA p (eramStep p e s) (.pipeRaw .a)).toInt = unsuppressed s (raw24 (delayed s.me.a)) := by
  have hraw : (readRaw24 s.me.a.pipe).toInt = raw24 (delayed s.me.a) :=
    (saturatedAndRawReads s.me.a.pipe).2
  rw [operandA_eramStep _ _ _ _ (by simp), operandA_toInt_eq_unsuppressed, sourceA, CoreState.acc_a, hraw]

theorem macCycle_host_toInt (p : Params) (cat : Category) (e : BitVec 5) (d : Mac) (s : State)
    (h : d.effect = .host) :
    (macCycle p cat e d s).me.host.toInt = (operandA p (eramStep p e s) d.srcA).toInt := by
  rw [macCycle_me_host, h]
  exact BitVec.toInt_signExtend_of_le (by decide)

/-- Settles O21: the row's operand A is the raw delayed A, which it accumulates and its effect writes to
the host register. -/
theorem ctrlHostWritesRawDelayedA : Obligations.CtrlHostWritesRawDelayedA := by
  unfold Obligations.CtrlHostWritesRawDelayedA
  intro e ss coef s
  rw [← operandA_pipeRaw_toInt Config.params e s]
  exact ⟨decode_ctrlWord .., _, exec_row (.ctrlHost e ss coef) _ s rfl rfl, macCycle_completed ..,
    macCycle_accumulates _ _ _ _ _ rfl, macCycle_host_toInt _ _ _ _ _ rfl⟩

theorem macCycle_noSideEffect_of_cond (p : Params) (cat : Category) (e : BitVec 5) (d : Mac) (s : State)
    (h : d.effect = .cond) : NoSideEffect s (macCycle p cat e d s) := by
  simp [NoSideEffect, macCycle_me_iram, macCycle_gram, macCycle_coefBank, macCycle_me_interp,
    macCycle_me_carry, macCycle_me_host, macCycle_me_wrLatch, macCycle_me_varOfs, h]

/-- Settles O22: the row accumulates as CTRL.NOP's does; its effect writes nothing but the bit that the
shift takes in at the top. -/
theorem ctrlCondShiftsConditionIn : Obligations.CtrlCondShiftsConditionIn := by
  unfold Obligations.CtrlCondShiftsConditionIn
  intro e ss coef s
  refine ⟨decode_ctrlWord .., fun hs => ?_⟩
  have hx := exec_row (.ctrlCond e ss coef) _ s rfl rfl
  refine ⟨_, hx, macCycle_completed .., macCycle_noSideEffect_of_cond _ _ _ _ _ rfl,
    macCycle_accumulates_pipeSat .., ?_⟩
  have hskip := cycleOf_me_skipfield Config.params (.ctrlCond e ss coef) s
  rw [isCond, Bool.true_and] at hskip
  refine hskip.trans ?_
  cases Config.params.setCond (bits24 (pipeSat s .a))
  · exact shiftSkip_false ..
  · exact shiftSkip_true _ _ hs

end Sys2Proof.Machine
end

section
/-! Proofs about the ERAM transaction controller (41_eram_controller.md): what one cycle of a legal
instruction does to the two transactions, the ten cycles from a START to its commit, the addresses, and
crunch. -/

namespace Sys2Proof.Machine

open Sys2Proof.Config (Params)
open Sys2Proof.Claims

/-! ### The commit, in the statements' words -/

theorem commitDue_iff (s : State) : commitDue s.me = true ↔ Commits s := by
  simp [commitDue]

theorem commitDue_eq_false (s : State) (h : ¬ Commits s) : commitDue s.me = false := by
  rwa [← Bool.not_eq_true, commitDue_iff]

section step
variable (p : Params) (e : BitVec 5) (s : State)

/-- The sampling step finds `Nxt` as the cycle found it: a commit does not touch it. -/
theorem windowFull_commit :
    ((eramCommit p s).me.nxt.active = true ∧ (eramCommit p s).me.nxt.w = 5) ↔ WindowFull s := by
  rw [eramCommit_me_nxt]

/-- Without a promotion only the commit changes `Cur`. -/
theorem eramStep_cur_of_not_full (h : ¬ WindowFull s) : (eramStep p e s).me.cur =
    { s.me.cur with active := s.me.cur.active && !commitDue s.me } := by
  rw [eramStep_me, eramSample_cur_of_not_full _ _ (mt (windowFull_commit p s).1 h), eramCommit_me_cur]

/-! ### The START, the window and the promotion -/

/-- What the START step leaves in `Nxt` (R95). -/
theorem eramStart_nxt (k : CoreState) : (eramStart e k).nxt =
    if e[4] then { active := true, write := e[0], var := e[1], pcStart := k.pc, acc := 0, w := 1 }
    else k.nxt := by
  simp only [eramStart]; split <;> rfl

theorem eramStart_cur (k : CoreState) : (eramStart e k).cur = k.cur := by
  simp only [eramStart]; split <;> rfl

theorem eramStart_eramOverlap (k : CoreState) :
    (eramStart e k).eramOverlap = (k.eramOverlap || (e[4] && k.cur.active)) := by
  simp only [eramStart]; split <;> rename_i h <;> simp [h]

/-- Where `Nxt` is free, or freed by the promotion, it is a new transaction exactly after a START. -/
theorem eramStep_nxt_of_free (h : s.me.nxt.active = false ∨ WindowFull s) : (eramStep p e s).me.nxt =
    if e[4] then { active := true, write := e[0], var := e[1], pcStart := s.me.pc, acc := 0, w := 1 }
    else { s.me.nxt with active := false } := by
  obtain hn | hf := h
  · rw [eramStep_me, eramSample_of_idle _ _ (by rwa [eramCommit_me_nxt]), eramStart_nxt, eramCommit_me_pc,
      eramCommit_me_nxt, ← hn]
  · obtain ⟨ha, hw⟩ := (windowFull_commit p s).2 hf
    rw [eramStep_me, eramSample_of_full _ _ ha hw, eramStart_nxt, eramPromote_pc, eramCommit_me_pc,
      eramPromote_of_full _ ha hw, eramCommit_me_nxt]

/-- In a window cycle the nibble enters from the right (R96). -/
theorem eramStep_nxt_of_window (ha : s.me.nxt.active = true) (h1 : 1 ≤ s.me.nxt.w.val)
    (h4 : s.me.nxt.w.val ≤ 4) : (eramStep p e s).me.nxt =
      { s.me.nxt with
        acc := (s.me.nxt.acc <<< 4) ||| (e.extractLsb' 0 4).setWidth 16
        w := s.me.nxt.w + 1 } := by
  have h5 : s.me.nxt.w ≠ 5 := fun h => by rw [h] at h4; exact absurd h4 (by decide)
  rw [eramStep_me, eramSample_of_window _ _ (by rwa [eramCommit_me_nxt]) (by rwa [eramCommit_me_nxt])]
  simp [eramWindow, h1, h4]

/-- A full window is in `Cur` after the cycle, with its commit ten cycles after its START (R98). -/
theorem eramStep_cur_of_full (h : WindowFull s) : (eramStep p e s).me.cur =
    { active := true, write := s.me.nxt.write, var := s.me.nxt.var
      pcCommit := s.me.nxt.pcStart + eramLatency, off := s.me.nxt.acc } := by
  obtain ⟨ha, hw⟩ := (windowFull_commit p s).2 h
  rw [eramStep_me, eramSample_of_full _ _ ha hw, eramStart_cur, eramPromote_of_full _ ha hw,
    eramCommit_me_nxt]

/-- The diagnostic after the cycle, by the state of `Nxt` the cycle finds (R97, R99). -/
theorem eramStep_eramOverlap : (eramStep p e s).me.eramOverlap =
    (s.me.eramOverlap ||
      if WindowFull s then e[4] || (eramCommit p s).me.cur.active
      else !s.me.nxt.active && e[4] && (eramCommit p s).me.cur.active) := by
  by_cases hf : WindowFull s
  · obtain ⟨ha, hw⟩ := (windowFull_commit p s).2 hf
    rw [eramStep_me, eramSample_of_full _ _ ha hw, eramStart_eramOverlap, eramPromote_of_full _ ha hw,
      if_pos hf, eramCommit_me_eramOverlap, Bool.and_true, Bool.or_assoc, Bool.or_comm (e[4])]
  · rw [if_neg hf]
    cases ha : s.me.nxt.active
    · rw [eramStep_me, eramSample_of_idle _ _ (by rwa [eramCommit_me_nxt]), eramStart_eramOverlap,
        eramCommit_me_eramOverlap, Bool.not_false, Bool.true_and]
    · have h5 : s.me.nxt.w ≠ 5 := fun h => hf ⟨ha, h⟩
      rw [eramStep_me, eramSample_of_window _ _ (by rwa [eramCommit_me_nxt]) (by rwa [eramCommit_me_nxt]),
        Bool.not_true, Bool.false_and, Bool.false_and, Bool.or_false]
      simp only [eramWindow]
      split <;> exact eramCommit_me_eramOverlap p s

theorem eramCommit_cur_active :
    (eramCommit p s).me.cur.active = true ↔ s.me.cur.active = true ∧ ¬ Commits s := by
  rw [eramCommit_me_cur, ← commitDue_iff]
  simp

end step

/-- A nibble shifted in, as numbers (R96). -/
theorem shiftNibble_toNat (acc : BitVec 16) (e : BitVec 5) :
    ((acc <<< 4) ||| (e.extractLsb' 0 4).setWidth 16).toNat = (acc.toNat * 16 + e.toNat % 16) % 65536 := by
  have hn : ((e.extractLsb' 0 4).setWidth 16).toNat = e.toNat % 16 := by
    simp only [BitVec.toNat_setWidth, BitVec.extractLsb'_toNat, Nat.shiftRight_zero]
    omega
  have hs : (acc <<< 4).toNat = acc.toNat % 2 ^ 12 * 2 ^ 4 := by
    rw [BitVec.toNat_shiftLeft, Nat.shiftLeft_eq]
    omega
  rw [BitVec.toNat_or, hn, hs, or_eq_add _ _ _ (by omega)]
  omega

theorem eramLatency_val (pc : Pc) : (pc + eramLatency).val = (pc.val + 10) % 768 := by
  simp [eramLatency, Fin.val_add]

/-! ### One cycle of a legal instruction -/

/-- Settles O39: in either case the START step finds `Nxt` free. -/
theorem eramStartSampledWhenFree : Obligations.EramStartSampledWhenFree := by
  unfold Obligations.EramStartSampledWhenFree
  intro i s t hl hfree h
  rw [exec_legal i s hl] at h
  cases h
  rw [cycleOf_me_nxt, eramStep_nxt_of_free _ _ _ hfree]
  exact ⟨fun h4 => by rw [if_pos h4], fun h4 => by rw [if_neg (by rw [h4]; decide)]⟩

/-- Settles O40: the window step takes the nibble and nothing else of `eramCtrl`. -/
theorem eramWindowTakesNibble : Obligations.EramWindowTakesNibble := by
  unfold Obligations.EramWindowTakesNibble
  intro i s t hl ha h1 h4 h
  rw [exec_legal i s hl] at h
  cases h
  rw [cycleOf_me_nxt, eramStep_nxt_of_window _ _ _ ha h1 h4]
  refine ⟨shiftNibble_toNat .., ?_, ha, rfl, rfl, rfl⟩
  rw [Fin.val_add]
  exact Nat.mod_eq_of_lt (by change _ + 1 < 6; omega)

/-- Settles O41: the promotion writes every field of `Cur`, and a START in the same cycle leaves it. -/
theorem eramPromotionFillsCur : Obligations.EramPromotionFillsCur := by
  unfold Obligations.EramPromotionFillsCur
  intro i s t hl hf h
  rw [exec_legal i s hl] at h
  cases h
  rw [cycleOf_me_cur, eramStep_cur_of_full _ _ _ hf]
  exact ⟨rfl, rfl, rfl, rfl, eramLatency_val _⟩

/-- Settles O42: by the three states `Nxt` can be in: full, accumulating, free. -/
theorem eramOverlapSetExactlyOnOverlap : Obligations.EramOverlapSetExactlyOnOverlap := by
  unfold Obligations.EramOverlapSetExactlyOnOverlap
  intro i s t hl h
  rw [exec_legal i s hl] at h
  cases h
  rw [cycleOf_me_eramOverlap, eramStep_eramOverlap, Bool.or_eq_true]
  refine or_congr_right ?_
  by_cases hf : WindowFull s
  · have hn : s.me.nxt.active ≠ false := by rw [hf.1]; decide
    rw [if_pos hf, Bool.or_eq_true, eramCommit_cur_active]
    tauto
  · rw [if_neg hf, Bool.and_eq_true, Bool.and_eq_true, Bool.not_eq_true', eramCommit_cur_active]
    tauto

/-- A due commit retires `Cur` unless the same cycle promotes. -/
theorem cycleOf_cur_of_commits (p : Params) (i : Instr) (s : State) (hc : Commits s)
    (hf : ¬ WindowFull s) : (cycleOf p i s).me.cur = { s.me.cur with active := false } := by
  rw [cycleOf_me_cur, eramStep_cur_of_not_full _ _ _ hf, (commitDue_iff s).2 hc, Bool.not_true,
    Bool.and_false]

/-- Settles O43: the due commit reads the cell into the latch, and no later step of the cycle writes it. -/
theorem eramReadCommitLoadsLatch : Obligations.EramReadCommitLoadsLatch := by
  unfold Obligations.EramReadCommitLoadsLatch
  intro i s t hl hc hw h
  rw [exec_legal i s hl] at h
  cases h
  refine ⟨?_, cycleOf_cur_of_commits _ i s hc⟩
  rw [cycleOf_me_rdLatch, eramStep_me_rdLatch, eramCommit_me_rdLatch, (commitDue_iff s).2 hc, hw]
  rfl

/-- Settles O44: the commit is the cycle's first step, so it stores the latch the cycle finds. -/
theorem eramWriteCommitStoresCrunch : Obligations.EramWriteCommitStoresCrunch := by
  unfold Obligations.EramWriteCommitStoresCrunch
  intro i s t hl hc hw h
  rw [exec_legal i s hl] at h
  cases h
  refine ⟨?_, cycleOf_cur_of_commits _ i s hc⟩
  rw [cycleOf_eram, eramStep_eram, eramCommit_eram, (commitDue_iff s).2 hc, hw,
    ← commitAddr_eq_commitAddress]
  exact Mem.read_write_same ..

/-- Settles O50: the first cycle stores the crunch, the second reads that cell. -/
theorem eramReadbackIsCrunched : Obligations.EramReadbackIsCrunched := by
  unfold Obligations.EramReadbackIsCrunched
  intro i j s t u v hi hj hcs hws ht hcu hwu haddr hkept hv
  rw [(eramReadCommitLoadsLatch j u v hj hcu hwu hv).1, haddr, hkept,
    (eramWriteCommitStoresCrunch i s t hi hcs hws ht).1]

/-- Settles O29: ERAM and the latch are the commit step's, `Cur` the commit's and the promotion's; a fault
comes before both. -/
theorem eramFrame : Obligations.EramFrame := by
  unfold Obligations.EramFrame
  intro i s t h
  obtain ⟨hl, rfl⟩ | ⟨hl, rfl⟩ := exec_next i s t h
  · refine ⟨fun hf => absurd (hl.symm.trans hf) (by decide), fun hc => ?_, fun hw a => ?_,
      fun hw => ⟨?_, fun a ha => ?_⟩⟩
    · have hd := commitDue_eq_false s hc
      refine ⟨?_, ?_, fun hf => ?_⟩
      · rw [cycleOf_eram, eramStep_eram, eramCommit_of_idle _ _ hd]
      · rw [cycleOf_me_rdLatch, eramStep_me_rdLatch, eramCommit_of_idle _ _ hd]
      · rw [cycleOf_me_cur, eramStep_cur_of_not_full _ _ _ hf, hd, Bool.not_false, Bool.and_true]
    · rw [cycleOf_eram, eramStep_eram, eramCommit_eram, hw, Bool.and_false]
      rfl
    · rw [cycleOf_me_rdLatch, eramStep_me_rdLatch, eramCommit_me_rdLatch, hw, Bool.not_true,
        Bool.and_false]
      rfl
    · rw [cycleOf_eram, eramStep_eram, eramCommit_eram]
      split
      · exact Mem.read_write_other _ _ _ _ ha
      · rfl
  · exact ⟨fun _ => ⟨rfl, rfl, rfl, rfl, rfl⟩, fun _ => ⟨rfl, rfl, fun _ => rfl⟩, fun _ _ => rfl,
      fun _ => ⟨rfl, fun _ _ => rfl⟩⟩

/-! ### The timing -/

/-- In the controller's timing a pending transaction is due where the window is full (R99). -/
theorem commits_of_windowFull {s : State} (ht : s.me.EramTimed) (hf : WindowFull s)
    (ha : s.me.cur.active = true) : Commits s := by
  obtain ⟨hn, hw⟩ := hf
  have hb := ht.both hn ha
  rw [hw, commitIn_eq] at hb
  have h1 := pc_lt s.me.cur.pcCommit
  have h2 := pc_lt s.me.pc
  exact ⟨ha, Fin.ext (by change _ + 5 ≤ 5 at hb; omega)⟩

/-- Settles O46: of the three ways to set the diagnostic (O42) the timing leaves the two with a START. -/
theorem promotionNeverOverwritesPending : Obligations.PromotionNeverOverwritesPending := by
  unfold Obligations.PromotionNeverOverwritesPending
  intro i s t ht h
  refine ⟨commits_of_windowFull ht, fun h0 h1 => ?_⟩
  cases hl : i.legal
  case false =>
    rw [exec_illegal i s hl] at h
    cases h
    exact absurd (h0.symm.trans h1) (by decide)
  case true =>
    obtain hov | ⟨hf, h4⟩ | ⟨hf, ha, hc⟩ | ⟨hn, h4, -⟩ := (eramOverlapSetExactlyOnOverlap i s t hl h).1 h1
    · exact absurd (h0.symm.trans hov) (by decide)
    · exact ⟨h4, .inr hf⟩
    · exact absurd (commits_of_windowFull ht hf ha) hc
    · exact ⟨h4, .inl hn⟩

/-! ### Ten cycles from the START to the commit -/

/-- One completed cycle in a run. -/
theorem runCycles_cons {i : Instr} {is : List Instr} {s : State} (h : i.legal = true) :
    runCycles (i :: is) s = runCycles is (cycleOf Config.params i s) := by
  rw [runCycles, exec_legal i s h]

/-- `n` cycles after the promotion of the transaction that a START at `pc0` began: it is in `Cur`, due 10
after `pc0`, and a window begun since has run at most `n` cycles. -/
structure Held (pc0 : Pc) (write var : Bool) (off : BitVec 16) (n : Nat) (s : State) : Prop where
  cur : s.me.cur =
    { active := true, write := write, var := var, pcCommit := pc0 + eramLatency, off := off }
  pc : s.me.pc.val = (pc0.val + 6 + n) % 768
  window : s.me.nxt.active = true → s.me.nxt.w.val ≤ 1 + n

section hold
variable {pc0 : Pc} {write var : Bool} {off : BitVec 16} {s : State}

/-- For four cycles the transaction is not due and no other window is full, so `Cur` stays. -/
theorem Held.cycle {n : Nat} (hn : n ≤ 3) (h : Held pc0 write var off n s) (i : Instr) :
    Held pc0 write var off (n + 1) (cycleOf Config.params i s) := by
  obtain ⟨hcur, hpc, hw⟩ := h
  have hfull : ¬ WindowFull s := fun ⟨ha, h5⟩ => by
    have := hw ha
    rw [h5] at this
    change 5 ≤ 1 + n at this
    omega
  have hdue : ¬ Commits s := fun ⟨_, he⟩ => by
    have := congrArg Fin.val he
    rw [hcur, eramLatency_val, hpc] at this
    omega
  refine ⟨?_, by rw [cycleOf_pc_val, hpc]; omega, fun ha => ?_⟩
  · rw [cycleOf_me_cur, eramStep_cur_of_not_full _ _ _ hfull, commitDue_eq_false s hdue, Bool.not_false,
      Bool.and_true, hcur]
  · rw [cycleOf_me_nxt] at ha ⊢
    cases hact : s.me.nxt.active
    case false =>
      rw [eramStep_nxt_of_free _ _ _ (.inl hact)] at ha ⊢
      split at ha
      case isTrue h4 => rw [if_pos h4]; change 1 ≤ _; omega
      case isFalse => cases ha
    case true =>
      have hle := hw hact
      rw [eramStep_me, eramSample_of_window _ _ (by rwa [eramCommit_me_nxt])
        (by rw [eramCommit_me_nxt]; exact fun h5 => hfull ⟨hact, h5⟩)]
      simp only [eramWindow]
      split
      · rw [eramCommit_me_nxt, Fin.val_add]
        exact (Nat.mod_le _ _).trans (by change _ + 1 ≤ _; omega)
      · rw [eramCommit_me_nxt]; omega

/-- The promotion cycle begins the hold. -/
theorem held_of_promotion (i : Instr) (h : WindowFull s)
    (hpc : s.me.pc.val = (s.me.nxt.pcStart.val + 5) % 768) :
    Held s.me.nxt.pcStart s.me.nxt.write s.me.nxt.var s.me.nxt.acc 0 (cycleOf Config.params i s) := by
  refine ⟨by rw [cycleOf_me_cur, eramStep_cur_of_full _ _ _ h], by rw [cycleOf_pc_val, hpc]; omega,
    fun ha => ?_⟩
  rw [cycleOf_me_nxt, eramStep_nxt_of_free _ _ _ (.inr h)] at ha ⊢
  split at ha
  case isTrue h4 => rw [if_pos h4]; exact le_refl 1
  case isFalse => cases ha

end hold

/-- The offset after a window cycle of `i`. -/
def shiftNibble (acc : BitVec 16) (i : Instr) : BitVec 16 :=
  (acc <<< 4) ||| (nibble i).setWidth 16

theorem nibble_toNat (i : Instr) : (nibble i).toNat = i.eramCtrl.toNat % 16 := by
  rw [nibble, BitVec.extractLsb'_toNat, Nat.shiftRight_zero]

/-- Four nibbles shifted into 0 are the four in order, the first most significant. -/
theorem shiftNibble_four (i1 i2 i3 i4 : Instr) :
    shiftNibble (shiftNibble (shiftNibble (shiftNibble 0 i1) i2) i3) i4
      = nibble i1 ++ nibble i2 ++ nibble i3 ++ nibble i4 := by
  apply BitVec.eq_of_toNat_eq
  erw [append_toNat, append_toNat, append_toNat]
  simp only [shiftNibble, nibble_toNat]
  simp only [nibble, shiftNibble_toNat, BitVec.ofNat_eq_ofNat, BitVec.toNat_ofNat]
  omega

/-- Cycle `w` after a START at `pc0`: its transaction is in `Nxt`, with the nibbles so far in `acc`. -/
structure Accumulating (pc0 : Pc) (write var : Bool) (acc : BitVec 16) (w : Fin 6) (s : State) :
    Prop where
  nxt : s.me.nxt = { active := true, write := write, var := var, pcStart := pc0, acc := acc, w := w }
  pc : s.me.pc.val = (pc0.val + w.val) % 768

section accumulate
variable {pc0 : Pc} {write var : Bool} {acc : BitVec 16} {s : State}

theorem accumulating_of_start (i : Instr) (h : s.me.nxt.active = false ∨ WindowFull s)
    (h4 : i.eramCtrl[4] = true) :
    Accumulating s.me.pc i.eramCtrl[0] i.eramCtrl[1] 0 1 (cycleOf Config.params i s) :=
  ⟨by rw [cycleOf_me_nxt, eramStep_nxt_of_free _ _ _ h, if_pos h4], cycleOf_pc_val ..⟩

theorem Accumulating.cycle {w : Fin 6} (h1 : 1 ≤ w.val) (h4 : w.val ≤ 4)
    (h : Accumulating pc0 write var acc w s) (i : Instr) :
    Accumulating pc0 write var (shiftNibble acc i) (w + 1) (cycleOf Config.params i s) := by
  obtain ⟨hnxt, hpc⟩ := h
  have hw : s.me.nxt.w.val = w.val := by rw [hnxt]
  have hw1 : (w + 1).val = w.val + 1 := by
    rw [Fin.val_add]; exact Nat.mod_eq_of_lt (by change _ + 1 < 6; omega)
  refine ⟨?_, by rw [cycleOf_pc_val, hpc, hw1]; omega⟩
  rw [cycleOf_me_nxt, eramStep_nxt_of_window _ _ _ (by rw [hnxt]) (by omega) (by omega), hnxt]
  rfl

/-- Five cycles after its START the transaction is promoted, and the hold begins. -/
theorem Accumulating.promotion (h : Accumulating pc0 write var acc 5 s) (i : Instr) :
    Held pc0 write var acc 0 (cycleOf Config.params i s) := by
  obtain ⟨hnxt, hpc⟩ := h
  have hf : WindowFull s := by rw [WindowFull, hnxt]; exact ⟨rfl, rfl⟩
  have hheld := held_of_promotion i hf (by rw [hnxt]; exact hpc)
  rwa [hnxt] at hheld

end accumulate

/-- Settles O45: the START, four window cycles, the promotion, four cycles of hold. -/
theorem eramCommitDueTenCyclesAfterStart : Obligations.EramCommitDueTenCyclesAfterStart := by
  unfold Obligations.EramCommitDueTenCyclesAfterStart
  intro i0 i1 i2 i3 i4 i5 i6 i7 i8 i9 s t hl hfree h4 h
  simp only [List.forall_mem_cons] at hl
  obtain ⟨l0, l1, l2, l3, l4, l5, l6, l7, l8, l9, -⟩ := hl
  rw [runCycles_cons l0, runCycles_cons l1, runCycles_cons l2, runCycles_cons l3, runCycles_cons l4,
    runCycles_cons l5, runCycles_cons l6, runCycles_cons l7, runCycles_cons l8, runCycles_cons l9] at h
  have w1 := accumulating_of_start i0 hfree h4
  have w2 := w1.cycle (by decide) (by decide) i1
  have w3 := w2.cycle (by decide) (by decide) i2
  have w4 := w3.cycle (by decide) (by decide) i3
  have w5 := w4.cycle (by decide) (by decide) i4
  have held0 := w5.promotion i5
  have held1 := held0.cycle (by decide) i6
  have held2 := held1.cycle (by decide) i7
  have held3 := held2.cycle (by decide) i8
  have held4 := held3.cycle (by decide) i9
  cases h
  obtain ⟨hcur, hpc, -⟩ := held4
  rw [shiftNibble_four] at hcur
  refine ⟨⟨by rw [hcur], Fin.ext ?_⟩, hpc, by rw [hcur], by rw [hcur], by rw [hcur]⟩
  rw [hcur, eramLatency_val, hpc]

/-! ### Addresses -/

/-- Settles O47: the VAR address is below 0x8000, so its outer reduction changes nothing. -/
theorem eramAddressesInRange : Obligations.EramAddressesInRange := by
  unfold Obligations.EramAddressesInRange
  intro p pos varOfs off _
  have hW := eramWords_ge p
  have hr : (pos + off.toNat + varOfs.toNat) % bankThreshold < 0x4000 := Nat.mod_lt _ (by decide)
  refine ⟨rfl, Nat.mod_lt _ (eramWords_pos p), Nat.mod_lt _ (eramWords_pos p), fun h => ?_, fun h => ?_⟩
  · rw [varAddr, if_neg (Nat.not_le.2 h), Nat.zero_add]
    exact Nat.mod_eq_of_lt (by omega)
  · rw [varAddr, if_pos h]
    exact Nat.mod_eq_of_lt (by change 0x4000 + _ < _; omega)

/-! ### Crunch -/

/-- The class of a value is the run of bits, from 22 down, that equal the sign (R105). -/
theorem crunchClass_spec (v : Cell) :
    (∀ j : Nat, j < (crunchClass v).val → v.getLsbD (22 - j) = v.getLsbD 23)
    ∧ ((crunchClass v).val < 4 → v.getLsbD (22 - (crunchClass v).val) ≠ v.getLsbD 23) := by
  unfold crunchClass
  simp only [← BitVec.getLsbD_eq_getElem]
  split_ifs with h22 h21 h20 h19
  · exact ⟨fun j hj => absurd hj (Nat.not_lt_zero j), fun _ => h22⟩
  · exact ⟨fun j (hj : j < 1) => by interval_cases j; exact not_not.1 h22, fun _ => h21⟩
  · exact ⟨fun j (hj : j < 2) => by interval_cases j; exacts [not_not.1 h22, not_not.1 h21], fun _ => h20⟩
  · exact ⟨fun j (hj : j < 3) => by interval_cases j; exacts [not_not.1 h22, not_not.1 h21, not_not.1 h20],
      fun _ => h19⟩
  · exact ⟨fun j (hj : j < 4) => by
      interval_cases j; exacts [not_not.1 h22, not_not.1 h21, not_not.1 h20, not_not.1 h19],
      fun h => absurd h (by decide)⟩

/-- Clearing the low bits floors the unsigned value. -/
theorem crunch_toNat (p : Params) (v : Cell) : (crunch p v).toNat =
    v.toNat / 2 ^ (p.crunchT (crunchClass v)).val * 2 ^ (p.crunchT (crunchClass v)).val := by
  apply Nat.eq_of_testBit_eq
  intro i
  rw [← BitVec.getLsbD, getLsbD_crunch, Nat.testBit_mul_two_pow, Nat.testBit_div_two_pow, Bool.and_comm]
  by_cases hi : (p.crunchT (crunchClass v)).val ≤ i
  · rw [Nat.sub_add_cancel hi]; rfl
  · simp [hi]

/-- A floor to a multiple of a power of two below the sign bit is the same floor of the signed value. -/
theorem toInt_of_toNat_floor (a b : Cell) (t : Nat) (ht : t ≤ 23)
    (h : a.toNat = b.toNat / 2 ^ t * 2 ^ t) : a.toInt = b.toInt / 2 ^ t * 2 ^ t := by
  obtain ⟨c, hc⟩ := pow_dvd_pow 2 ht
  have hP : 0 < 2 ^ t := Nat.two_pow_pos t
  have hle : a.toNat ≤ b.toNat := h ▸ Nat.div_mul_le_self _ _
  have ha : (a.toNat : Int) = (b.toNat : Int) / 2 ^ t * 2 ^ t := by rw [h]; push_cast; rfl
  rw [BitVec.toInt_eq_toNat_cond, BitVec.toInt_eq_toNat_cond]
  by_cases hb : 2 * b.toNat < 2 ^ 24
  · rw [if_pos hb, if_pos (by omega), ha]
  · have hcb : c ≤ b.toNat / 2 ^ t := (Nat.le_div_iff_mul_le hP).2 (by rw [Nat.mul_comm]; omega)
    have hca : c * 2 ^ t ≤ a.toNat := h ▸ Nat.mul_le_mul_right _ hcb
    have hW : ((2 ^ 24 : Nat) : Int) = 2 * c * 2 ^ t := by
      have : ((2 ^ 23 : Nat) : Int) = 2 ^ t * c := by rw [hc]; push_cast; rfl
      push_cast at this ⊢
      linarith
    rw [if_neg hb, if_neg (by rw [Nat.mul_comm] at hca; omega), ha, hW, sub_eq_add_neg (b.toNat : Int),
      ← neg_mul, Int.add_mul_ediv_right _ _ (by positivity)]
    ring

/-- Settles O48: the cleared bits are the low CRUNCH_T[k], all below the sign. -/
theorem crunchFloorsToClassWidth : Obligations.CrunchFloorsToClassWidth := by
  unfold Obligations.CrunchFloorsToClassWidth
  intro p v
  obtain ⟨hrun, hnext⟩ := crunchClass_spec v
  have ht : (p.crunchT (crunchClass v)).val ≤ 23 := by omega
  exact ⟨crunchClass v, hrun, hnext, toInt_of_toNat_floor _ _ _ ht (crunch_toNat p v)⟩

/-- Crunch keeps bits 19 to 23, and with them the class (R107). -/
theorem crunchClass_crunch (p : Params) (v : Cell) : crunchClass (crunch p v) = crunchClass v := by
  have kept : ∀ i, 19 ≤ i → (crunch p v).getLsbD i = v.getLsbD i := fun i hi => by
    rw [getLsbD_crunch, decide_eq_true (by omega), Bool.and_true]
  unfold crunchClass
  simp only [← BitVec.getLsbD_eq_getElem]
  rw [kept 23 (by decide), kept 22 (by decide), kept 21 (by decide), kept 20 (by decide),
    kept 19 (by decide)]

/-- Settles O49: the class is kept, so the second crunch clears the same bits. -/
theorem crunchIsIdempotent : Obligations.CrunchIsIdempotent := by
  unfold Obligations.CrunchIsIdempotent
  intro p v
  apply BitVec.eq_of_getLsbD_eq
  intro i _
  rw [getLsbD_crunch, crunchClass_crunch, getLsbD_crunch, Bool.and_assoc, Bool.and_self]

/-! ### NOP -/

/-- Settles O25: a NOP's cycle is the controller's steps and the end of the cycle; the rest is O34, O39
and O40 at a NOP. -/
theorem nopChangesOnlyBookkeeping : Obligations.NopChangesOnlyBookkeeping := by
  unfold Obligations.NopChangesOnlyBookkeeping
  intro e ss mem coef s
  refine ⟨decode_word _ _ _ _ _ .nop rfl, _, exec_legal (.nop e ss mem coef) s rfl, ?_⟩
  have hx := exec_legal (.nop e ss mem coef) s rfl
  have hraw (x : AccId) :=
    cycleOf_rawFull_of_not_dst Config.params (.nop e ss mem coef) s x (by rintro d ⟨⟩)
  refine ⟨?_, ?_, exec_skipfield_of_not_cond hx rfl rfl, fun x => ⟨hraw x, ?_⟩, fun ha h4 => ?_,
    fun ha h1 h4 => ?_⟩
  · exact ⟨nopCycle_active .., nopCycle_reply .., nopCycle_faults .., cycleOf_pc_val ..,
      nopCycle_me_prevOp ..⟩
  · exact ⟨nopCycle_me_iram .., nopCycle_gram .., nopCycle_coefBank .., nopCycle_me_interp ..,
      nopCycle_me_carry .., nopCycle_me_host .., nopCycle_me_wrLatch .., nopCycle_me_varOfs ..⟩
  · obtain ⟨hhead, hstored, -⟩ := (everyCycleStoresBothPipelines _ s _ hx).1 rfl x
    exact ⟨hstored.trans (hraw x), hhead⟩
  · exact (eramStartSampledWhenFree _ s _ rfl (.inl ha) hx).1 h4
  · exact (eramWindowTakesNibble _ s _ rfl ha h1 h4 hx).1

end Sys2Proof.Machine
end

section
/-! Proofs about a step and the one fault (60_exceptions.md, 42_core_cycle.md section 1): which words
raise which reason, what the raise leaves, and that it comes again. -/

namespace Sys2Proof.Machine

open Sys2Proof.Config (Params)
open Sys2Proof.Claims

/-! ### The step of each call -/

/-- A step takes the next call on the state with that call issued. -/
theorem step_of_call {s : State} {call : HostCall} (h : nextCall s = call) :
    step s = takeCall referenceEncoding call (issueCall s) := by
  rw [step, stepIn, h]

theorem core_withActive (s : State) (c d : CoreId) :
    ({ s with active := c } : State).core d = s.core d := by
  cases d <;> rfl

/-- Settles O6: the call is a cycle, which runs what the decoder gives for the word at pc. -/
theorem stepRunsDecodedInstruction : Obligations.StepRunsDecodedInstruction := by
  unfold Obligations.StepRunsDecodedInstruction
  intro s c hc
  have hf : fetch ((issueCall s).core c) = Mem.read (s.core c).pram (s.core c).pc.val := by
    rw [issueCall_core, fetch]
  rw [step_of_call hc, ← hf]
  exact ⟨fun i hd => stepCycle_of_ok _ c _ i hd, fun r hd => stepCycle_of_error _ c _ r hd⟩

/-- Every call gives a next state: `exec` does, and the decoder's rejections raise. -/
theorem takeCall_answers (enc : Config.Encoding) (call : HostCall) (s : State) :
    ∃ t, takeCall enc call s = .next t := by
  cases call
  case stepCycle c =>
    cases hd : decodeWith enc (fetch (s.core c))
    case ok i => exact ⟨_, (stepCycle_of_ok enc c s i hd).trans (exec_eq ..)⟩
    case error r => exact ⟨_, stepCycle_of_error enc c s r hd⟩
  case stepSample | writeProgramByte | writeCoefficientOnly | readHostRegister => exact ⟨_, rfl⟩

/-- Settles O7: a step is a call taken. -/
theorem stepAlwaysAnswersNext : Obligations.StepAlwaysAnswersNext := by
  unfold Obligations.StepAlwaysAnswersNext
  exact fun s => takeCall_answers _ _ _

/-- Settles O10: a refused sub-code and an `opf` without a category decode to the instructions that are
never legal. -/
theorem refusedCodesAlwaysRaise : Obligations.RefusedCodesAlwaysRaise := by
  unfold Obligations.RefusedCodesAlwaysRaise
  intro e opf ss mem coef s
  have unmapped : ∀ opf : BitVec 5, opf.toNat = 12 ∨ 16 ≤ opf.toNat → opMap opf = none := by decide
  refine ⟨decode_ctrlWord .., exec_raises _ s rfl, decode_ctrlWord .., exec_raises _ s rfl,
    decode_ctrlWord .., exec_raises _ s rfl, fun h => ?_, exec_raises _ s rfl⟩
  rw [word, ← assemble_eq_append]
  exact decodeWith_assemble_of_unmapped referenceEncoding fieldLayout_valid _ _ _ _ _ (unmapped opf h)

/-! ### The reason of a word (R161) -/

/-- The reason a decoded word raises: the decoder's, else the instruction's. -/
def raisedBy : Except Reason Instr → Option Reason
  | .error r => some r
  | .ok i => if i.legal then none else some (reasonOf i)

/-- The reason R161 gives a word without reserved bits, from its `opf` and its `mem`. -/
def fieldReason (opf mem : Nat) : Option Reason :=
  if opf = 12 ∨ 16 ≤ opf then some .opcode
  else if opf = 13 ∧ (mem = 0xC8 ∨ mem = 0xC9 ∨ mem = 0xCF) then some .subcode
  else if (1 ≤ opf ∧ opf ≤ 7 ∧ 0xC0 ≤ mem) ∨ (8 ≤ opf ∧ opf ≤ 11 ∧ (mem < 0x05 ∨ 0xC0 ≤ mem))
      ∨ (opf = 13 ∧ (mem < 0xC0 ∨ 0xD0 ≤ mem)) ∨ (14 ≤ opf ∧ opf ≤ 15 ∧ mem ≠ 0) then some .mem
  else none

theorem wordReason_eq_fieldReason (w : Word) : wordReason w =
    if rsvdOf fieldLayout w = 0 then fieldReason (opfOf fieldLayout w).toNat (memOf fieldLayout w).toNat
    else some .reservedBits := by
  have hr : rsvdOf fieldLayout w = 0 ↔ w.toNat / 2 ^ 23 % 2 ^ 4 = 0 := by
    rw [← BitVec.toNat_inj, rsvdOf, extract_toNat]; rfl
  simp only [wordReason, hr, ne_eq, ite_not, opfOf, memOf, extract_toNat]
  rfl

section fieldReason
variable {opf : Nat}

theorem fieldReason_operand (h : 1 ≤ opf ∧ opf ≤ 7) (mem : Byte) :
    fieldReason opf mem.toNat = if admitsOperand mem then none else some .mem := by
  simp only [admitsOperand_iff, fieldReason]
  by_cases hm : mem.toNat < 0xC0
  · rw [if_pos hm, if_neg, if_neg, if_neg] <;> omega
  · rw [if_neg hm, if_neg, if_neg, if_pos] <;> omega

theorem fieldReason_store (h : 8 ≤ opf ∧ opf ≤ 11) (mem : Byte) :
    fieldReason opf mem.toNat = if admitsStore mem then none else some .mem := by
  simp only [admitsStore_iff, fieldReason]
  by_cases hm : 0x05 ≤ mem.toNat ∧ mem.toNat < 0xC0
  · rw [if_pos hm, if_neg, if_neg, if_neg] <;> omega
  · rw [if_neg hm, if_neg, if_neg, if_pos] <;> omega

theorem fieldReason_latch (h : 14 ≤ opf ∧ opf ≤ 15) (mem : Byte) :
    fieldReason opf mem.toNat = if admitsLatch mem then none else some .mem := by
  have hz : mem = 0 ↔ mem.toNat = 0 := by rw [← BitVec.toNat_inj]; rfl
  simp only [admitsLatch_iff, hz, fieldReason]
  by_cases hm : mem.toNat = 0
  · rw [if_pos hm, if_neg, if_neg, if_neg] <;> omega
  · rw [if_neg hm, if_neg, if_neg, if_pos] <;> omega

end fieldReason

/-- The refused sub-codes (R152, R153, R159). -/
theorem raisedBy_ctrlOf (sub : BitVec 4) (e : BitVec 5) (ss : BitVec 2) (coef : Byte) :
    raisedBy (.ok (ctrlOf sub e ss coef)) =
      if sub.toNat = 8 ∨ sub.toNat = 9 ∨ sub.toNat = 15 then some .subcode else none := by
  obtain ⟨n, hn⟩ := sub
  interval_cases n <;> rfl

theorem fieldReason_ctrl (e : BitVec 5) (ss : BitVec 2) (mem coef : Byte) :
    fieldReason 13 mem.toNat = raisedBy (instrOf .ctrl e ss mem coef) := by
  have hc : isControlCode mem = true ↔ 0xC0 ≤ mem.toNat ∧ mem.toNat < 0xD0 := decide_eq_true_iff
  have hsub : (mem.extractLsb' 0 4).toNat = mem.toNat % 16 := by
    rw [BitVec.extractLsb'_toNat, Nat.shiftRight_zero]
  rw [instrOf, apply_ite raisedBy, raisedBy_ctrlOf, hsub]
  simp only [hc, fieldReason, raisedBy, true_and]
  by_cases hm : 0xC0 ≤ mem.toNat ∧ mem.toNat < 0xD0
  · by_cases hs : mem.toNat % 16 = 8 ∨ mem.toNat % 16 = 9 ∨ mem.toNat % 16 = 15
    · rw [if_pos hm, if_pos hs, if_neg (by decide), if_pos (by omega)]
    · rw [if_pos hm, if_neg hs, if_neg (by decide), if_neg, if_neg] <;> omega
  · rw [if_neg hm, if_neg (by decide), if_neg, if_pos] <;> omega

/-- Each category's admission (R79), from the numbers. -/
theorem fieldReason_of_category (e opf : BitVec 5) (ss : BitVec 2) (mem coef : Byte) (cat : Category)
    (h : opMap opf = some cat) :
    fieldReason opf.toNat mem.toNat = raisedBy (instrOf cat e ss mem coef) := by
  rw [← opfFor_opMap opf cat h]
  cases cat
  case nop => rfl
  case lda | ldb | mulc | aca | acb | acga | acgb => exact fieldReason_operand (by decide) mem
  case stia | stib | stga | stgb => exact fieldReason_store (by decide) mem
  case erda | erdb => exact fieldReason_latch (by decide) mem
  case ctrl => exact fieldReason_ctrl e ss mem coef

/-- The reason in the word's bits is the one the decoder or the meaning raises (R161). -/
theorem wordReason_eq (w : Word) : wordReason w = raisedBy (decode w) := by
  rw [wordReason_eq_fieldReason, decode_eq]
  split
  case isFalse => rfl
  case isTrue =>
    split
    case h_1 cat h => exact fieldReason_of_category _ _ _ _ _ cat h
    case h_2 h =>
      have : ∀ opf : BitVec 5, opMap opf = none → opf.toNat = 12 ∨ 16 ≤ opf.toNat := by decide
      exact if_pos (this _ h)

/-! ### A cycle by the reason of its word -/

section stepCycle
variable {c : CoreId} {s : State}

theorem stepCycle_of_reason {r : Reason} (h : wordReason (fetch (s.core c)) = some r) :
    stepCycle referenceEncoding c s = .next (raised r { s with active := c }) := by
  rw [wordReason_eq] at h
  cases hd : decode (fetch (s.core c)) <;> rw [hd, raisedBy] at h
  case error r' =>
    cases h
    exact stepCycle_of_error _ c s _ hd
  case ok i =>
    cases hl : i.legal <;> rw [hl] at h <;> cases h
    exact (stepCycle_of_ok _ c s i hd).trans (exec_raises i _ hl)

theorem stepCycle_of_no_reason (h : wordReason (fetch (s.core c)) = none) :
    ∃ i, stepCycle referenceEncoding c s = .next (cycleOf Config.params i { s with active := c }) := by
  rw [wordReason_eq] at h
  cases hd : decode (fetch (s.core c)) <;> rw [hd, raisedBy] at h
  case error => cases h
  case ok i =>
    cases hl : i.legal <;> rw [hl] at h <;> cases h
    exact ⟨i, (stepCycle_of_ok _ c s i hd).trans (exec_legal i _ hl)⟩

end stepCycle

/-- Settles O8: the word at pc has a reason or runs its cycle. -/
theorem illegalWordsFaultByPriority : Obligations.IllegalWordsFaultByPriority := by
  unfold Obligations.IllegalWordsFaultByPriority
  intro s c hc
  have hf : Mem.read (s.core c).pram (s.core c).pc.val = fetch ((issueCall s).core c) := by
    rw [issueCall_core, fetch]
  rw [step_of_call hc, hf]
  split
  case h_1 r hr => exact stepCycle_of_reason hr
  case h_2 hr =>
    obtain ⟨i, hi⟩ := stepCycle_of_no_reason hr
    exact ⟨_, hi, cycleOf_reply .., (cycleOf_faults ..).trans (issueCall_faults s)⟩

/-! ### The fault comes again (R162) -/

/-- Core `c` stands at `pc`, over the word `w`. -/
def StandsAt (c : CoreId) (pc : Pc) (w : Word) (s : State) : Prop :=
  (s.core c).pc = pc ∧ Mem.read (s.core c).pram pc.val = w

section standsAt
variable {c : CoreId} {pc : Pc} {w : Word} {s t : State}

theorem StandsAt.congr (h : StandsAt c pc w s) (hc : t.core c = s.core c) : StandsAt c pc w t := by
  rwa [StandsAt, hc]

theorem StandsAt.fetch_eq (h : StandsAt c pc w s) : fetch (s.core c) = w := by
  obtain ⟨rfl, hw⟩ := h
  exact hw

/-- The record of a raise by core `c` (R160). -/
theorem StandsAt.raised_record (h : StandsAt c pc w s) (r : Reason) :
    (raised r { s with active := c }).reply = .fault ⟨c, pc, w, r⟩
    ∧ (raised r { s with active := c }).faults = s.faults ++ [⟨c, pc, w, r⟩] := by
  obtain ⟨rfl, rfl⟩ := h
  cases c <;> exact ⟨rfl, rfl⟩

theorem raised_core (r : Reason) (d : CoreId) : (raised r { s with active := c }).core d = s.core d :=
  (raise_core { s with active := c } r d).trans (core_withActive ..)

/-- A program write to another word leaves the word at pc. -/
theorem StandsAt.updateProgram {d : CoreId} {i : Pc} (f : Word → Word) (h : StandsAt c pc w s)
    (hne : ¬ (d = c ∧ i = pc)) : StandsAt c pc w (updateProgram d i f s) := by
  by_cases hd : d = c
  · subst hd
    have hi : pc.val ≠ i.val := fun he => hne ⟨rfl, (Fin.ext he).symm⟩
    rw [StandsAt, Machine.updateProgram, State.core_setCore_same]
    exact ⟨h.1, (Mem.read_write_other _ _ _ _ hi).trans h.2⟩
  · refine h.congr ?_
    obtain rfl := (eq_or_eq_otherCore d c).resolve_left (Ne.symm hd)
    exact State.core_setCore_other ..

/-- A cycle of the other core leaves this core. -/
theorem stepCycle_core_other (enc : Config.Encoding) {d : CoreId} (hd : d ≠ c)
    (ht : stepCycle enc d s = .next t) : t.core c = s.core c := by
  obtain rfl := (eq_or_eq_otherCore d c).resolve_left (Ne.symm hd)
  obtain ⟨i, -, -, rfl⟩ | ⟨r, rfl⟩ := stepCycle_next enc d s t ht
  · exact (cycleOf_core_other Config.params i { s with active := d }).trans (core_withActive ..)
  · exact raised_core r _

/-- No call but a write to the word itself moves a core away from a word that faults. -/
theorem StandsAt.takeCall {r : Reason} (hr : wordReason w = some r) (call : HostCall)
    (hw : writesWord c pc call = false) (h : StandsAt c pc w s)
    (ht : takeCall referenceEncoding call s = .next t) : StandsAt c pc w t := by
  cases call
  case stepCycle d =>
    refine h.congr ?_
    by_cases hd : d = c
    · subst hd
      have hx := stepCycle_of_reason (c := d) (s := s) (by rw [h.fetch_eq]; exact hr)
      cases hx.symm.trans ht
      exact raised_core r d
    · exact stepCycle_core_other _ hd ht
  case stepSample =>
    cases ht
    cases c <;> exact h
  case writeProgramByte d i lane b =>
    cases ht
    exact (h.updateProgram _ (of_decide_eq_false hw)).congr (State.core_setReply ..)
  case writeCoefficientOnly d i v =>
    cases ht
    exact (h.updateProgram _ (of_decide_eq_false hw)).congr (State.core_setReply ..)
  case readHostRegister =>
    cases ht
    exact h.congr (State.core_setReply ..)

theorem StandsAt.step {r : Reason} (hr : wordReason w = some r) (h : StandsAt c pc w s)
    (hw : writesWord c pc (nextCall s) = false) (ht : step s = .next t) : StandsAt c pc w t :=
  StandsAt.takeCall hr (nextCall s) hw (h.congr (issueCall_core s c)) ht

/-- The cycle of a core that stands at a faulting word records it and leaves the core there (R160). -/
theorem StandsAt.step_raises {r : Reason} (hr : wordReason w = some r) (h : StandsAt c pc w s)
    (hc : nextCall s = .stepCycle c) (ht : Machine.step s = .next t) :
    t.reply = .fault ⟨c, pc, w, r⟩ ∧ t.faults = s.faults ++ [⟨c, pc, w, r⟩] ∧ StandsAt c pc w t := by
  have hi : StandsAt c pc w (issueCall s) := h.congr (issueCall_core s c)
  have hfault := stepCycle_of_reason (s := issueCall s) (by rw [hi.fetch_eq]; exact hr)
  rw [step_of_call hc] at ht
  cases hfault.symm.trans ht
  obtain ⟨hreply, hfaults⟩ := hi.raised_record r
  exact ⟨hreply, by rw [hfaults, issueCall_faults], hi.congr (raised_core r c)⟩

/-- The cycle of a word without a reason returns Ok. -/
theorem step_reply_of_no_reason (hr : wordReason (fetch (s.core c)) = none)
    (hc : nextCall s = .stepCycle c) (ht : step s = .next t) : t.reply = .ok := by
  rw [step_of_call hc] at ht
  obtain ⟨i, hi⟩ := stepCycle_of_no_reason (s := issueCall s) (by rw [issueCall_core]; exact hr)
  cases hi.symm.trans ht
  exact cycleOf_reply ..

end standsAt

/-- A run of steps keeps what every step of it keeps whose call meets `ok`. -/
theorem runSteps_keeps {P : State → Prop} {ok : HostCall → Prop}
    (hstep : ∀ v v', P v → ok (nextCall v) → step v = .next v' → P v') (n : Nat) (t u : State)
    (ht : P t) (hok : ∀ k < n, ∀ v, runSteps k t = some v → ok (nextCall v))
    (h : runSteps n t = some u) : P u := by
  induction n generalizing t with
  | zero => cases h; exact ht
  | succ n ih =>
    obtain ⟨v, hv⟩ := takeCall_answers referenceEncoding (nextCall t) (issueCall t)
    have hrun : ∀ k, runSteps (k + 1) t = runSteps k v := fun k => by
      rw [runSteps, step_of_call rfl, hv]
    refine ih v (hstep t v ht (hok 0 n.succ_pos t rfl) hv) (fun k hk x hx => ?_) (hrun n ▸ h)
    exact hok (k + 1) (Nat.succ_lt_succ hk) x (hrun k ▸ hx)

/-- Settles O9: the core stands at the faulting word after the fault and after every call between. -/
theorem faultRepeatsWithSameRecord : Obligations.FaultRepeatsWithSameRecord := by
  unfold Obligations.FaultRepeatsWithSameRecord
  intro s t u x c r n hc ht hreply hcalls hu huc hx
  have hs : StandsAt c (s.core c).pc (fetch (s.core c)) s := ⟨rfl, rfl⟩
  cases hr : wordReason (fetch (s.core c))
  case none =>
    rw [step_reply_of_no_reason hr hc ht] at hreply
    cases hreply
  case some reason =>
    obtain ⟨hrecord, -, hst⟩ := hs.step_raises hr hc ht
    cases hrecord.symm.trans hreply
    have hsu := runSteps_keeps (ok := fun call => writesWord c (s.core c).pc call = false)
      (fun v v' hv hw hn => hv.step hr hw hn) n t u hst hcalls hu
    obtain ⟨hxreply, hxfaults, hxs⟩ := hsu.step_raises hr huc hx
    exact ⟨hxreply, hxs.1, hxfaults⟩

end Sys2Proof.Machine
end

section
/-! Proofs about the host's calls (60_exceptions.md section 3, 20_memory.md section 5,
70_reset_and_hazards.md): the sample strobe and the delay line it moves, program writes, the host
register, and the reference host's tick. -/

namespace Sys2Proof.Machine

open Sys2Proof.Config (Params)
open Sys2Proof.Claims

/-! ### The host register -/

/-- Settles O54: the call returns the register of the state with the call issued, which is the same. -/
theorem hostReadReturnsRegister : Obligations.HostReadReturnsRegister := by
  unfold Obligations.HostReadReturnsRegister
  intro s c hc
  rw [step_of_call hc, takeCall, readHostRegister, issueCall_core]
  rfl

/-! ### The sample strobe -/

/-- One less, circularly, in a byte (R174). -/
theorem toNat_sub_one (b : Byte) : (b - 1).toNat = (b.toNat + 255) % 256 := by
  rw [BitVec.toNat_sub]
  change (255 + b.toNat) % 256 = _
  omega

/-- One less, circularly, below any bound (R174). -/
theorem pred_mod {n w : Nat} (h : n < w) : (n + (w - 1)) % w = if n = 0 then w - 1 else n - 1 := by
  split
  case isTrue h0 => subst h0; rw [Nat.zero_add]; exact Nat.mod_eq_of_lt (by omega)
  case isFalse h0 =>
    rw [show n + (w - 1) = n - 1 + w by omega, Nat.add_mod_right]
    exact Nat.mod_eq_of_lt (by omega)

/-- Settles O51: the strobe writes the three positions; the state it finds is the block's. -/
theorem sampleMovesPositionsOnly : Obligations.SampleMovesPositionsOnly := by
  unfold Obligations.SampleMovesPositionsOnly
  intro s hc hpos
  refine ⟨_, step_of_call hc, ?_⟩
  simp only [stepSample, issueCall_core0, issueCall_core1, issueCall_gram, issueCall_coefBank,
    issueCall_eram, issueCall_eramPos, issueCall_faults, toNat_sub_one, pred_mod hpos, and_self]

/-- `d` strobes move a core's position down by `d` and leave the rest of it, and GRAM (R186). -/
theorem stepSample_iterate (p : Params) (s : State) (c : CoreId) (d : Nat) :
    ((stepSample p)^[d] s).core c
        = { s.core c with iramPos := (s.core c).iramPos - BitVec.ofNat 8 d }
    ∧ ((stepSample p)^[d] s).gram = s.gram := by
  induction d with
  | zero =>
    rw [Function.iterate_zero_apply, BitVec.sub_zero]
    exact ⟨rfl, rfl⟩
  | succ d ih =>
    obtain ⟨hcore, hgram⟩ := ih
    have hmove (u : State) : (stepSample p u).core c
        = { u.core c with iramPos := (u.core c).iramPos - 1 } := by cases c <;> rfl
    have hpos : (s.core c).iramPos - BitVec.ofNat 8 d - 1
        = (s.core c).iramPos - BitVec.ofNat 8 (d + 1) := by
      rw [BitVec.sub_sub]; congr 1; bv_omega
    rw [Function.iterate_succ_apply', hmove, hcore, hpos]
    exact ⟨rfl, hgram⟩

/-- Settles O55: the code moves up by as much as the position moves down. -/
theorem delayLineShiftsOneCodePerSample : Obligations.DelayLineShiftsOneCodePerSample := by
  unfold Obligations.DelayLineShiftsOneCodePerSample
  intro s c m d _
  obtain ⟨hcore, hgram⟩ := stepSample_iterate Config.params s c d
  rw [hcore]
  refine ⟨?_, rfl, hgram, ea_eq ..⟩
  have hsum : m + BitVec.ofNat 8 d + ((s.core c).iramPos - BitVec.ofNat 8 d)
      = m + (s.core c).iramPos := by
    bv_omega
  exact congrArg BitVec.toNat hsum

/-! ### Program writes -/

/-- The bits of a word after a lane write (R57). -/
theorem getLsbD_setLane (w : Word) (lane : Fin 4) (b : Byte) (n : Nat) (hn : n < 32) :
    (setLane w lane b).getLsbD n =
      if 8 * lane.val ≤ n ∧ n < 8 * lane.val + 8 then b.getLsbD (n - 8 * lane.val) else w.getLsbD n := by
  have hFF : ∀ k, (0xFF#32).getLsbD k = decide (k < 8) := fun k => by
    rw [BitVec.getLsbD_ofNat, show 0xFF = 2 ^ 8 - 1 from rfl, Nat.testBit_two_pow_sub_one,
      ← Bool.decide_and]
    exact decide_eq_decide.2 (by omega)
  simp only [setLane, BitVec.getLsbD_or, BitVec.getLsbD_and, BitVec.getLsbD_not, BitVec.getLsbD_shiftLeft,
    BitVec.getLsbD_setWidth, hFF, hn, decide_true, Bool.true_and]
  by_cases hlo : n < 8 * lane.val
  · rw [if_neg (by omega)]
    simp [hlo]
  · by_cases hhi : n < 8 * lane.val + 8
    · rw [if_pos (by omega)]
      simp [hlo, show n - 8 * lane.val < 8 by omega, show n - 8 * lane.val < 32 by omega]
    · rw [if_neg (by omega), BitVec.getLsbD_of_ge b _ (by omega)]
      simp [show ¬ n - 8 * lane.val < 8 by omega]

/-- Each lane after the write: the byte in the lane written, the others as before (R57). -/
theorem extract_setLane (w : Word) (lane l : Fin 4) (b : Byte) :
    (setLane w lane b).extractLsb' (8 * l.val) 8 =
      if l = lane then b else w.extractLsb' (8 * l.val) 8 := by
  apply BitVec.eq_of_getLsbD_eq
  intro n hn
  rw [BitVec.getLsbD_extractLsb', getLsbD_setLane _ _ _ _ (by omega), decide_eq_true hn, Bool.true_and]
  by_cases hl : l = lane
  · rw [if_pos hl, hl, if_pos (by omega), Nat.add_sub_cancel_left]
  · have hv : l.val ≠ lane.val := fun h => hl (Fin.ext h)
    rw [if_neg hl, if_neg (by omega), BitVec.getLsbD_extractLsb', decide_eq_true hn, Bool.true_and]

/-- A write of lane 0 keeps the upper 24 bits (R58). -/
theorem setLane_zero_toNat (w : Word) (b : Byte) :
    (setLane w 0 b).toNat = w.toNat / 256 * 256 + b.toNat := by
  have happ : setLane w 0 b = w.extractLsb' 8 24 ++ b := by
    apply BitVec.eq_of_getLsbD_eq
    intro n hn
    rw [getLsbD_setLane _ _ _ _ hn, BitVec.getLsbD_append]
    by_cases h8 : n < 8
    · simp [h8]
    · simp [h8, show n - 8 < 24 by omega, show 8 + (n - 8) = n by omega]
  have hw := w.isLt
  rw [happ]
  erw [append_toNat]
  rw [extract_toNat]
  omega

section write
variable (c : CoreId) (i : Pc) (f : Word → Word) (s : State)

theorem read_updateProgram :
    Mem.read ((updateProgram c i f s).core c).pram i.val = f (Mem.read (s.core c).pram i.val) := by
  rw [updateProgram, State.core_setCore_same]
  exact Mem.read_write_same ..

/-- What a program write leaves: the other words, the rest of its core, the other core and the shared
state (R57, R58). -/
def WriteFrame (t : State) : Prop :=
  (∀ j, j ≠ i.val → Mem.read (t.core c).pram j = Mem.read (s.core c).pram j)
    ∧ t.core c = { s.core c with pram := (t.core c).pram }
    ∧ t.core c.other = s.core c.other
    ∧ t.gram = s.gram ∧ t.coefBank = s.coefBank ∧ t.eram = s.eram ∧ t.eramPos = s.eramPos
    ∧ t.faults = s.faults ∧ t.reply = .nothing

theorem updateProgram_frame :
    WriteFrame c i s ((updateProgram c i f (issueCall s)).setReply .nothing) := by
  rw [WriteFrame]
  refine ⟨fun j hj => ?_, ?_, ?_, ?_⟩
  · rw [State.core_setReply, updateProgram, State.core_setCore_same, issueCall_core]
    exact Mem.read_write_other _ _ _ _ hj
  · rw [State.core_setReply, updateProgram, State.core_setCore_same, issueCall_core]
  · rw [State.core_setReply, updateProgram, State.core_setCore_other, issueCall_core]
  · simp [updateProgram]

end write

/-- Settles O52: the word is its old value with the lane replaced. -/
theorem programByteWriteReplacesLane : Obligations.ProgramByteWriteReplacesLane := by
  unfold Obligations.ProgramByteWriteReplacesLane
  intro s c i lane b hc
  refine ⟨_, step_of_call hc, fun l => ?_, updateProgram_frame ..⟩
  rw [writeProgramByte, State.core_setReply, read_updateProgram, issueCall_core]
  exact extract_setLane ..

/-- A word's reason does not depend on its low byte, the coefficient (R187). -/
theorem wordReason_congr {w w' : Word} (h : w.toNat / 256 = w'.toNat / 256) :
    wordReason w = wordReason w' := by
  have hdiv : ∀ k, w.toNat / 2 ^ (8 + k) = w'.toNat / 2 ^ (8 + k) := fun k => by
    rw [pow_add, ← Nat.div_div_eq_div_mul, ← Nat.div_div_eq_div_mul]
    exact congrArg (· / 2 ^ k) h
  unfold wordReason
  rw [hdiv 15, hdiv 10, hdiv 0]

/-- Settles O53: the write is to lane 0, which no reason depends on. -/
theorem coefficientWriteKeepsLegality : Obligations.CoefficientWriteKeepsLegality := by
  unfold Obligations.CoefficientWriteKeepsLegality
  intro s c i v hc
  have hword : Mem.read ((writeCoefficientOnly c i v (issueCall s)).core c).pram i.val
      = setLane (Mem.read (s.core c).pram i.val) 0 v := by
    rw [writeCoefficientOnly, State.core_setReply, read_updateProgram, issueCall_core]
  obtain ⟨words, core, other, gram, bank, eram, pos, faults, reply⟩ :=
    updateProgram_frame c i (fun w => setLane w 0 v) s
  refine ⟨_, step_of_call hc, ?_, words, core, other, gram, bank, eram, pos, faults, reply,
    fun hnone => ?_⟩
  · exact (congrArg BitVec.toNat hword).trans (setLane_zero_toNat ..)
  · refine Eq.trans (wordReason_congr ?_) hnone
    have hv := v.isLt
    rw [hword, setLane_zero_toNat]
    omega

/-! ### The reference host's tick -/

/-- Two places on in a tick is the next pair of cycles, before the last pair. -/
theorem nextTurn_pair (k : Nat) (h : k + 1 < progWords) :
    nextTurn (nextTurn (.cycle ⟨k, by omega⟩ .core0)) = .cycle ⟨k + 1, h⟩ .core0 := by
  have hne : k + 1 ≠ progWords := by omega
  have hval : (⟨k, by omega⟩ : Pc) + 1 = ⟨k + 1, h⟩ :=
    Fin.ext (by rw [Fin.val_add]; exact Nat.mod_eq_of_lt h)
  simp only [nextTurn, hne, if_false, hval]

/-- The places of a tick before its sample: pair `k` begins at place `2k` (R176). -/
theorem nextTurn_iterate_pair (k : Nat) (h : k < progWords) :
    nextTurn^[2 * k] (.cycle 0 .core0) = .cycle ⟨k, h⟩ .core0 := by
  induction k with
  | zero => rfl
  | succ k ih =>
    rw [Nat.mul_succ, Function.iterate_succ_apply', Function.iterate_succ_apply', ih (by omega)]
    exact nextTurn_pair k h

/-- The last pair is followed by the sample. -/
theorem nextTurn_iterate_sample : nextTurn^[1536] (.cycle 0 .core0) = .sample := by
  rw [show 1536 = 2 * 767 + 2 from rfl, Function.iterate_succ_apply', Function.iterate_succ_apply',
    nextTurn_iterate_pair 767 (by decide)]
  rfl

/-- Taking a call leaves the calls to come and the place in the tick. -/
theorem takeCall_queue (enc : Config.Encoding) (call : HostCall) (s t : State)
    (h : takeCall enc call s = .next t) : t.calls = s.calls ∧ t.turn = s.turn := by
  cases call
  case stepCycle c =>
    obtain ⟨i, -, -, rfl⟩ | ⟨r, rfl⟩ := stepCycle_next enc c s t h
    · exact ⟨cycleOf_calls .., cycleOf_turn ..⟩
    · exact ⟨raise_calls .., raise_turn ..⟩
  case stepSample | readHostRegister => cases h; exact ⟨rfl, rfl⟩
  case writeProgramByte | writeCoefficientOnly =>
    cases h
    exact ⟨State.calls_setCore .., State.turn_setCore ..⟩

theorem issueCall_of_empty {s : State} (h : s.calls = []) :
    nextCall s = turnCall s.turn ∧ issueCall s = { s with turn := nextTurn s.turn } := by
  simp only [nextCall, issueCall, h, and_self]

/-- While no call is queued, each step moves the place in the tick to the next. -/
theorem runSteps_turn (n : Nat) (s t : State) (hs : s.calls = []) (h : runSteps n s = some t) :
    t.calls = [] ∧ t.turn = nextTurn^[n] s.turn := by
  induction n generalizing s with
  | zero => cases h; exact ⟨hs, rfl⟩
  | succ n ih =>
    obtain ⟨v, hv⟩ := takeCall_answers referenceEncoding (nextCall s) (issueCall s)
    obtain ⟨hcalls, hturn⟩ := takeCall_queue _ _ _ _ hv
    rw [(issueCall_of_empty hs).2] at hcalls hturn
    rw [runSteps, step_of_call rfl, hv] at h
    obtain ⟨hc, ht⟩ := ih v (hcalls.trans hs) h
    exact ⟨hc, by rw [ht, hturn, Function.iterate_succ_apply]⟩

/-- Settles O56: the places of one tick by induction on the pair, and one place a step. -/
theorem referenceTickAlternatesCores : Obligations.ReferenceTickAlternatesCores := by
  unfold Obligations.ReferenceTickAlternatesCores
  refine ⟨fun k => ⟨?_, ?_⟩, ?_, ?_, fun s hs => issueCall_of_empty hs, fun n s t hs h => ?_⟩
  · rw [nextTurn_iterate_pair k.val k.isLt]; rfl
  · rw [Function.iterate_succ_apply', nextTurn_iterate_pair k.val k.isLt]; rfl
  · rw [nextTurn_iterate_sample]; rfl
  · rw [Function.iterate_succ_apply', nextTurn_iterate_sample]; rfl
  · obtain ⟨hcalls, hturn⟩ := runSteps_turn n s t hs h
    exact ⟨hcalls, hturn, by rw [(issueCall_of_empty hcalls).1, hturn]⟩

end Sys2Proof.Machine
end
